-- ==== Sys2Proof/Word.lean ====
section
/-! DEFINITION. The widths of the values the sequencer moves (R6, R7, R38): 32-bit frame words, 8-bit data bytes,
16-bit status-register reads. Every value is unsigned and bit 0 is the least significant bit (R7). -/

namespace Sys2Proof

/-- A word of a command frame or of the host's result (R53, R64). -/
abbrev Word := BitVec 32

/-- A data byte, a pin id, or a data-register value (R6 `BYTE_WIDTH`). -/
abbrev Byte := BitVec 8

/-- What one register read of the peripheral answers (R6 `SR_WIDTH`; 16 bits). -/
abbrev Half := BitVec 16

end Sys2Proof
end

