-- ==== Sys2Proof/Config.lean ====
section
/-! DEFINITION. The parameters of R6: instances, pins and roles, the capability relation `CAP` (R70 to R72), the
marker predicate `afpp` (R73), the register binding `REGMAP` (R21 to R25, R41 to R43), and the free values the spec
leaves to the oracle and to the draw. A `Config` is fixed for a run: `State` carries it and no step changes it. -/

namespace Sys2Proof

/-- A peripheral unit: Instance A (index 0) or Instance B (index 1) (R6, R137). -/
inductive Inst where
  | a
  | b
  deriving DecidableEq, Repr

/-- The clock line or the data line of a pin pair (R69). -/
inductive Role where
  | scl
  | sda
  deriving DecidableEq, Repr

/-- A pin id, `port × 16 + n` (R68). -/
abbrev PinId := BitVec 8

/-- The pin id of pin `n` of GPIO port `port`, port A being 0 (R68). -/
def pinId (port n : Nat) : PinId := BitVec.ofNat 8 (port * 16 + n)

/-- One fact of the capability relation: pin `pin` may serve as the `role` line of `inst` (R70). -/
structure CapFact where
  pin  : PinId
  inst : Inst
  role : Role
  deriving DecidableEq, Repr

/-- The registers of one instance's block (R42). -/
inductive BlockReg where
  | cr1
  | cr2
  | oar1
  | oar2
  | dr
  | sr1
  | sr2
  | ccr
  | trise
  deriving DecidableEq, Repr

/-- `REGMAP` for one instance: where its block is and how far it reaches, the offset of each register, the bit of each
field the sequencer names, and where its two clock-control fields are. The layout is instance-specific (R6): each
instance has one of its own. -/
structure BlockMap where
  /-- Base address and span in bytes of the register block (R41). -/
  base : Word
  span : Nat
  /-- Register offsets within the block (R42). -/
  cr1Off : Word
  cr2Off : Word
  oar1Off : Word
  oar2Off : Word
  drOff : Word
  sr1Off : Word
  sr2Off : Word
  ccrOff : Word
  triseOff : Word
  /-- CR1 bit positions (R21). -/
  peBit : Fin 16
  startBit : Fin 16
  stopBit : Fin 16
  ackBit : Fin 16
  posBit : Fin 16
  /-- SR1 bit positions of the seven flags the sequencer reads (R22). -/
  sbBit : Fin 16
  addrBit : Fin 16
  btfBit : Fin 16
  rxneBit : Fin 16
  txeBit : Fin 16
  berrBit : Fin 16
  arloBit : Fin 16
  /-- The clock-control registers that hold EN and RST, as offsets in the clock-control block, and their bits
  (R25, R43). -/
  enOff : Word
  enBit : Fin 32
  rstOff : Word
  rstBit : Fin 32
  deriving DecidableEq, Repr

/-- The open parameter `REGMAP`: every named field bound to an address and a bit, for each instance its own. The
spec's rules name fields, never bits or addresses. -/
structure RegMap where
  blockA  : BlockMap
  blockB  : BlockMap
  /-- The base address of the clock-control block, which both instances share (R43). -/
  rccBase : Word
  deriving DecidableEq, Repr

/-- The binding of one instance. -/
def RegMap.block (m : RegMap) : Inst → BlockMap
  | .a => m.blockA
  | .b => m.blockB

/-- The default binding of an instance whose block is at `base` and whose clock-control fields are bit `n` (R21, R22,
R25, R41 to R43). -/
def BlockMap.default (base : Word) (n : Fin 32) : BlockMap where
  base := base
  span := 0x400
  cr1Off := 0x00
  cr2Off := 0x04
  oar1Off := 0x08
  oar2Off := 0x0C
  drOff := 0x10
  sr1Off := 0x14
  sr2Off := 0x18
  ccrOff := 0x1C
  triseOff := 0x20
  peBit := 0
  startBit := 8
  stopBit := 9
  ackBit := 10
  posBit := 11
  sbBit := 0
  addrBit := 1
  btfBit := 2
  rxneBit := 6
  txeBit := 7
  berrBit := 8
  arloBit := 9
  enOff := 0x1C
  enBit := n
  rstOff := 0x10
  rstBit := n

/-- The default binding of `REGMAP` (R41, R43). -/
def RegMap.default : RegMap where
  blockA := BlockMap.default 0x40005400 21
  blockB := BlockMap.default 0x40005800 22
  rccBase := 0x40021000

/-- The named bits of CR1 under the default binding, the ones the sequencer never writes among them; bits 2 and 14
are reserved (R21). -/
def cr1Bits : List (String × Nat) :=
  [("PE", 0), ("SMBUS", 1), ("SMBTYPE", 3), ("ENARP", 4), ("ENPEC", 5), ("ENGC", 6), ("NOSTRETCH", 7), ("START", 8),
   ("STOP", 9), ("ACK", 10), ("POS", 11), ("PEC", 12), ("ALERT", 13), ("SWRST", 15)]

/-- The named bits of SR1 under the default binding; the sequencer interprets seven of them; bits 5 and 13 are
reserved (R22). -/
def sr1Bits : List (String × Nat) :=
  [("SB", 0), ("ADDR", 1), ("BTF", 2), ("ADD10", 3), ("STOPF", 4), ("RxNE", 6), ("TxE", 7), ("BERR", 8), ("ARLO", 9),
   ("AF", 10), ("OVR", 11), ("PECERR", 12), ("TIMEOUT", 14), ("SMBALERT", 15)]

/-- The named bits of SR2 under the default binding, which the sequencer never interprets; PEC is bits 15 to 8,
listed by its lowest (R23). -/
def sr2Bits : List (String × Nat) :=
  [("MSL", 0), ("BUSY", 1), ("TRA", 2), ("GENCALL", 4), ("SMBDEFAULT", 5), ("SMBHOST", 6), ("DUALF", 7), ("PEC", 8)]

/-- The parameters of one run. `cap` is the closed set of capability facts (R71); `unmarked` lists the pins whose
alternate-function push-pull marker the host does not hold, so that `afpp p` is `p ∉ unmarked` (R73). -/
structure Config where
  cap      : List CapFact
  unmarked : List PinId
  regs     : RegMap
  deriving DecidableEq, Repr

/-- The default `CAP`: exactly six facts (R72). -/
def defaultCap : List CapFact :=
  [ ⟨0x16, .a, .scl⟩, ⟨0x17, .a, .sda⟩, ⟨0x18, .a, .scl⟩, ⟨0x19, .a, .sda⟩,
    ⟨0x1A, .b, .scl⟩, ⟨0x1B, .b, .sda⟩ ]

/-- The default parameters: R72's `CAP`, the default `REGMAP`, and `afpp p = true` for every pin, as the start state
S0 of the spec's test vectors has it. -/
def Config.default : Config where
  cap := defaultCap
  unmarked := []
  regs := RegMap.default

/-- FREE VALUE (R87, D1). What the register block of an instance answers to its `n`-th read where the state's script
of answers has run out. It has no body: nothing can be proved of its value. -/
opaque Config.oracleAnswer : Inst → Nat → Half

/-- FREE VALUE (R120, R17). The `n`-th drawn byte: the last element of a read buffer of three bytes or more, and a
prior content of a lent buffer the host did not spell out. It has no body. -/
opaque Config.freeByte : Nat → Byte

end Sys2Proof
end

