-- ==== Sys2Proof/Syntax.lean ====
section
/-! DEFINITION. The commands of the sequencer, one constructor per row of spec/opcode_table.json (R52). -/

namespace Sys2Proof

/-- A command (R52). The read buffer of WRITE_READ is an in-out operand of the host and no part of the frame (R17). -/
inductive Instr where
  /-- CONFIGURE: bind a controller to an instance (R78). -/
  | configure (inst : Inst) (scl sda : PinId) (freq clk : Word)
  /-- RELEASE: return handle and pins to the host (R83). -/
  | release (inst : Inst)
  /-- DROP: end a controller's life without returning anything (R85). -/
  | drop (inst : Inst)
  /-- WRITE: START, address, data bytes, STOP (R98). -/
  | write (inst : Inst) (addr : BitVec 7) (wb : List Byte)
  /-- WRITE_READ: a whole write phase, then reception of `rlen` bytes (R109). -/
  | writeRead (inst : Inst) (addr : BitVec 7) (wb : List Byte) (rlen : Nat)
  deriving DecidableEq, Repr

/-- The instance a command names. -/
def Instr.inst : Instr → Inst
  | .configure i _ _ _ _ => i
  | .release i => i
  | .drop i => i
  | .write i _ _ => i
  | .writeRead i _ _ _ => i

end Sys2Proof
end

