-- ==== Sys2Proof/WellFormed.lean ====
section
/-! DEFINITION. Which commands can be spelled (R6, R52) and the elaboration-time capability check of CONFIGURE
(R70 to R76). -/

namespace Sys2Proof

/-- `MAX_WLEN` and `MAX_RLEN` (R6). -/
def maxLen : Nat := 65535

/-- The bounds of R52: a command whose lengths fit their 16-bit fields. -/
def Instr.wf : Instr → Bool
  | .configure _ _ _ _ _ => true
  | .release _ => true
  | .drop _ => true
  | .write _ _ wb => decide (wb.length ≤ maxLen)
  | .writeRead _ _ wb rlen => decide (wb.length ≤ maxLen) && decide (rlen ≤ maxLen)

/-- `CAP(p, i, r)` (R70). -/
def Config.capHolds (c : Config) (p : PinId) (i : Inst) (r : Role) : Bool :=
  c.cap.contains ⟨p, i, r⟩

/-- `afpp(p)` (R73). -/
def Config.afpp (c : Config) (p : PinId) : Bool := !c.unmarked.contains p

/-- `CAPOK(i, scl, sda)` (R74). -/
def Config.capOk (c : Config) (i : Inst) (scl sda : PinId) : Bool :=
  c.capHolds scl i .scl && c.capHolds sda i .sda && c.afpp scl && c.afpp sda

/-- A command that passes every check made before any state is looked at: it can be spelled, and a CONFIGURE names
eligible pins (R74). -/
def Instr.admitted (c : Config) (i : Instr) : Bool :=
  i.wf &&
    match i with
    | .configure inst scl sda _ _ => c.capOk inst scl sda
    | .release _ => true
    | .drop _ => true
    | .write _ _ _ => true
    | .writeRead _ _ _ _ => true

end Sys2Proof
end

