-- ==== Sys2Proof/Machine/State.lean ====
section
/-! DEFINITION. The state of the machine as plain data (R11 to R31), the events of the port trace (R29), the labels of
the micro-programs (R19), the reasons a step can stop, and the state right after reset (R31, R142). -/

namespace Sys2Proof.Machine

/-! ### Ownership (R12, R13) -/

/-- Who owns a peripheral instance (R12): HOST, BOUND or GONE. -/
inductive Periph where
  | host
  | bound
  | gone
  deriving DecidableEq, Repr

/-- Who owns a pin (R12): HOST, BOUND(i, role) or GONE. -/
inductive PinOwner where
  | host
  | bound (inst : Inst) (role : Role)
  | gone
  deriving DecidableEq, Repr

/-- A live controller's pin pair (R13). -/
structure Controller where
  scl : PinId
  sda : PinId
  deriving DecidableEq, Repr

/-- `pin[p]` for every pin id: the pins whose owner is not HOST, by rising id; every other pin is HOST (R12, R31). -/
abbrev PinMap := List (PinId × PinOwner)

/-! ### Ports and their trace (R8, R29) -/

/-- The CR1 fields the sequencer writes (R21). -/
inductive Cr1Field where
  | pe
  | start
  | stop
  | ack
  | pos
  deriving DecidableEq, Repr

/-- The two clock-control fields of an instance (R25). -/
inductive RccField where
  | en
  | rst
  deriving DecidableEq, Repr

/-- Why SR1 is read: to poll, or as a dummy read (R29, R91). -/
inductive ReadKind where
  | poll
  | dummy
  deriving DecidableEq, Repr

/-- One event of the port trace (R29). -/
inductive Event where
  /-- `WCR1(i, f, b)`: a CR1 field write. -/
  | wcr1 (i : Inst) (f : Cr1Field) (b : Bool)
  /-- `WDR(i, v)`: a data-register write. -/
  | wdr (i : Inst) (v : Byte)
  /-- `RSR1(i, v, kind)`: a read of SR1. -/
  | rsr1 (i : Inst) (v : Half) (kind : ReadKind)
  /-- `RSR2(i, v)`: a read of SR2. -/
  | rsr2 (i : Inst) (v : Half)
  /-- `RDR(i, v)`: a data-register read. -/
  | rdr (i : Inst) (v : Byte)
  /-- `WRCC(i, f, b)`: a clock-control field write. -/
  | wrcc (i : Inst) (f : RccField) (b : Bool)
  deriving DecidableEq, Repr

/-! ### Micro-program labels (R19) -/

/-- The labels of CONFIGURE's micro-program (R80). -/
inductive ConfLabel where
  | en
  | rsts
  | rstc
  | pe
  deriving DecidableEq, Repr

/-- The labels W_START to W_STOP of the write phase (R99 to R104). -/
inductive WrLabel where
  | start
  | sb
  | addr
  | addrp
  | sr2
  | txe
  | data
  | btf
  | stop
  deriving DecidableEq, Repr

/-- The labels R_ACK1 to R_SR2, D_RXNE, D_RD and the three tails of the read phase (R111 to R120). -/
inductive RdLabel where
  | ack1
  | start
  | sb
  | addr
  | addrp
  | nack0
  | pos
  | sr1
  | sr2
  | dRxne
  | dRd
  | t1Rxne
  | t1Stop
  | t1Rd
  | t2Rxne
  | t2Btf
  | t2Stop
  | t2Rd0
  | t2Rd1
  | t3Rxne1
  | t3Btf1
  | t3Nack
  | t3Rxne2
  | t3Btf2
  | t3Stop
  | t3Rd0
  | t3Rd1
  | t3Fill
  deriving DecidableEq, Repr

/-- The label of the next micro-step of a command in flight. IDLE is no label: it is `upc` while the slot is empty. -/
inductive Label where
  | conf (l : ConfLabel)
  | wr (l : WrLabel)
  | rd (l : RdLabel)
  | done
  deriving DecidableEq, Repr

/-! ### Results and refusals (R18, R64, R132) -/

/-- The result a completed command yields (R18). -/
inductive Res where
  | ok
  | errBus
  | errArb
  deriving DecidableEq, Repr

/-- The named reasons of R132 for which a command is refused before it is accepted. -/
inductive RefuseReason where
  | badEncoding
  | addrTooWide
  | capabilityMissing (inst : Inst) (scl sda : PinId)
  | instanceNotOwned
  | pinNotOwned
  | pinsNotDistinct
  | noController
  deriving DecidableEq, Repr

/-- What the host gets back for one command it presented (R140, R141): a result and, for WRITE_READ, the read buffer;
or the named refusal. -/
inductive Reply where
  | completed (res : Res) (rb : List Byte)
  | refused (r : RefuseReason)
  deriving DecidableEq, Repr

/-! ### What the host presents (R32, R62, R140) -/

/-- A command as a front end holds it, its address a number that need not fit 7 bits (R62, R66). -/
inductive Call where
  | configure (inst : Inst) (scl sda : PinId) (freq clk : Word)
  | release (inst : Inst)
  | drop (inst : Inst)
  | write (inst : Inst) (addr : Nat) (wb : List Byte)
  | writeRead (inst : Inst) (addr : Nat) (wb : List Byte) (rlen : Nat)
  deriving DecidableEq, Repr

/-- One presentation at the host command port: a frame of words, or a command through a front end; with it the
contents of the buffer the host lends (R17), empty where the command has none. -/
inductive HostInput where
  | frame (words : List Word) (lent : List Byte)
  | call (c : Call) (lent : List Byte)
  deriving DecidableEq, Repr

/-! ### The command slot (R15 to R19) -/

/-- The command in flight: `cmd`, the operation registers of R16, the read buffer `RB` (R17) and `upc` (R19). -/
structure Slot where
  /-- The decoded command (R15). -/
  cmd     : Instr
  /-- `INST`, 1 bit. -/
  inst    : Inst
  /-- `ADDR7`, 7 bits. -/
  addr7   : BitVec 7
  /-- `WLEN`, 16 bits. -/
  wlen    : BitVec 16
  /-- `WB[0..WLEN-1]`. -/
  wb      : List Byte
  /-- `RLEN`, 16 bits (WRITE_READ). -/
  rlen    : BitVec 16
  /-- `K`, 16 bits, the loop index. -/
  k       : BitVec 16
  /-- `SCLID`, 8 bits (CONFIGURE). -/
  sclid   : PinId
  /-- `SDAID`, 8 bits (CONFIGURE). -/
  sdaid   : PinId
  /-- `INSTSEL`, 1 bit (CONFIGURE). -/
  instsel : Inst
  /-- `RB[0..RLEN-1]`, the lent read buffer (R17). -/
  rb      : List Byte
  /-- `upc`, the label of the next micro-step. -/
  upc     : Label
  deriving DecidableEq, Repr

/-! ### Per-instance state (R12, R13, R27, R28) -/

/-- The write shadow: the last value written to CR1.PE, CR1.ACK and CR1.POS since the last reset pulse (R27). -/
structure Shadow where
  pe  : Option Bool
  ack : Option Bool
  pos : Option Bool
  deriving DecidableEq, Repr

/-- The state of one instance. Instances share none of it (R14). -/
structure InstState where
  /-- `periph[i]` (R12). -/
  periph : Periph
  /-- `ctl[i]` (R13). -/
  ctl    : Option Controller
  /-- `sh[i]` (R27). -/
  sh     : Shadow
  /-- `open[i]` (R28). -/
  bracketOpen : Bool
  /-- MODEL'S OWN (log entry 3): what the oracle will answer to the next reads of this instance, next first. -/
  answers : List Half
  /-- MODEL'S OWN (log entry 3): how many reads the oracle has answered; the index of the free value. -/
  reads  : Nat
  deriving DecidableEq, Repr

/-! ### The whole state -/

/-- The state of the machine. -/
structure State where
  /-- The parameters of the run (R6, R71): no step changes them. -/
  cfg     : Config
  /-- Instance A. -/
  instA   : InstState
  /-- Instance B. -/
  instB   : InstState
  /-- `pin[p]` (R12). -/
  pins    : PinMap
  /-- The command slot: `busy = 1` exactly when it is `some` (R15); empty, `upc` is IDLE (R19). -/
  slot    : Option Slot
  /-- `res`, the result last yielded (R18). -/
  res     : Res
  /-- The refusal mark (R132). -/
  mark    : Bool
  /-- The port trace `tr`, oldest event first (R29). -/
  trace   : List Event
  /-- MODEL'S OWN (log entry 5): what the host will present, next first. -/
  host    : List HostInput
  /-- The contents of the buffer lent with the command last presented (R17). -/
  lent    : List Byte
  /-- What the host got back for each command, oldest first (R141). -/
  replies : List Reply
  /-- MODEL'S OWN (log entry 4): how many bytes have been drawn; the index of the free byte. -/
  draws   : Nat
  deriving DecidableEq, Repr

/-- Why the machine stops. The sequencer itself has no fault (R86): both names stand for states no run reaches. -/
inductive Fault where
  /-- Raised by the in-flight part of a meaning when `upc` is no label of that command's micro-program. Safe: the
  model stops where R19 rules the state out (log entry 13). -/
  | labelOutsideProgram
  /-- Raised by W_DATA, D_RD and the tails when an index lies outside `WB` or `RB`. Safe: R16 and R17 rule the state
  out (log entry 13). -/
  | bufferIndex
  deriving DecidableEq, Repr

/-- Why a command has no step at all. The spec's own refusals (R132) are no member: they leave a next state with the
refusal mark set. -/
inductive Refusal where
  /-- Raised by an arm of `exec` that has no meaning yet. Safe. -/
  | notModelled (mnemonic : String)
  /-- Raised by a meaning when another command is in flight: R15 and R140 give the host no such move. Safe: `step`
  never asks for it (log entry 12). -/
  | slotBusy
  deriving DecidableEq, Repr

/-- An instance at reset (R31). -/
def InstState.reset : InstState where
  periph := .host
  ctl := none
  sh := ⟨none, none, none⟩
  bracketOpen := false
  answers := []
  reads := 0

/-- The machine right after reset (R31, R142), with the default parameters of R6 (log entry 6). -/
def State.reset : State where
  cfg := Config.default
  instA := InstState.reset
  instB := InstState.reset
  pins := []
  slot := none
  res := .ok
  mark := false
  trace := []
  host := []
  lent := []
  replies := []
  draws := 0

end Sys2Proof.Machine
end

