-- ==== Sys2Proof/Machine/Flags.lean ====
section
/-! DEFINITION. The seven status flags the sequencer reads, all from one SR1 value, at the bits the polled instance's
binding gives them (R6, R20, R22), and the verdict of one poll read (R94, R95, R97). -/

namespace Sys2Proof.Machine

/-- The progress flags a poll can await (R94). -/
inductive Flag where
  | sb
  | addr
  | txe
  | btf
  | rxne
  deriving DecidableEq, Repr

/-- Where an instance's binding puts a progress flag in SR1 (R22). -/
def Flag.bit (m : BlockMap) : Flag → Fin 16
  | .sb => m.sbBit
  | .addr => m.addrBit
  | .txe => m.txeBit
  | .btf => m.btfBit
  | .rxne => m.rxneBit

/-- `F(v)`: the awaited flag in the value read (R94). -/
def flagSet (m : BlockMap) (f : Flag) (v : Half) : Bool := v.getLsbD (f.bit m).val

/-- `BERR(v)` (R20, R94). -/
def berrSet (m : BlockMap) (v : Half) : Bool := v.getLsbD m.berrBit.val

/-- `ARLO(v)` (R20, R94). -/
def arloSet (m : BlockMap) (v : Half) : Bool := v.getLsbD m.arloBit.val

/-- What one poll read decides (R94). -/
inductive Verdict where
  /-- BERR is set: raise Bus. -/
  | bus
  /-- ARLO is set and BERR is not: raise Arbitration. -/
  | arbitration
  /-- The awaited flag is set and neither error flag is: go on. -/
  | seen
  /-- None of the three: read again at the next step. -/
  | again
  deriving DecidableEq, Repr

/-- The verdict of a poll for `f` that read `v`: BERR before ARLO, both before the progress flag (R94, R95). -/
def pollVerdict (m : BlockMap) (f : Flag) (v : Half) : Verdict :=
  if berrSet m v then .bus
  else if arloSet m v then .arbitration
  else if flagSet m f v then .seen
  else .again

end Sys2Proof.Machine
end

