-- ==== Sys2Proof/Machine/Ops.lean ====
section
/-! DEFINITION. The named operations over the state: pins, the write shadow and ghost bit, the port primitives of R8
(R88 to R92), the polling primitive (R94), completion (R18), the abort on an error (R129) and the refusal (R132). -/

namespace Sys2Proof.Machine

/-! ### Pins (R12) -/

/-- `pin[p]`. -/
def PinMap.get : PinMap → PinId → PinOwner
  | [], _ => .host
  | (q, o) :: m, p => if q = p then o else PinMap.get m p

/-- A pin and its owner as an entry, none for a pin the host owns. -/
def PinMap.entry (p : PinId) (o : PinOwner) (m : PinMap) : PinMap :=
  match o with
  | .host => m
  | .bound i r => (p, .bound i r) :: m
  | .gone => (p, .gone) :: m

/-- `pin[p] <- o`, keeping the entries sorted and none of them HOST. -/
def PinMap.set : PinMap → PinId → PinOwner → PinMap
  | [], p, o => PinMap.entry p o []
  | (q, x) :: m, p, o =>
    if p.toNat < q.toNat then PinMap.entry p o ((q, x) :: m)
    else if p = q then PinMap.entry p o m
    else (q, x) :: PinMap.set m p o

/-- The canonical form of a pin map: ids strictly rising, no entry HOST. -/
def PinMap.wf : PinMap → Bool
  | [] => true
  | (q, x) :: m => decide (x ≠ .host) && m.all (fun e => decide (q.toNat < e.1.toNat)) && PinMap.wf m

/-! ### Instances and the slot -/

/-- The state of instance `i`. -/
def State.inst (s : State) : Inst → InstState
  | .a => s.instA
  | .b => s.instB

/-- The binding of `REGMAP` for instance `i` (R6). -/
def State.layout (s : State) (i : Inst) : BlockMap := s.cfg.regs.block i

/-- `s` with instance `i`'s state replaced. -/
def State.setInst (s : State) (i : Inst) (x : InstState) : State :=
  match i with
  | .a => { s with instA := x }
  | .b => { s with instB := x }

/-- `s` with new pin owners. -/
def State.setPins (s : State) (m : PinMap) : State := { s with pins := m }

/-- A command taken into the slot: `busy <- 1`, its registers and `upc` as in `sl` (R15, R16). -/
def State.load (s : State) (sl : Slot) : State := { s with slot := some sl }

/-- `busy` (R15). -/
def State.busy (s : State) : Bool := s.slot.isSome

/-- The 6-bit code of a label (R19). -/
def Label.code : Label → BitVec 6
  | .conf .en => 0x01
  | .conf .rsts => 0x02
  | .conf .rstc => 0x03
  | .conf .pe => 0x04
  | .wr .start => 0x08
  | .wr .sb => 0x09
  | .wr .addr => 0x0A
  | .wr .addrp => 0x0B
  | .wr .sr2 => 0x0C
  | .wr .txe => 0x0D
  | .wr .data => 0x0E
  | .wr .btf => 0x0F
  | .wr .stop => 0x10
  | .rd .ack1 => 0x18
  | .rd .start => 0x19
  | .rd .sb => 0x1A
  | .rd .addr => 0x1B
  | .rd .addrp => 0x1C
  | .rd .nack0 => 0x1D
  | .rd .pos => 0x1E
  | .rd .sr1 => 0x1F
  | .rd .sr2 => 0x20
  | .rd .dRxne => 0x21
  | .rd .dRd => 0x22
  | .rd .t1Rxne => 0x28
  | .rd .t1Stop => 0x29
  | .rd .t1Rd => 0x2A
  | .rd .t2Rxne => 0x2C
  | .rd .t2Btf => 0x2D
  | .rd .t2Stop => 0x2E
  | .rd .t2Rd0 => 0x2F
  | .rd .t2Rd1 => 0x30
  | .rd .t3Rxne1 => 0x34
  | .rd .t3Btf1 => 0x35
  | .rd .t3Nack => 0x36
  | .rd .t3Rxne2 => 0x37
  | .rd .t3Btf2 => 0x38
  | .rd .t3Stop => 0x39
  | .rd .t3Rd0 => 0x3A
  | .rd .t3Rd1 => 0x3B
  | .rd .t3Fill => 0x3C
  | .done => 0x3F

/-- `upc` as its 6-bit code: IDLE (0x00) while no command is in flight (R19). -/
def State.upc (s : State) : BitVec 6 :=
  match s.slot with
  | none => 0x00
  | some sl => sl.upc.code

/-- `upc <- l`, for the command in flight whose registers are now `sl` (R8). -/
def State.goto (s : State) (sl : Slot) (l : Label) : State := { s with slot := some { sl with upc := l } }

/-! ### Port primitives (R88 to R92) -/

/-- Append one event to the port trace (R29). -/
def State.emit (s : State) (e : Event) : State := { s with trace := s.trace ++ [e] }

/-- What a CR1 field write does to the shadow and the ghost bit of its instance (R88). -/
def InstState.noteCr1 (x : InstState) (f : Cr1Field) (b : Bool) : InstState :=
  match f with
  | .pe => { x with sh := { x.sh with pe := some b } }
  | .ack => { x with sh := { x.sh with ack := some b } }
  | .pos => { x with sh := { x.sh with pos := some b } }
  | .start => { x with bracketOpen := x.bracketOpen || b }
  | .stop => { x with bracketOpen := x.bracketOpen && !b }

/-- `PortWrite(i, CR1.f, b)` (R88). -/
def State.writeCr1 (s : State) (i : Inst) (f : Cr1Field) (b : Bool) : State :=
  (s.setInst i ((s.inst i).noteCr1 f b)).emit (.wcr1 i f b)

/-- `PortWrite(i, DR, v)` (R89). -/
def State.writeDr (s : State) (i : Inst) (v : Byte) : State := s.emit (.wdr i v)

/-- `RccWrite(i, f, b)` (R92). -/
def State.writeRcc (s : State) (i : Inst) (f : RccField) (b : Bool) : State := s.emit (.wrcc i f b)

/-- The oracle's answer to the next read of an instance: the next of its script, or a free value (R87). -/
def InstState.answer (x : InstState) (i : Inst) : Half :=
  match x.answers with
  | v :: _ => v
  | [] => Config.oracleAnswer i x.reads

/-- The instance after the oracle has answered one read. -/
def InstState.answered (x : InstState) : InstState :=
  { x with answers := x.answers.tail, reads := x.reads + 1 }

/-- `ans` for the next read of instance `i` (R86, R90). -/
def State.answer (s : State) (i : Inst) : Half := (s.inst i).answer i

/-- The state after a read of instance `i` that is recorded as `e` (R90). -/
def State.readPort (s : State) (i : Inst) (e : Event) : State := (s.setInst i (s.inst i).answered).emit e

/-- `PortRead(i, SR1)`: the state after it; its value is `s.answer i` (R90). -/
def State.readSr1 (s : State) (i : Inst) (k : ReadKind) : State := s.readPort i (.rsr1 i (s.answer i) k)

/-- `PortRead(i, SR2)`: the state after it; its value is `s.answer i` (R90). -/
def State.readSr2 (s : State) (i : Inst) : State := s.readPort i (.rsr2 i (s.answer i))

/-- The value of `PortRead(i, DR)`: the low 8 bits of the answer (R36, R90). -/
def State.drValue (s : State) (i : Inst) : Byte := (s.answer i).setWidth 8

/-- `PortRead(i, DR)`: the state after it (R90). -/
def State.readDr (s : State) (i : Inst) : State := s.readPort i (.rdr i (s.drValue i))

/-- `draw()`: the drawn byte (R8, R120). -/
def State.drawn (s : State) : Byte := Config.freeByte s.draws

/-- The state after `n` bytes are drawn. -/
def State.drew (s : State) (n : Nat) : State := { s with draws := s.draws + n }

/-! ### Results, errors, refusals -/

/-- A command that never entered the slot yields its result at once: `res <- r` (R83, R85). -/
def State.yieldNow (s : State) (r : Res) : State :=
  { s with res := r, replies := s.replies ++ [.completed r []] }

/-- The command in flight ends with result `r` and hands its buffer back: `res <- r; busy <- 0; upc <- IDLE`
(R18, R86). -/
def State.finish (s : State) (r : Res) (rb : List Byte) : State :=
  { s with slot := none, res := r, replies := s.replies ++ [.completed r rb] }

/-- `DONE`: complete the command, yield OK (R86). -/
def State.complete (s : State) (sl : Slot) : State := s.finish .ok sl.rb

/-- The abort on an error, the one operation every poll raises through (R129): the result is the error's code, the
slot is freed, nothing else changes, no STOP is issued. -/
def State.abort (s : State) (sl : Slot) (r : Res) : State := s.finish r sl.rb

/-- A refused command: the refusal mark is set and the reason reported; nothing else changes (R132). -/
def State.refuse (s : State) (r : RefuseReason) : State :=
  { s with mark := true, replies := s.replies ++ [.refused r] }

/-- `pollUntil(i, f)` at a poll label: one SR1 read, and then Bus, Arbitration, the successor label, or the same
label again (R94). `i` is the command's `INST`. -/
def State.poll (s : State) (sl : Slot) (f : Flag) (next : Label) : State :=
  let s' := s.readSr1 sl.inst .poll
  match pollVerdict (s.layout sl.inst) f (s.answer sl.inst) with
  | .bus => s'.abort sl .errBus
  | .arbitration => s'.abort sl .errArb
  | .seen => s'.goto sl next
  | .again => s'.goto sl sl.upc

/-! ### What the trace shows (R27 to R30, R64) -/

/-- The control trace: the port trace without its poll reads (R30). -/
def controlTrace (tr : List Event) : List Event :=
  tr.filter fun e =>
    match e with
    | .rsr1 _ _ .poll => false
    | _ => true

/-- The 32-bit result word: CODE in bits 1 to 0 (R64). -/
def Res.word : Res → Word
  | .ok => 0
  | .errBus => 1
  | .errArb => 2

end Sys2Proof.Machine
end

