-- ==== Sys2Proof/Machine/Operands.lean ====
section
/-! DEFINITION. Operands of the micro-steps: the address byte (R93), the data byte `WB[K]` (R102), stores into the
read buffer (R117 to R120), the lent buffer (R17), and how each command fills the operation registers (R16). -/

namespace Sys2Proof.Machine

/-- `addrbyte(a, rw)`: bits 7 to 1 are the target address, bit 0 the direction, 1 for a read (R93). -/
def addrByte (a : BitVec 7) (read : Bool) : Byte := a ++ (BitVec.ofBool read)

/-- `RB[n] <- v`; `none` if the buffer has no element `n` (R8). -/
def storeRb (rb : List Byte) (n : Nat) (v : Byte) : Option (List Byte) :=
  if n < rb.length then some (rb.set n v) else none

/-- A lent buffer as `n` bytes: the contents the host spelled out, then free bytes numbered from `d` (R17). -/
def lentBuffer : Nat → List Byte → Nat → List Byte
  | 0, _, _ => []
  | n + 1, b :: bs, d => b :: lentBuffer n bs d
  | n + 1, [], d => Config.freeByte d :: lentBuffer n [] (d + 1)

/-- The slot at acceptance of CONFIGURE (R16, R80). Registers this command does not load are 0 or empty (log
entry 8). -/
def configureSlot (i : Inst) (scl sda : PinId) (freq clk : Word) : Slot where
  cmd := .configure i scl sda freq clk
  inst := i
  addr7 := 0
  wlen := 0
  wb := []
  rlen := 0
  k := 0
  sclid := scl
  sdaid := sda
  instsel := i
  rb := []
  upc := .conf .en

/-- The slot at acceptance of WRITE (R16, R98). Registers this command does not load are 0 (log entry 8). -/
def writeSlot (i : Inst) (addr : BitVec 7) (wb : List Byte) : Slot where
  cmd := .write i addr wb
  inst := i
  addr7 := addr
  wlen := BitVec.ofNat 16 wb.length
  wb := wb
  rlen := 0
  k := 0
  sclid := 0
  sdaid := 0
  instsel := .a
  rb := []
  upc := .wr .start

/-- The slot at acceptance of WRITE_READ with read buffer `rb` (R16, R17, R109). Registers this command does not load
are 0 (log entry 8). -/
def writeReadSlot (i : Inst) (addr : BitVec 7) (wb : List Byte) (rlen : Nat) (rb : List Byte) : Slot where
  cmd := .writeRead i addr wb rlen
  inst := i
  addr7 := addr
  wlen := BitVec.ofNat 16 wb.length
  wb := wb
  rlen := BitVec.ofNat 16 rlen
  k := 0
  sclid := 0
  sdaid := 0
  instsel := .a
  rb := rb
  upc := .wr .start

end Sys2Proof.Machine
end

