-- ==== Sys2Proof/Machine/Construction.lean ====
section
/-! DEFINITION. CONFIGURE, RELEASE and DROP (R78 to R85). A meaning takes its command one step further: it accepts or
refuses it while the slot is empty, and performs its next micro-step while it is in flight (R86). -/

namespace Sys2Proof.Machine

/-! ### CONFIGURE -/

/-- The first failing acceptance check of CONFIGURE, in the order of R79. -/
def configureRefusal (i : Inst) (scl sda : PinId) (s : State) : Option RefuseReason :=
  if s.cfg.capOk i scl sda = false then some (.capabilityMissing i scl sda)
  else if (s.inst i).periph ≠ .host then some .instanceNotOwned
  else if s.pins.get scl ≠ .host ∨ s.pins.get sda ≠ .host then some .pinNotOwned
  else if scl = sda then some .pinsNotDistinct
  else none

/-- Acceptance of CONFIGURE: ownership moves to the controller and the slot is loaded (R80). -/
def acceptConfigure (i : Inst) (scl sda : PinId) (freq clk : Word) (s : State) : State :=
  ((s.setInst i { s.inst i with periph := .bound, ctl := some ⟨scl, sda⟩ }).setPins
    ((s.pins.set scl (.bound i .scl)).set sda (.bound i .sda))).load (configureSlot i scl sda freq clk)

/-- One micro-step of CONFIGURE (R80). -/
def confStep (l : ConfLabel) (sl : Slot) (s : State) : State :=
  match l with
  | .en => (s.writeRcc sl.inst .en true).goto sl (.conf .rsts)
  | .rsts =>
    let s₁ := s.writeRcc sl.inst .rst true
    (s₁.setInst sl.inst { s₁.inst sl.inst with sh := ⟨none, none, none⟩ }).goto sl (.conf .rstc)
  | .rstc =>
    let s₁ := s.writeRcc sl.inst .rst false
    (s₁.setInst sl.inst { s₁.inst sl.inst with bracketOpen := false }).goto sl (.conf .pe)
  | .pe => (s.writeCr1 sl.inst .pe true).goto sl .done

/-- CONFIGURE (R78). `freq` and `clk` reach no step (R81). -/
def execConfigure (i : Inst) (scl sda : PinId) (freq clk : Word) (s : State) : Host.Outcome State Fault Refusal :=
  match s.slot with
  | none =>
    match configureRefusal i scl sda s with
    | some r => .next (s.refuse r)
    | none => .next (acceptConfigure i scl sda freq clk s)
  | some sl =>
    if sl.cmd = .configure i scl sda freq clk then
      match sl.upc with
      | .conf l => .next (confStep l sl s)
      | .done => .next (s.complete sl)
      | .wr _ => .fault .labelOutsideProgram
      | .rd _ => .fault .labelOutsideProgram
    else .refused .slotBusy

/-! ### RELEASE and DROP -/

/-- The end of a controller's life: the instance and both pins get new owners, the controller is gone, and the
command yields OK at once, with no micro-step and no port access (R83, R85). -/
def endController (i : Inst) (c : Controller) (p : Periph) (o : PinOwner) (s : State) : State :=
  ((s.setInst i { s.inst i with periph := p, ctl := none }).setPins
    ((s.pins.set c.scl o).set c.sda o)).yieldNow .ok

/-- The live controller of an instance, if `periph[i] = BOUND` (R13, R83). -/
def liveController (i : Inst) (s : State) : Option Controller :=
  if (s.inst i).periph = .bound then (s.inst i).ctl else none

/-- RELEASE (R83). -/
def execRelease (i : Inst) (s : State) : Host.Outcome State Fault Refusal :=
  match s.slot with
  | none =>
    match liveController i s with
    | some c => .next (endController i c .host .host s)
    | none => .next (s.refuse .noController)
  | some _ => .refused .slotBusy

/-- DROP (R85). -/
def execDrop (i : Inst) (s : State) : Host.Outcome State Fault Refusal :=
  match s.slot with
  | none =>
    match liveController i s with
    | some c => .next (endController i c .gone .gone s)
    | none => .next (s.refuse .noController)
  | some _ => .refused .slotBusy

end Sys2Proof.Machine
end

