-- ==== Sys2Proof/Machine/WritePhase.lean ====
section
/-! DEFINITION. WRITE and the micro-steps W_START to W_STOP it shares with WRITE_READ (R98 to R108). -/

namespace Sys2Proof.Machine

/-- The acceptance check of WRITE and WRITE_READ: a command that cannot be spelled, then an instance with no
controller (R98, R109, R132). -/
def transferRefusal (cmd : Instr) (s : State) : Option RefuseReason :=
  if cmd.wf = false then some .badEncoding
  else if (s.inst cmd.inst).periph ≠ .bound then some .noController
  else none

/-- W_DATA (R102). -/
def sendByte (sl : Slot) (s : State) : Host.Outcome State Fault Refusal :=
  match sl.wb[sl.k.toNat]? with
  | none => .fault .bufferIndex
  | some v =>
    let k := sl.k + 1
    .next ((s.writeDr sl.inst v).goto { sl with k := k } (if k < sl.wlen then .wr .txe else .wr .btf))

/-- The successor of W_STOP: DONE for WRITE, R_ACK1 for WRITE_READ (R104). -/
def afterStop (cmd : Instr) : Label :=
  match cmd with
  | .writeRead _ _ _ _ => .rd .ack1
  | .configure _ _ _ _ _ => .done
  | .release _ => .done
  | .drop _ => .done
  | .write _ _ _ => .done

/-- One micro-step of the write phase (R99 to R104). -/
def wrStep (l : WrLabel) (sl : Slot) (s : State) : Host.Outcome State Fault Refusal :=
  match l with
  | .start => .next ((s.writeCr1 sl.inst .start true).goto sl (.wr .sb))
  | .sb => .next (s.poll sl .sb (.wr .addr))
  | .addr => .next ((s.writeDr sl.inst (addrByte sl.addr7 false)).goto sl (.wr .addrp))
  | .addrp => .next (s.poll sl .addr (.wr .sr2))
  | .sr2 => .next ((s.readSr2 sl.inst).goto sl (if 0 < sl.wlen then .wr .txe else .wr .btf))
  | .txe => .next (s.poll sl .txe (.wr .data))
  | .data => sendByte sl s
  | .btf => .next (s.poll sl .btf (.wr .stop))
  | .stop => .next ((s.writeCr1 sl.inst .stop true).goto sl (afterStop sl.cmd))

/-- WRITE (R98). -/
def execWrite (i : Inst) (addr : BitVec 7) (wb : List Byte) (s : State) : Host.Outcome State Fault Refusal :=
  match s.slot with
  | none =>
    match transferRefusal (.write i addr wb) s with
    | some r => .next (s.refuse r)
    | none => .next (s.load (writeSlot i addr wb))
  | some sl =>
    if sl.cmd = .write i addr wb then
      match sl.upc with
      | .wr l => wrStep l sl s
      | .done => .next (s.complete sl)
      | .conf _ => .fault .labelOutsideProgram
      | .rd _ => .fault .labelOutsideProgram
    else .refused .slotBusy

end Sys2Proof.Machine
end

