-- ==== Sys2Proof/Machine/ReadPhase.lean ====
section
/-! DEFINITION. WRITE_READ: the write phase, then R_ACK1 to R_SR2, the drain loop and the three tails (R109 to R124). -/

namespace Sys2Proof.Machine

/-- `RB[n] <- PortRead(i, DR)`, then `next`; `k` is the loop index afterwards (R117 to R120). -/
def receive (sl : Slot) (n : Nat) (k : BitVec 16) (next : Label) (s : State) : Host.Outcome State Fault Refusal :=
  match storeRb sl.rb n (s.drValue sl.inst) with
  | none => .fault .bufferIndex
  | some rb => .next ((s.readDr sl.inst).goto { sl with rb := rb, k := k } next)

/-- T3_FILL: `RB[RLEN-1] <- draw()`, no port access (R120). -/
def fillLast (sl : Slot) (s : State) : Host.Outcome State Fault Refusal :=
  match storeRb sl.rb (sl.rlen.toNat - 3 + 2) s.drawn with
  | none => .fault .bufferIndex
  | some rb => .next ((s.drew 1).goto { sl with rb := rb } .done)

/-- The successor of R_SR2: the drain loop, one of the three tails, or DONE, by the read length (R115, R116). -/
def receptionLabel (m : Nat) : Label :=
  if m > 3 then .rd .dRxne
  else if m = 3 then .rd .t3Rxne1
  else if m = 2 then .rd .t2Rxne
  else if m = 1 then .rd .t1Rxne
  else .done

/-- One micro-step of the read phase (R111 to R120). -/
def rdStep (l : RdLabel) (sl : Slot) (s : State) : Host.Outcome State Fault Refusal :=
  let m := sl.rlen.toNat
  match l with
  | .ack1 => .next ((s.writeCr1 sl.inst .ack true).goto sl (.rd .start))
  | .start => .next ((s.writeCr1 sl.inst .start true).goto sl (.rd .sb))
  | .sb => .next (s.poll sl .sb (.rd .addr))
  | .addr => .next ((s.writeDr sl.inst (addrByte sl.addr7 true)).goto sl (.rd .addrp))
  | .addrp => .next (s.poll sl .addr (if m = 1 ∨ m = 2 then .rd .nack0 else .rd .sr1))
  | .nack0 => .next ((s.writeCr1 sl.inst .ack false).goto sl (if m = 2 then .rd .pos else .rd .sr1))
  | .pos => .next ((s.writeCr1 sl.inst .pos true).goto sl (.rd .sr1))
  | .sr1 => .next ((s.readSr1 sl.inst .dummy).goto sl (.rd .sr2))
  | .sr2 => .next ((s.readSr2 sl.inst).goto { sl with k := 0 } (receptionLabel m))
  | .dRxne => .next (s.poll sl .rxne (.rd .dRd))
  | .dRd =>
    receive sl sl.k.toNat (sl.k + 1) (if (sl.k + 1).toNat < m - 3 then .rd .dRxne else .rd .t3Rxne1) s
  | .t1Rxne => .next (s.poll sl .rxne (.rd .t1Stop))
  | .t1Stop => .next ((s.writeCr1 sl.inst .stop true).goto sl (.rd .t1Rd))
  | .t1Rd => receive sl 0 sl.k .done s
  | .t2Rxne => .next (s.poll sl .rxne (.rd .t2Btf))
  | .t2Btf => .next (s.poll sl .btf (.rd .t2Stop))
  | .t2Stop => .next ((s.writeCr1 sl.inst .stop true).goto sl (.rd .t2Rd0))
  | .t2Rd0 => receive sl 0 sl.k (.rd .t2Rd1) s
  | .t2Rd1 => receive sl 1 sl.k .done s
  | .t3Rxne1 => .next (s.poll sl .rxne (.rd .t3Btf1))
  | .t3Btf1 => .next (s.poll sl .btf (.rd .t3Nack))
  | .t3Nack => .next ((s.writeCr1 sl.inst .ack false).goto sl (.rd .t3Rxne2))
  | .t3Rxne2 => .next (s.poll sl .rxne (.rd .t3Btf2))
  | .t3Btf2 => .next (s.poll sl .btf (.rd .t3Stop))
  | .t3Stop => .next ((s.writeCr1 sl.inst .stop true).goto sl (.rd .t3Rd0))
  | .t3Rd0 => receive sl (m - 3) sl.k (.rd .t3Rd1) s
  | .t3Rd1 => receive sl (m - 3 + 1) sl.k (.rd .t3Fill) s
  | .t3Fill => fillLast sl s

/-- Acceptance of WRITE_READ: the slot is loaded, the lent buffer with it (R17, R109). -/
def acceptWriteRead (i : Inst) (addr : BitVec 7) (wb : List Byte) (rlen : Nat) (s : State) : State :=
  (s.drew rlen).load (writeReadSlot i addr wb rlen (lentBuffer rlen s.lent s.draws))

/-- WRITE_READ (R109). -/
def execWriteRead (i : Inst) (addr : BitVec 7) (wb : List Byte) (rlen : Nat) (s : State) :
    Host.Outcome State Fault Refusal :=
  match s.slot with
  | none =>
    match transferRefusal (.writeRead i addr wb rlen) s with
    | some r => .next (s.refuse r)
    | none => .next (acceptWriteRead i addr wb rlen s)
  | some sl =>
    if sl.cmd = .writeRead i addr wb rlen then
      match sl.upc with
      | .wr l => wrStep l sl s
      | .rd l => rdStep l sl s
      | .done => .next (s.complete sl)
      | .conf _ => .fault .labelOutsideProgram
    else .refused .slotBusy

end Sys2Proof.Machine
end

