-- ==== Sys2Proof/Machine/Dispatch.lean ====
section
/-! DEFINITION. One arm per command: `exec i s` takes command `i` one step further at `s`. -/

namespace Sys2Proof.Machine

def exec (i : Instr) (s : State) : Host.Outcome State Fault Refusal :=
  match i with
  | .configure inst scl sda freq clk => Sys2Proof.Machine.execConfigure inst scl sda freq clk s
  | .release inst => Sys2Proof.Machine.execRelease inst s
  | .drop inst => Sys2Proof.Machine.execDrop inst s
  | .write inst addr wb => Sys2Proof.Machine.execWrite inst addr wb s
  | .writeRead inst addr wb rlen => Sys2Proof.Machine.execWriteRead inst addr wb rlen s

end Sys2Proof.Machine
end

