-- ==== Sys2Proof/Decode.lean ====
section
/-! DEFINITION. The decoder of command frames (R53 to R65), total on any list of words, and after it the encoder,
written from the same format tables. A frame that spells no command decodes to `none`; the host port then names the
refusal BadEncoding (R63, R132). -/

namespace Sys2Proof

/-! ### Fields of the command word (R53, R55, R57, R61) -/

/-- OP, `F[0][3:0]`. -/
def opOf (f0 : Word) : BitVec 4 := f0.extractLsb' 0 4

/-- INST, `F[0][4]`. -/
def instOf (f0 : Word) : Inst := if f0.getLsbD 4 then .b else .a

/-- RSV0, `F[0][7:5]`. -/
def rsv0Of (f0 : Word) : BitVec 3 := f0.extractLsb' 5 3

/-- SCL, `F[0][15:8]`, of format C. -/
def sclOf (f0 : Word) : PinId := f0.extractLsb' 8 8

/-- SDA, `F[0][23:16]`, of format C. -/
def sdaOf (f0 : Word) : PinId := f0.extractLsb' 16 8

/-- RSV1, `F[0][31:24]`, of format C. -/
def rsv1Of (f0 : Word) : BitVec 8 := f0.extractLsb' 24 8

/-- `F[0][31:8]`, reserved in format R (R56). -/
def rsvROf (f0 : Word) : BitVec 24 := f0.extractLsb' 8 24

/-- ADDR, `F[0][14:8]`, of formats W and X. -/
def addrOf (f0 : Word) : BitVec 7 := f0.extractLsb' 8 7

/-- RSV2, `F[0][15]`, of formats W and X. -/
def rsv2Of (f0 : Word) : BitVec 1 := f0.extractLsb' 15 1

/-- WLEN, `F[0][31:16]`, of formats W and X. -/
def wlenOf (f0 : Word) : BitVec 16 := f0.extractLsb' 16 16

/-- RLEN, `F[1][15:0]`, of format X (R58). -/
def rlenOf (f1 : Word) : BitVec 16 := f1.extractLsb' 0 16

/-- RSV3, `F[1][31:16]`, of format X (R58). -/
def rsv3Of (f1 : Word) : BitVec 16 := f1.extractLsb' 16 16

/-! ### Data words (R35, R57, R59) -/

/-- Byte `j` of a data word, bits `[8j+7 : 8j]` (R35). -/
def byteOf (w : Word) (j : Nat) : Byte := w.extractLsb' (8 * j) 8

/-- A data word from its four bytes, least significant byte first (R35). -/
def wordOfBytes (b0 b1 b2 b3 : Byte) : Word := b3 ++ b2 ++ b1 ++ b0

/-- The first `n` data bytes of the words of a frame, and the words after them; `none` if a word is missing or a
padding byte is not zero (R59, R63). -/
def dataBytes : List Word → Nat → Option (List Byte × List Word)
  | ws, 0 => some ([], ws)
  | [], _ + 1 => none
  | w :: ws, 1 =>
    if byteOf w 1 = 0 ∧ byteOf w 2 = 0 ∧ byteOf w 3 = 0 then some ([byteOf w 0], ws) else none
  | w :: ws, 2 =>
    if byteOf w 2 = 0 ∧ byteOf w 3 = 0 then some ([byteOf w 0, byteOf w 1], ws) else none
  | w :: ws, 3 =>
    if byteOf w 3 = 0 then some ([byteOf w 0, byteOf w 1, byteOf w 2], ws) else none
  | w :: ws, n + 4 =>
    match dataBytes ws n with
    | some (bs, rest) => some (byteOf w 0 :: byteOf w 1 :: byteOf w 2 :: byteOf w 3 :: bs, rest)
    | none => none

/-! ### The decoder -/

/-- Format C (R55). -/
def decodeConfigure (f0 : Word) : List Word → Option (Instr × List Word)
  | f1 :: f2 :: rest =>
    if rsv1Of f0 = 0 then some (.configure (instOf f0) (sclOf f0) (sdaOf f0) f1 f2, rest) else none
  | [_] => none
  | [] => none

/-- Format W (R57). -/
def decodeWrite (f0 : Word) (rest : List Word) : Option (Instr × List Word) :=
  if rsv2Of f0 = 0 then
    match dataBytes rest (wlenOf f0).toNat with
    | some (wb, rest') => some (.write (instOf f0) (addrOf f0) wb, rest')
    | none => none
  else none

/-- Format X (R58). -/
def decodeWriteRead (f0 : Word) : List Word → Option (Instr × List Word)
  | f1 :: rest =>
    if rsv2Of f0 = 0 ∧ rsv3Of f1 = 0 then
      match dataBytes rest (wlenOf f0).toNat with
      | some (wb, rest') => some (.writeRead (instOf f0) (addrOf f0) wb (rlenOf f1).toNat, rest')
      | none => none
    else none
  | [] => none

/-- The command a frame spells and the words after it, or `none` where R63 refuses the frame. Opcodes: R54. -/
def decode : List Word → Option (Instr × List Word)
  | [] => none
  | f0 :: rest =>
    if rsv0Of f0 = 0 then
      if opOf f0 = 1 then decodeConfigure f0 rest
      else if opOf f0 = 2 then (if rsvROf f0 = 0 then some (.release (instOf f0), rest) else none)
      else if opOf f0 = 3 then decodeWrite f0 rest
      else if opOf f0 = 4 then decodeWriteRead f0 rest
      else if opOf f0 = 5 then (if rsvROf f0 = 0 then some (.drop (instOf f0), rest) else none)
      else none
    else none

/-- The number of words of a frame, told from `F[0]` alone (R60). A reserved opcode has the one word that shows it. -/
def frameLength (f0 : Word) : Nat :=
  if opOf f0 = 1 then 3
  else if opOf f0 = 3 then 1 + ((wlenOf f0).toNat + 3) / 4
  else if opOf f0 = 4 then 2 + ((wlenOf f0).toNat + 3) / 4
  else 1

/-! ### The encoder (R53 to R58) -/

/-- The INST bit of an instance (R53). -/
def instBit : Inst → BitVec 1
  | .a => 0
  | .b => 1

/-- `F[0]` of format C: RSV1, SDA, SCL, RSV0, INST, OP from the most significant field down (R55). -/
def configureWord (i : Inst) (scl sda : PinId) : Word :=
  (0 : BitVec 8) ++ sda ++ scl ++ (0 : BitVec 3) ++ instBit i ++ (1 : BitVec 4)

/-- `F[0]` of format R (R56). -/
def controlWord (op : BitVec 4) (i : Inst) : Word := (0 : BitVec 27) ++ instBit i ++ op

/-- `F[1]` of format X: RSV3, RLEN (R58). -/
def lengthWord (rlen : BitVec 16) : Word := (0 : BitVec 16) ++ rlen

/-- `F[0]` of formats W and X: WLEN, RSV2, ADDR, RSV0, INST, OP from the most significant field down (R57, R58). -/
def transferWord (op : BitVec 4) (i : Inst) (addr : BitVec 7) (wlen : BitVec 16) : Word :=
  wlen ++ (0 : BitVec 1) ++ addr ++ (0 : BitVec 3) ++ instBit i ++ op

/-- Data bytes packed four to a word, padded with zero bytes (R35, R59). -/
def packBytes : List Byte → List Word
  | [] => []
  | [b0] => [wordOfBytes b0 0 0 0]
  | [b0, b1] => [wordOfBytes b0 b1 0 0]
  | [b0, b1, b2] => [wordOfBytes b0 b1 b2 0]
  | b0 :: b1 :: b2 :: b3 :: bs => wordOfBytes b0 b1 b2 b3 :: packBytes bs

/-- The frame of a command (R55 to R58). -/
def encode : Instr → List Word
  | .configure i scl sda freq clk => [configureWord i scl sda, freq, clk]
  | .release i => [controlWord 2 i]
  | .drop i => [controlWord 5 i]
  | .write i addr wb => transferWord 3 i addr (BitVec.ofNat 16 wb.length) :: packBytes wb
  | .writeRead i addr wb rlen =>
    transferWord 4 i addr (BitVec.ofNat 16 wb.length) :: lengthWord (BitVec.ofNat 16 rlen) :: packBytes wb

/-! ### Words numbered as the opcode table numbers them -/

/-- `n` words of a number, the least significant first. -/
def wordsOfNat : Nat → Nat → List Word
  | 0, _ => []
  | n + 1, w => BitVec.ofNat 32 w :: wordsOfNat n (w / 2 ^ 32)

/-- The frame whose bits are `w`: bit 0 is bit 0 of `F[0]`, bit 32 is bit 0 of `F[1]`, and so on; every bit from
`nbits` up is 0. It has as many words as R60 gives the command, and at least as many as `nbits` covers. -/
def tableFrame (nbits w : Nat) : List Word :=
  wordsOfNat (max (frameLength (BitVec.ofNat 32 (w % 2 ^ nbits))) ((nbits + 31) / 32)) (w % 2 ^ nbits)

/-- What the decoder reads from the instruction whose bits are `w`. -/
def decodeTableWord (nbits w : Nat) : Option Instr :=
  (decode (tableFrame nbits w)).map Prod.fst

end Sys2Proof
end

