-- ==== Sys2Proof/Machine/HostPort.lean ====
section
/-! DEFINITION. The host command port: what an idle sequencer takes from the host (R15, R32, R140), the front end that
holds an address as a wider number (R62), and the refusals made before a command is known (R63, R132). -/

namespace Sys2Proof.Machine

/-- The command a front end holds: lengths that no frame can carry spell no command (R6, D15), and an address of
0x80 or more is refused, never truncated (R62). The order is that of D29. -/
def Call.transfer (addr : Nat) (cmd : BitVec 7 → Instr) : Except RefuseReason Instr :=
  if (cmd 0).wf = false then .error .badEncoding
  else if addr < 0x80 then .ok (cmd (BitVec.ofNat 7 addr))
  else .error .addrTooWide

/-- The command of a front-end call, or the named refusal (R62). -/
def Call.toInstr : Call → Except RefuseReason Instr
  | .configure i scl sda freq clk => .ok (.configure i scl sda freq clk)
  | .release i => .ok (.release i)
  | .drop i => .ok (.drop i)
  | .write i addr wb => Call.transfer addr fun a => .write i a wb
  | .writeRead i addr wb rlen => Call.transfer addr fun a => .writeRead i a wb rlen

/-- What the host's next presentation comes to: a command, or the reason it is refused before acceptance. Words of a
frame beyond those R60 counts are not looked at (log entry 9). -/
def HostInput.command : HostInput → Except RefuseReason Instr
  | .frame ws _ =>
    match decode ws with
    | some (i, _) => .ok i
    | none => .error .badEncoding
  | .call c _ => c.toInstr

/-- The buffer contents lent with a presentation (R17). -/
def HostInput.lent : HostInput → List Byte
  | .frame _ rb => rb
  | .call _ rb => rb

/-- The state after presentation `h` is taken from the port and `hs` remains. -/
def State.took (s : State) (h : HostInput) (hs : List HostInput) : State := { s with host := hs, lent := h.lent }

/-- The host's next presentation taken from the port, with the state after it is taken; `none` when the host presents
nothing (R141). -/
def takeInput (s : State) : Option (Except RefuseReason Instr × State) :=
  match s.host with
  | [] => none
  | h :: hs => some (h.command, s.took h hs)

/-- `s` with `ws` as the host's next presentation and the slot free, so that the next step takes it. -/
def placeFrame (s : State) (ws : List Word) : State :=
  { s with host := .frame ws [] :: s.host, slot := none }

end Sys2Proof.Machine
end

