-- ==== Sys2Proof/Machine/Step.lean ====
section
/-! DEFINITION. One step (R86): the next micro-step of the command in flight; with the slot empty, the command the host
presents; and with nothing presented, no change (R141, R142). -/

namespace Sys2Proof.Machine

/-- One step of the machine. -/
def step (s : State) : Host.Outcome State Fault Refusal :=
  match s.slot with
  | some sl => exec sl.cmd s
  | none =>
    match takeInput s with
    | none => .next s
    | some (.ok i, s') => exec i s'
    | some (.error r, s') => .next (s'.refuse r)

/-- `s` with the command whose bits are `w` presented next, numbered as the opcode table numbers them. -/
def State.withFetchWord (s : State) (nbits w : Nat) : State := placeFrame s (tableFrame nbits w)

end Sys2Proof.Machine
end

