-- ==== Sys2Proof/Machine/Assembler.lean ====
section
/-! DEFINITION. The textual form of a command (R66), read from the characters of one line into a front-end call, whose
address check is R62's. A line that is not of R66's form gives `none`: no command, and nothing presented to the
sequencer (log entries 10 and 21). -/

namespace Sys2Proof.Machine

/-- What a line is made of. -/
inductive Token where
  | word (cs : List Char)
  | comma
  | openBracket
  | closeBracket
  deriving DecidableEq, Repr

/-- The tokens so far with a finished word, if there is one. -/
def flushWord : List Char → List Token → List Token
  | [], ts => ts
  | c :: cs, ts => .word (c :: cs) :: ts

/-- The tokens of a line; `acc` holds the characters of the word being read, last first. -/
def tokenize : List Char → List Char → List Token
  | [], acc => flushWord acc.reverse []
  | c :: cs, acc =>
    if c = ' ' then flushWord acc.reverse (tokenize cs [])
    else if c = ',' then flushWord acc.reverse (.comma :: tokenize cs [])
    else if c = '[' then flushWord acc.reverse (.openBracket :: tokenize cs [])
    else if c = ']' then flushWord acc.reverse (.closeBracket :: tokenize cs [])
    else tokenize cs (c :: acc)

/-- The value of a digit below `base`. -/
def digitValue (base : Nat) (c : Char) : Option Nat :=
  let n := c.toNat
  let d :=
    if 48 ≤ n ∧ n ≤ 57 then n - 48
    else if 65 ≤ n ∧ n ≤ 70 then n - 55
    else if 97 ≤ n ∧ n ≤ 102 then n - 87
    else base
  if d < base then some d else none

/-- The number a row of digits spells, after `acc`. -/
def digits (base : Nat) : List Char → Nat → Option Nat
  | [], acc => some acc
  | c :: cs, acc =>
    match digitValue base c with
    | some d => digits base cs (acc * base + d)
    | none => none

/-- A number: `0x` hexadecimal, `0b` binary, otherwise decimal (R7). -/
def parseNumber : List Char → Option Nat
  | [] => none
  | '0' :: 'x' :: c :: cs => digits 16 (c :: cs) 0
  | '0' :: 'b' :: c :: cs => digits 2 (c :: cs) 0
  | c :: cs => digits 10 (c :: cs) 0

/-- `A` or `B` (R66). -/
def parseInst (cs : List Char) : Option Inst :=
  if cs = ['A'] then some .a else if cs = ['B'] then some .b else none

/-- `P`, a port letter A to P, and a decimal number 0 to 15 (R66). -/
def parsePin : List Char → Option PinId
  | 'P' :: l :: d :: ds =>
    match digits 10 (d :: ds) 0 with
    | some n => if 65 ≤ l.toNat ∧ l.toNat ≤ 80 ∧ n ≤ 15 then some (pinId (l.toNat - 65) n) else none
    | none => none
  | _ => none

/-- A number below `bound`. -/
def parseBelow (bound : Nat) (cs : List Char) : Option Nat :=
  match parseNumber cs with
  | some n => if n < bound then some n else none
  | none => none

/-- The rest of a data list after its `[`, and the tokens after its `]`; `first` says that no byte has been read. -/
def parseBytes : Bool → List Token → Option (List Byte × List Token)
  | true, .closeBracket :: ts => some ([], ts)
  | _, .word cs :: .closeBracket :: ts =>
    match parseBelow 0x100 cs with
    | some n => some ([BitVec.ofNat 8 n], ts)
    | none => none
  | _, .word cs :: .comma :: ts =>
    match parseBelow 0x100 cs, parseBytes false ts with
    | some n, some (bs, rest) => some (BitVec.ofNat 8 n :: bs, rest)
    | _, _ => none
  | _, _ => none

/-- The operands of CONFIGURE. R66 gives `<freq>` and `<clk>` no bound; DESIGN CHOICE (log entry 21): one of 2^32 or
more fits no operand (R61) and the line gives no command, so nothing is presented and no refusal mark is set. -/
def parseConfigure : List Token → Option Call
  | [.word i, .comma, .word p, .comma, .word q, .comma, .word f, .comma, .word c] =>
    match parseInst i, parsePin p, parsePin q, parseBelow (2 ^ 32) f, parseBelow (2 ^ 32) c with
    | some i, some p, some q, some f, some c =>
      some (.configure i p q (BitVec.ofNat 32 f) (BitVec.ofNat 32 c))
    | _, _, _, _, _ => none
  | _ => none

/-- The one operand of RELEASE and DROP. -/
def parseOneInst : List Token → Option Inst
  | [.word i] => parseInst i
  | _ => none

/-- The operands WRITE and WRITE_READ share, and the tokens after them. -/
def parseTransfer : List Token → Option (Inst × Nat × List Byte × List Token)
  | .word i :: .comma :: .word a :: .comma :: .openBracket :: ts =>
    match parseInst i, parseNumber a, parseBytes true ts with
    | some i, some a, some (bs, rest) => some (i, a, bs, rest)
    | _, _, _ => none
  | _ => none

/-- The operands of WRITE. -/
def parseWrite (ts : List Token) : Option Call :=
  match parseTransfer ts with
  | some (i, a, bs, []) => some (.write i a bs)
  | _ => none

/-- The operands of WRITE_READ. -/
def parseWriteRead (ts : List Token) : Option Call :=
  match parseTransfer ts with
  | some (i, a, bs, [.comma, .word m]) => (parseNumber m).map fun m => .writeRead i a bs m
  | _ => none

/-- The command of one line (R66). -/
def parseLine (line : List Char) : Option Call :=
  match tokenize line [] with
  | .word op :: ts =>
    if op = "CONFIGURE".toList then parseConfigure ts
    else if op = "RELEASE".toList then (parseOneInst ts).map .release
    else if op = "DROP".toList then (parseOneInst ts).map .drop
    else if op = "WRITE".toList then parseWrite ts
    else if op = "WRITE_READ".toList then parseWriteRead ts
    else none
  | _ => none

end Sys2Proof.Machine
end

