-- ==== Sys2Proof/Machine/Bus.lean ====
section
/-! DEFINITION. The register words behind the trace's events under a binding of `REGMAP` (R21 to R25, R36, R37, R41 to
R43). No step reads this view: the rules of the sequencer name fields (R41). -/

namespace Sys2Proof

/-- The offset of a register in a block (R42). -/
def BlockMap.offset (m : BlockMap) : BlockReg → Word
  | .cr1 => m.cr1Off
  | .cr2 => m.cr2Off
  | .oar1 => m.oar1Off
  | .oar2 => m.oar2Off
  | .dr => m.drOff
  | .sr1 => m.sr1Off
  | .sr2 => m.sr2Off
  | .ccr => m.ccrOff
  | .trise => m.triseOff

/-- The address of a register of a block (R41, R42). -/
def BlockMap.addr (m : BlockMap) (r : BlockReg) : Word := m.base + m.offset r

/-- Does an address lie in a block (R41)? -/
def BlockMap.contains (m : BlockMap) (a : Word) : Bool :=
  decide (m.base.toNat ≤ a.toNat) && decide (a.toNat < m.base.toNat + m.span)

end Sys2Proof

namespace Sys2Proof.Machine

/-- One access at the register port: a whole-register read, a whole-register write, or one field of a register set to
a bit with every other bit preserved (R38, R39, R92). -/
inductive BusAccess where
  | read (addr : Word)
  | write (addr data : Word)
  | setField (addr : Word) (bit : Nat) (value : Bool)
  deriving DecidableEq, Repr

/-- The address an access goes to. -/
def BusAccess.addr : BusAccess → Word
  | .read a => a
  | .write a _ => a
  | .setField a _ _ => a

/-- Where an instance's binding puts a CR1 field (R21). -/
def cr1Bit (m : BlockMap) : Cr1Field → Fin 16
  | .pe => m.peBit
  | .start => m.startBit
  | .stop => m.stopBit
  | .ack => m.ackBit
  | .pos => m.posBit

/-- The address of the clock-control register that holds a field of an instance (R25, R43). -/
def rccReg (m : RegMap) (f : RccField) (i : Inst) : Word :=
  m.rccBase +
    match f with
    | .en => (m.block i).enOff
    | .rst => (m.block i).rstOff

/-- Where an instance's binding puts a clock-control field (R25, R43). -/
def rccBit (m : BlockMap) : RccField → Fin 32
  | .en => m.enBit
  | .rst => m.rstBit

/-- The instances have disjoint register blocks and disjoint clock-control fields (R14). No step rests on it: the rules
name fields, and an event names its instance. -/
def regionsDisjoint (m : RegMap) : Bool :=
  (decide (m.blockA.base.toNat + m.blockA.span ≤ m.blockB.base.toNat) ||
    decide (m.blockB.base.toNat + m.blockB.span ≤ m.blockA.base.toNat)) &&
  decide
    ([(rccReg m .en .a, rccBit m.blockA .en), (rccReg m .rst .a, rccBit m.blockA .rst),
      (rccReg m .en .b, rccBit m.blockB .en), (rccReg m .rst .b, rccBit m.blockB .rst)].Nodup)

/-- The register of the instance's block an event accesses: CR1, DR, SR1 or SR2 and no other (R32, R42); `none` for an
access to the clock-control block. -/
def Event.reg : Event → Option BlockReg
  | .wcr1 _ _ _ => some .cr1
  | .wdr _ _ => some .dr
  | .rsr1 _ _ _ => some .sr1
  | .rsr2 _ _ => some .sr2
  | .rdr _ _ => some .dr
  | .wrcc _ _ _ => none

/-- The register access an event stands for; a DR write is the byte zero-extended to the port (R36). -/
def Event.access (m : RegMap) : Event → BusAccess
  | .wcr1 i f b => .setField ((m.block i).addr .cr1) (cr1Bit (m.block i) f).val b
  | .wdr i v => .write ((m.block i).addr .dr) (v.setWidth 32)
  | .rsr1 i _ _ => .read ((m.block i).addr .sr1)
  | .rsr2 i _ => .read ((m.block i).addr .sr2)
  | .rdr i _ => .read ((m.block i).addr .dr)
  | .wrcc i f b => .setField (rccReg m f i) (rccBit (m.block i) f).val b

/-- The instance an event belongs to (R14). -/
def Event.inst : Event → Inst
  | .wcr1 i _ _ => i
  | .wdr i _ => i
  | .rsr1 i _ _ => i
  | .rsr2 i _ => i
  | .rdr i _ => i
  | .wrcc i _ _ => i

end Sys2Proof.Machine
end

