-- ==== Sys2Proof/Machine/Invariant.lean ====
section
/-! DEFINITION. The invariant of the machine: who owns what (R12, R13), what the slot may hold (R15 to R19), what the
refusal mark says (R132), and that shadow and ghost are functions of the port trace (R27, R28). -/

namespace Sys2Proof.Machine

/-! ### Ownership (R12, R13) -/

/-- The pin of a controller that plays a role. -/
def Controller.pin (c : Controller) : Role → PinId
  | .scl => c.scl
  | .sda => c.sda

/-- R13: an instance has a controller exactly when it is BOUND, and its pins are then bound to it; R12: a pin is bound
only to a live controller, in the role that controller has it. -/
def OwnershipOk (s : State) : Prop :=
  (∀ i, (s.inst i).ctl ≠ none ↔ (s.inst i).periph = .bound) ∧
  (∀ i c, (s.inst i).ctl = some c → ∀ r, s.pins.get (c.pin r) = .bound i r) ∧
  (∀ p i r, s.pins.get p = .bound i r → ∃ c, (s.inst i).ctl = some c ∧ c.pin r = p)

/-! ### The slot (R15 to R19) -/

/-- The loop index at a label of the write phase (R16, R102). -/
def WrIndexOk (l : WrLabel) (sl : Slot) : Prop :=
  match l with
  | .start => sl.k = 0
  | .sb => sl.k = 0
  | .addr => sl.k = 0
  | .addrp => sl.k = 0
  | .sr2 => sl.k = 0
  | .txe => sl.k.toNat < sl.wb.length
  | .data => sl.k.toNat < sl.wb.length
  | .btf => sl.k.toNat = sl.wb.length
  | .stop => sl.k.toNat = sl.wb.length

/-- Which read lengths reach a label of the read phase, and the loop index in the drain (R113 to R120). -/
def RdLengthOk (l : RdLabel) (sl : Slot) : Prop :=
  let m := sl.rlen.toNat
  match l with
  | .ack1 => True
  | .start => True
  | .sb => True
  | .addr => True
  | .addrp => True
  | .nack0 => m = 1 ∨ m = 2
  | .pos => m = 2
  | .sr1 => True
  | .sr2 => True
  | .dRxne => sl.k.toNat < m - 3
  | .dRd => sl.k.toNat < m - 3
  | .t1Rxne => m = 1
  | .t1Stop => m = 1
  | .t1Rd => m = 1
  | .t2Rxne => m = 2
  | .t2Btf => m = 2
  | .t2Stop => m = 2
  | .t2Rd0 => m = 2
  | .t2Rd1 => m = 2
  | .t3Rxne1 => 3 ≤ m
  | .t3Btf1 => 3 ≤ m
  | .t3Nack => 3 ≤ m
  | .t3Rxne2 => 3 ≤ m
  | .t3Btf2 => 3 ≤ m
  | .t3Stop => 3 ≤ m
  | .t3Rd0 => 3 ≤ m
  | .t3Rd1 => 3 ≤ m
  | .t3Fill => 3 ≤ m

/-- The label of the command in flight is one of its own micro-program's, at an index and a length that reach it. -/
def LabelOk (sl : Slot) : Prop :=
  match sl.cmd, sl.upc with
  | .configure _ _ _ _ _, .conf _ => True
  | .configure _ _ _ _ _, .done => True
  | .write _ _ _, .wr l => WrIndexOk l sl
  | .write _ _ _, .done => True
  | .writeRead _ _ _ _, .wr l => WrIndexOk l sl
  | .writeRead _ _ _ _, .rd l => RdLengthOk l sl
  | .writeRead _ _ _ _, .done => True
  | _, _ => False

/-- The operation registers hold what the command loaded (R16), and the buffer has its length (R17). -/
def RegistersOk (sl : Slot) : Prop :=
  sl.inst = sl.cmd.inst ∧ sl.cmd.wf = true ∧
  match sl.cmd with
  | .configure i scl sda _ _ => sl.instsel = i ∧ sl.sclid = scl ∧ sl.sdaid = sda
  | .write _ a wb => sl.addr7 = a ∧ sl.wb = wb ∧ sl.wlen.toNat = wb.length
  | .writeRead _ a wb m =>
    sl.addr7 = a ∧ sl.wb = wb ∧ sl.wlen.toNat = wb.length ∧ sl.rlen.toNat = m ∧ sl.rb.length = m
  | .release _ => False
  | .drop _ => False

/-- A command in flight is one the sequencer can be running, on an instance that has a controller. -/
def SlotOk (s : State) : Prop :=
  ∀ sl, s.slot = some sl → RegistersOk sl ∧ LabelOk sl ∧ (s.inst sl.inst).periph = .bound

/-! ### The mark, the shadow and the ghost -/

/-- Does a reply report a refusal? -/
def Reply.isRefused : Reply → Bool
  | .completed _ _ => false
  | .refused _ => true

/-- The refusal mark is set exactly when some command has been refused (R132). -/
def MarkOk (s : State) : Prop := s.mark = s.replies.any Reply.isRefused

/-- What one event does to the last values written to CR1.PE, CR1.ACK and CR1.POS of instance `i`; setting RST begins
a reset pulse and forgets them (R27). -/
def shadowAfter (i : Inst) (sh : Shadow) (e : Event) : Shadow :=
  match e with
  | .wcr1 j .pe b => if j = i then { sh with pe := some b } else sh
  | .wcr1 j .ack b => if j = i then { sh with ack := some b } else sh
  | .wcr1 j .pos b => if j = i then { sh with pos := some b } else sh
  | .wrcc j .rst true => if j = i then ⟨none, none, none⟩ else sh
  | _ => sh

/-- The write shadow of instance `i` as the trace gives it (R27). -/
def shadowOf (i : Inst) (tr : List Event) : Shadow := tr.foldl (shadowAfter i) ⟨none, none, none⟩

/-- What one event does to "a START without a matching STOP" on instance `i`; clearing RST ends a reset pulse and
closes the bracket (R28, R80). -/
def openAfter (i : Inst) (o : Bool) (e : Event) : Bool :=
  match e with
  | .wcr1 j .start true => if j = i then true else o
  | .wcr1 j .stop true => if j = i then false else o
  | .wrcc j .rst false => if j = i then false else o
  | _ => o

/-- The ghost bit of instance `i` as the trace gives it (R28). -/
def openOf (i : Inst) (tr : List Event) : Bool := tr.foldl (openAfter i) false

/-- Shadow and ghost are functions of the port trace. -/
def GhostOk (s : State) : Prop :=
  ∀ i, (s.inst i).sh = shadowOf i s.trace ∧ (s.inst i).bracketOpen = openOf i s.trace

/-- The invariant of the machine. -/
structure Inv (s : State) : Prop where
  ownership : OwnershipOk s
  pinsWf    : s.pins.wf = true
  slot      : SlotOk s
  mark      : MarkOk s
  ghost     : GhostOk s

/-! ### The bracket along a transaction (R28, R104, R112, R118 to R121) -/

/-- Whether a START is outstanding before each micro-step; `none` where an earlier command decides it. -/
def bracketAt (sl : Slot) : Option Bool :=
  match sl.upc with
  | .conf .en => none
  | .conf .rsts => none
  | .conf .rstc => none
  | .conf .pe => some false
  | .wr .start => none
  | .wr _ => some true
  | .rd .ack1 => some false
  | .rd .start => some false
  | .rd .t1Rd => some false
  | .rd .t2Rd0 => some false
  | .rd .t2Rd1 => some false
  | .rd .t3Rd0 => some false
  | .rd .t3Rd1 => some false
  | .rd .t3Fill => some false
  | .rd _ => some true
  | .done =>
    match sl.cmd with
    | .writeRead _ _ _ m => some (m == 0)
    | .configure _ _ _ _ _ => some false
    | .release _ => some false
    | .drop _ => some false
    | .write _ _ _ => some false

/-- The ghost bit agrees with the place the command in flight has reached. -/
def BracketOk (s : State) : Prop :=
  ∀ sl, s.slot = some sl → ∀ b, bracketAt sl = some b → (s.inst sl.inst).bracketOpen = b

end Sys2Proof.Machine
end

