-- ==== Sys2Proof/Machine/Traces.lean ====
section
/-! DEFINITION. The traces the spec writes out in full: which flag each poll label awaits and where it goes (R19, R94),
the trace of a write phase (R108) and of each read phase (R124), with the oracle answers that produce them. No step
reads this file: claims compare the machine with it. -/

namespace Sys2Proof.Machine

/-! ### Poll labels (R19, R94) -/

/-- The flag a poll label awaits and its successor label; `none` at a label that is no poll. -/
def pollAt (sl : Slot) : Option (Flag × Label) :=
  match sl.upc with
  | .wr .sb => some (.sb, .wr .addr)
  | .wr .addrp => some (.addr, .wr .sr2)
  | .wr .txe => some (.txe, .wr .data)
  | .wr .btf => some (.btf, .wr .stop)
  | .rd .sb => some (.sb, .rd .addr)
  | .rd .addrp => some (.addr, if sl.rlen = 1 ∨ sl.rlen = 2 then .rd .nack0 else .rd .sr1)
  | .rd .dRxne => some (.rxne, .rd .dRd)
  | .rd .t1Rxne => some (.rxne, .rd .t1Stop)
  | .rd .t2Rxne => some (.rxne, .rd .t2Btf)
  | .rd .t2Btf => some (.btf, .rd .t2Stop)
  | .rd .t3Rxne1 => some (.rxne, .rd .t3Btf1)
  | .rd .t3Btf1 => some (.btf, .rd .t3Nack)
  | .rd .t3Rxne2 => some (.rxne, .rd .t3Btf2)
  | .rd .t3Btf2 => some (.btf, .rd .t3Stop)
  | _ => none

/-! ### The write phase (R108) -/

/-- What the oracle answers along a write phase whose polls are each satisfied at the first read. -/
structure WriteAnswers where
  sb   : Half
  addr : Half
  sr2  : Half
  txe  : List Half
  btf  : Half

/-- The answers in the order they are read. -/
def WriteAnswers.list (w : WriteAnswers) : List Half := w.sb :: w.addr :: w.sr2 :: (w.txe ++ [w.btf])

/-- W_START to W_SR2. -/
def openingTrace (i : Inst) (a : BitVec 7) (sb addr sr2 : Half) : List Event :=
  [.wcr1 i .start true, .rsr1 i sb .poll, .wdr i ((a ++ (0 : BitVec 1) : BitVec 8)), .rsr1 i addr .poll, .rsr2 i sr2]

/-- One TxE poll and one data byte after another. -/
def sentTrace (i : Inst) : List Half → List Byte → List Event
  | v :: vs, b :: bs => .rsr1 i v .poll :: .wdr i b :: sentTrace i vs bs
  | _, _ => []

/-- The full trace of a write phase (R108). -/
def writeTrace (i : Inst) (a : BitVec 7) (wb : List Byte) (w : WriteAnswers) : List Event :=
  openingTrace i a w.sb w.addr w.sr2 ++ sentTrace i w.txe wb ++ [.rsr1 i w.btf .poll, .wcr1 i .stop true]

/-! ### The read phase (R124) -/

/-- What the oracle answers from R_SB to R_SR2. -/
structure ReadAnswers where
  sb   : Half
  addr : Half
  sr1  : Half
  sr2  : Half

/-- The answers in the order they are read. -/
def ReadAnswers.list (r : ReadAnswers) : List Half := [r.sb, r.addr, r.sr1, r.sr2]

/-- The staging micro-steps of a read length (R114). -/
def stagingTrace (i : Inst) (m : Nat) : List Event :=
  if m = 1 then [.wcr1 i .ack false]
  else if m = 2 then [.wcr1 i .ack false, .wcr1 i .pos true]
  else []

/-- R_ACK1 to R_SR2 (R111 to R115). -/
def readOpeningTrace (i : Inst) (a : BitVec 7) (m : Nat) (r : ReadAnswers) : List Event :=
  [.wcr1 i .ack true, .wcr1 i .start true, .rsr1 i r.sb .poll, .wdr i ((a ++ (1 : BitVec 1) : BitVec 8)),
    .rsr1 i r.addr .poll] ++ stagingTrace i m ++ [.rsr1 i r.sr1 .dummy, .rsr2 i r.sr2]

/-- The byte a DR read of this answer yields (R36). -/
def lowByte (v : Half) : Byte := v.extractLsb' 0 8

/-- What the oracle answers along the drain loop: for each byte, the RxNE poll and the DR read. -/
abbrev DrainAnswers := List (Half × Half)

/-- The answers of a drain in the order they are read. -/
def drainList : DrainAnswers → List Half
  | [] => []
  | (v, d) :: ds => v :: d :: drainList ds

/-- The trace of a drain (R117). -/
def drainTrace (i : Inst) : DrainAnswers → List Event
  | [] => []
  | (v, d) :: ds => .rsr1 i v .poll :: .rdr i (lowByte d) :: drainTrace i ds

/-- What the oracle answers along the three-byte tail. -/
structure TailAnswers where
  rxne1 : Half
  btf1  : Half
  rxne2 : Half
  btf2  : Half
  d0    : Half
  d1    : Half

/-- The answers in the order they are read. -/
def TailAnswers.list (t : TailAnswers) : List Half := [t.rxne1, t.btf1, t.rxne2, t.btf2, t.d0, t.d1]

/-- The trace of the three-byte tail: two DR reads (R120). -/
def tailTrace (i : Inst) (t : TailAnswers) : List Event :=
  [.rsr1 i t.rxne1 .poll, .rsr1 i t.btf1 .poll, .wcr1 i .ack false, .rsr1 i t.rxne2 .poll, .rsr1 i t.btf2 .poll,
    .wcr1 i .stop true, .rdr i (lowByte t.d0), .rdr i (lowByte t.d1)]

end Sys2Proof.Machine
end

