-- ==== Sys2Proof/Safety.lean ====
section
/-! DEFINITION. What counts as a safe run, in the terms claims use: no refused command (R132), no bracket the host
found open (R148), an oracle that answers a poll (R87, R146), and what one micro-step leaves alone. -/

namespace Sys2Proof.Machine

/-- No command of the run has been refused: a run that contains a refusal is one the spec makes no claim about
(R132). -/
def Unrefused (s : State) : Prop := s.mark = false

/-- The host's obligation before a transaction on instance `i`: the bus is not left inside a bracket (R148). -/
def BusIdle (s : State) (i : Inst) : Prop := (s.inst i).bracketOpen = false

/-- The sequencer waits for the host. -/
def Idle (s : State) : Prop := s.slot = none

/-- `sl` is in flight, its registers and its label as a run has them (R15 to R19). -/
def InFlight (s : State) (sl : Slot) : Prop := s.slot = some sl ∧ RegistersOk sl ∧ LabelOk sl

/-- Instance `i` has a controller: a transaction on it is accepted (R98, R109). -/
def Bound (s : State) (i : Inst) : Prop := (s.inst i).periph = .bound

/-! ### The oracle's part (R87) -/

/-- A value that satisfies a poll for `f`: the flag is 1 and neither error flag is (R94, R95). -/
def Satisfies (m : BlockMap) (f : Flag) (v : Half) : Prop :=
  flagSet m f v = true ∧ berrSet m v = false ∧ arloSet m v = false

/-- A value that leaves a poll for `f` where it is: the flag and both error flags are 0 (R94, R96). -/
def Pending (m : BlockMap) (f : Flag) (v : Half) : Prop :=
  flagSet m f v = false ∧ berrSet m v = false ∧ arloSet m v = false

/-- The error a value raises at any poll: Bus before Arbitration (R95, R125). -/
def errorOf (m : BlockMap) (v : Half) : Option Res :=
  if berrSet m v then some .errBus else if arloSet m v then some .errArb else none

/-- Answers that satisfy every poll of a write phase of `n` bytes at its first read. -/
def WriteAnswers.Good (m : BlockMap) (n : Nat) (w : WriteAnswers) : Prop :=
  Satisfies m .sb w.sb ∧ Satisfies m .addr w.addr ∧ w.txe.length = n ∧ (∀ v ∈ w.txe, Satisfies m .txe v) ∧
  Satisfies m .btf w.btf

/-- Answers that satisfy the two polls before the reception. -/
def ReadAnswers.Good (m : BlockMap) (r : ReadAnswers) : Prop := Satisfies m .sb r.sb ∧ Satisfies m .addr r.addr

/-- Answers that satisfy every poll of a drain. -/
def DrainGood (m : BlockMap) (ds : DrainAnswers) : Prop := ∀ e ∈ ds, Satisfies m .rxne e.1

/-- Answers that satisfy the four polls of the three-byte tail. -/
def TailAnswers.Good (m : BlockMap) (t : TailAnswers) : Prop :=
  Satisfies m .rxne t.rxne1 ∧ Satisfies m .btf t.btf1 ∧ Satisfies m .rxne t.rxne2 ∧ Satisfies m .btf t.btf2

/-! ### Frames -/

/-- What no micro-step of instance `i` touches: the other instance, pins, parameters, mark and host port. -/
def SameElsewhere (i : Inst) (s t : State) : Prop :=
  (∀ j, j ≠ i → t.inst j = s.inst j) ∧ t.pins = s.pins ∧ t.cfg = s.cfg ∧ t.mark = s.mark ∧ t.host = s.host ∧
  t.lent = s.lent

/-- The next micro-step of the command in flight completes: the slot becomes `sl'`, the trace grows by `es`, the
command's instance becomes `x`; result, replies and everything of `SameElsewhere` stay, and no byte is drawn. -/
def Performs (s : State) (sl sl' : Slot) (es : List Event) (x : InstState) : Prop :=
  ∃ t, exec sl.cmd s = .next t ∧ t.slot = some sl' ∧ t.trace = s.trace ++ es ∧ t.inst sl.inst = x ∧
    t.res = s.res ∧ t.replies = s.replies ∧ t.draws = s.draws ∧ SameElsewhere sl.inst s t

/-- The next state is the old one with the mark set and the reason `r` reported: nothing else changed (R132). -/
def RefusedWith (s t : State) (r : RefuseReason) : Prop :=
  t.mark = true ∧ t.replies = s.replies ++ [.refused r] ∧ t.slot = s.slot ∧ t.trace = s.trace ∧ t.instA = s.instA ∧
  t.instB = s.instB ∧ t.pins = s.pins ∧ t.res = s.res ∧ t.cfg = s.cfg ∧ t.host = s.host ∧ t.lent = s.lent ∧
  t.draws = s.draws

/-- A frame that spells no command: the decoder reads nothing, and a step that takes it from the host refuses it with
BadEncoding (R63, R132). -/
def SpellsNoCommand (ws : List Word) : Prop :=
  decode ws = none ∧
    ∀ (s : State) (rb : List Byte) (hs : List HostInput), Idle s → s.host = .frame ws rb :: hs →
      ∃ t, step s = .next t ∧ RefusedWith { s with host := hs, lent := rb } t .badEncoding

end Sys2Proof.Machine
end

