-- ==== Sys2Proof/Certificates/Slice0/Obligations.lean ====
section
/-! DEFINITION. The statements for the provers, from the numbered rules of spec/. -/

section

open Sys2Proof Sys2Proof.Machine

/-! ### Encoding -/

/-- Every command that can be spelled is read back from its frame, with every operand, whatever follows the frame
(R53 to R61). -/
def Obligations.EncodeDecodeRoundTrip : Prop :=
  ∀ (i : Instr) (rest : List Word), i.wf = true → decode (encode i ++ rest) = some (i, rest)

/-- The decoder reads nothing but frames the encoder writes: no reserved bit, no padding byte and no length is
dropped (R63). -/
def Obligations.DecodeReadsOnlyEncodings : Prop :=
  ∀ (ws rest : List Word) (i : Instr), decode ws = some (i, rest) → i.wf = true ∧ ws = encode i ++ rest

/-- R63: the frames that spell no command and are refused. `op` is F[0][3:0]; `n` is WLEN.
That a refusal is a next state with the mark set is the model's choice (log entry 2). -/
def Obligations.ReservedFramesSpellNoCommand : Prop :=
  ∀ (f0 : Word) (ws : List Word),
    let op := (f0.extractLsb' 0 4).toNat
    let n := (f0.extractLsb' 16 16).toNat
    let base := if op = 3 then 0 else 1
    (op = 0 ∨ 6 ≤ op → SpellsNoCommand (f0 :: ws)) ∧
    (f0.extractLsb' 5 3 ≠ 0 → SpellsNoCommand (f0 :: ws)) ∧
    (op = 1 → f0.extractLsb' 24 8 ≠ 0 → SpellsNoCommand (f0 :: ws)) ∧
    (op = 2 ∨ op = 5 → f0.extractLsb' 8 24 ≠ 0 → SpellsNoCommand (f0 :: ws)) ∧
    (op = 3 ∨ op = 4 → f0.getLsbD 15 = true → SpellsNoCommand (f0 :: ws)) ∧
    (op = 4 → ∀ f1 ws', ws = f1 :: ws' → f1.extractLsb' 16 16 ≠ 0 → SpellsNoCommand (f0 :: ws)) ∧
    (op = 3 ∨ op = 4 → ∀ (w k : Nat) (d : Word), 4 * w < n → n ≤ k → k < 4 * (w + 1) → ws[base + w]? = some d →
      d.extractLsb' (8 * (k % 4)) 8 ≠ 0 → SpellsNoCommand (f0 :: ws)) ∧
    (ws.length + 1 < (if op = 1 then 3 else if op = 3 then 1 + (n + 3) / 4 else if op = 4 then 2 + (n + 3) / 4 else 1) →
      SpellsNoCommand (f0 :: ws)) ∧
    SpellsNoCommand []

/-- R60: the length of a frame is told from F[0] alone: exactly that many words are taken, and no later word changes
what is read. -/
def Obligations.FrameLengthFromFirstWord : Prop :=
  ∀ (f0 : Word) (ws rest : List Word) (i : Instr), decode (f0 :: ws) = some (i, rest) →
    let op := (f0.extractLsb' 0 4).toNat
    let n := (f0.extractLsb' 16 16).toNat
    ∃ front, f0 :: ws = front ++ rest ∧
      ((op = 1 ∧ front.length = 3) ∨ ((op = 2 ∨ op = 5) ∧ front.length = 1) ∨
        (op = 3 ∧ front.length = 1 + (n + 3) / 4) ∨ (op = 4 ∧ front.length = 2 + (n + 3) / 4)) ∧
      ∀ rest', decode (front ++ rest') = some (i, rest')

/-- R61: where each operand of a decoded command comes from. -/
def Obligations.OperandsFromFields : Prop :=
  ∀ (f0 : Word) (ws rest : List Word) (i : Instr), decode (f0 :: ws) = some (i, rest) →
    i.inst = (if f0.getLsbD 4 = false then Inst.a else Inst.b) ∧
    match i with
    | .configure _ scl sda freq clk =>
      scl = f0.extractLsb' 8 8 ∧ sda = f0.extractLsb' 16 8 ∧ ws[0]? = some freq ∧ ws[1]? = some clk
    | .release _ => True
    | .drop _ => True
    | .write _ addr wb =>
      addr = f0.extractLsb' 8 7 ∧ wb.length = (f0.extractLsb' 16 16).toNat ∧
      ∀ k, k < wb.length → ∃ w, ws[k / 4]? = some w ∧ wb[k]? = some (w.extractLsb' (8 * (k % 4)) 8)
    | .writeRead _ addr wb rlen =>
      addr = f0.extractLsb' 8 7 ∧ wb.length = (f0.extractLsb' 16 16).toNat ∧
      (∃ w, ws[0]? = some w ∧ rlen = (w.extractLsb' 0 16).toNat) ∧
      ∀ k, k < wb.length → ∃ w, ws[1 + k / 4]? = some w ∧ wb[k]? = some (w.extractLsb' (8 * (k % 4)) 8)

/-- The opcode map (R65): the command word of every frame that is read has its row's match under its row's mask. -/
def Obligations.OpcodeMapHolds : Prop :=
  ∀ (f0 : Word) (ws rest : List Word) (i : Instr), decode (f0 :: ws) = some (i, rest) →
    match i with
    | .configure _ _ _ _ _ => f0 &&& 0xFF0000EF = 0x00000001
    | .release _ => f0 &&& 0xFFFFFFEF = 0x00000002
    | .write _ _ _ => f0 &&& 0x000080EF = 0x00000003
    | .writeRead _ _ _ _ => f0 &&& 0x000080EF = 0x00000004
    | .drop _ => f0 &&& 0xFFFFFFEF = 0x00000005

/-- Words written out from the spec's test vectors V-F1, V-F3, V-F4, V-F6, V-F9 and V-F12. -/
def Obligations.SampleFramesDecode : Prop :=
  decode [0x00171601, 0x000186A0, 0x007A1200] = some (.configure .a 0x16 0x17 100000 8000000, []) ∧
  decode [0x00000002] = some (.release .a, []) ∧
  decode [0x00000015] = some (.drop .b, []) ∧
  decode [0x00035003, 0x00302010] = some (.write .a 0x50 [0x10, 0x20, 0x30], []) ∧
  decode [0x00017F13, 0x000000FF] = some (.write .b 0x7F [0xFF], []) ∧
  decode [0x00016814, 0x00000007, 0x0000003B] = some (.writeRead .b 0x68 [0x3B] 7, [])

/-- R19: the codes of `upc` are 6-bit, one per label, none IDLE's, and `upc` shows IDLE exactly while `busy = 0`. -/
def Obligations.LabelCodesDistinct : Prop :=
  (∀ l l' : Label, l.code = l'.code → l = l') ∧ (∀ l : Label, l.code ≠ 0) ∧
  ∀ s : State, (s.upc = 0 ↔ s.busy = false)

/-- R64: the result word. -/
def Obligations.ResultWordCodes : Prop :=
  Res.ok.word = 0 ∧ Res.errBus.word = 1 ∧ Res.errArb.word = 2 ∧
  ∀ r : Res, r.word.extractLsb' 2 30 = 0 ∧ r.word.extractLsb' 0 2 ≠ 3

/-! ### Parameters, flags, operands -/

/-- R72: the default capability relation is six facts and no other. -/
def Obligations.DefaultCapabilityIsSixFacts : Prop :=
  ∀ (p : PinId) (i : Inst) (r : Role), Config.default.capHolds p i r = true ↔
    (p = 0x16 ∧ i = .a ∧ r = .scl) ∨ (p = 0x17 ∧ i = .a ∧ r = .sda) ∨ (p = 0x18 ∧ i = .a ∧ r = .scl) ∨
    (p = 0x19 ∧ i = .a ∧ r = .sda) ∨ (p = 0x1A ∧ i = .b ∧ r = .scl) ∨ (p = 0x1B ∧ i = .b ∧ r = .sda)

/-- R93: the address byte. -/
def Obligations.AddressByteIsShiftedAddress : Prop :=
  ∀ a : BitVec 7, (addrByte a false).toNat = 2 * a.toNat ∧ (addrByte a true).toNat = 2 * a.toNat + 1

/-- The verdict of one SR1 read, by the bits the polled instance's binding names: the BERR bit gives Bus; else the ARLO
bit Arbitration; else the awaited flag's own bit ends the wait; else the register is read again (R20, R22, R94, R95).
And only those three bits decide: values that agree on them have one verdict (R97). -/
def Obligations.PollIgnoresOtherBits : Prop :=
  ∀ (m : BlockMap) (f : Flag) (v : Half),
    let own : Fin 16 := match f with
      | .sb => m.sbBit
      | .addr => m.addrBit
      | .txe => m.txeBit
      | .btf => m.btfBit
      | .rxne => m.rxneBit
    (pollVerdict m f v =
      if v.getLsbD m.berrBit.val then .bus
      else if v.getLsbD m.arloBit.val then .arbitration
      else if v.getLsbD own.val then .seen
      else .again) ∧
    ∀ v' : Half,
      (∀ n : Fin 16, n = own ∨ n = m.berrBit ∨ n = m.arloBit → v.getLsbD n.val = v'.getLsbD n.val) →
      pollVerdict m f v = pollVerdict m f v'

/-! ### The polling primitive and the abort -/

/-- R94 and R95, a read that raises nothing: one SR1 read, and then the successor label if the flag is set, or the
same label if it is not. -/
def Obligations.PollReadsOnceAndGoesOn : Prop :=
  ∀ (s : State) (sl : Slot) (f : Flag) (next : Label), InFlight s sl → pollAt sl = some (f, next) →
    let v := s.answer sl.inst
    let x := (s.inst sl.inst).answered
    (Satisfies (s.layout sl.inst) f v → Performs s sl { sl with upc := next } [.rsr1 sl.inst v .poll] x) ∧
    (Pending (s.layout sl.inst) f v → Performs s sl sl [.rsr1 sl.inst v .poll] x)

/-- R129: a poll read that shows an error ends the command at that step: the result is the error's, the slot is free,
the buffer goes back as it is, the read is the last event, and nothing else changes: no STOP, no change of `sh`,
`open`, `ctl`, `periph` or `pin`. -/
def Obligations.ErrorAbortsAtOnce : Prop :=
  ∀ (s : State) (sl : Slot) (f : Flag) (next : Label) (r : Res), InFlight s sl → pollAt sl = some (f, next) →
    errorOf (s.layout sl.inst) (s.answer sl.inst) = some r →
    ∃ t, exec sl.cmd s = .next t ∧ t.slot = none ∧ t.res = r ∧ t.replies = s.replies ++ [.completed r sl.rb] ∧
      t.trace = s.trace ++ [.rsr1 sl.inst (s.answer sl.inst) .poll] ∧ t.inst sl.inst = (s.inst sl.inst).answered ∧
      t.draws = s.draws ∧ SameElsewhere sl.inst s t

/-- R96: a poll has no bound: for every number of reads that show nothing, the command is still at the same label
after as many steps, with as many more events and nothing else changed. -/
def Obligations.PollHasNoBound : Prop :=
  ∀ (s : State) (sl : Slot) (f : Flag) (next : Label) (vs rest : List Half), InFlight s sl →
    pollAt sl = some (f, next) → (s.inst sl.inst).answers = vs ++ rest → (∀ v ∈ vs, Pending (s.layout sl.inst) f v) →
    ∃ t, Host.Core.run Sys2Proof.core vs.length s = .next t ∧ t.slot = some sl ∧
      t.trace = s.trace ++ vs.map (fun v => .rsr1 sl.inst v .poll) ∧ (t.inst sl.inst).answers = rest ∧
      (t.inst sl.inst).reads = (s.inst sl.inst).reads + vs.length ∧
      (t.inst sl.inst).bracketOpen = (s.inst sl.inst).bracketOpen ∧ (t.inst sl.inst).sh = (s.inst sl.inst).sh ∧
      (t.inst sl.inst).ctl = (s.inst sl.inst).ctl ∧ (t.inst sl.inst).periph = (s.inst sl.inst).periph ∧
      t.res = s.res ∧ t.replies = s.replies ∧ t.draws = s.draws ∧ SameElsewhere sl.inst s t

/-! ### CONFIGURE, RELEASE, DROP -/

/-- R79: the acceptance checks of CONFIGURE, each with its reason, in the order the rule gives. That a refusal is a
next state with the mark set is the model's choice (log entry 2). -/
def Obligations.ConfigureRefusedByFirstFailingCheck : Prop :=
  ∀ (s : State) (i : Inst) (scl sda : PinId) (freq clk : Word), Idle s →
    let ok1 := s.cfg.capHolds scl i .scl = true ∧ s.cfg.capHolds sda i .sda = true ∧ s.cfg.afpp scl = true ∧
      s.cfg.afpp sda = true
    let ok2 := (s.inst i).periph = .host
    let ok3 := s.pins.get scl = .host ∧ s.pins.get sda = .host
    (¬ok1 → ∃ t, exec (.configure i scl sda freq clk) s = .next t ∧ RefusedWith s t (.capabilityMissing i scl sda)) ∧
    (ok1 → ¬ok2 → ∃ t, exec (.configure i scl sda freq clk) s = .next t ∧ RefusedWith s t .instanceNotOwned) ∧
    (ok1 → ok2 → ¬ok3 → ∃ t, exec (.configure i scl sda freq clk) s = .next t ∧ RefusedWith s t .pinNotOwned) ∧
    (ok1 → ok2 → ok3 → scl = sda →
      ∃ t, exec (.configure i scl sda freq clk) s = .next t ∧ RefusedWith s t .pinsNotDistinct)

/-- R80, first half: acceptance of CONFIGURE. -/
def Obligations.ConfigureTakesOwnership : Prop :=
  ∀ (s : State) (i : Inst) (scl sda : PinId) (freq clk : Word), Idle s → s.pins.wf = true →
    s.cfg.capOk i scl sda = true → (s.inst i).periph = .host → s.pins.get scl = .host → s.pins.get sda = .host →
    scl ≠ sda →
    ∃ t, exec (.configure i scl sda freq clk) s = .next t ∧
      t.inst i = { s.inst i with periph := .bound, ctl := some ⟨scl, sda⟩ } ∧
      t.pins.get scl = .bound i .scl ∧ t.pins.get sda = .bound i .sda ∧
      (∀ p, p ≠ scl → p ≠ sda → t.pins.get p = s.pins.get p) ∧ t.pins.wf = true ∧
      (∃ sl, t.slot = some sl ∧ sl.cmd = .configure i scl sda freq clk ∧ sl.inst = i ∧ sl.instsel = i ∧
        sl.sclid = scl ∧ sl.sdaid = sda ∧ sl.upc = .conf .en) ∧
      (∀ j, j ≠ i → t.inst j = s.inst j) ∧ t.trace = s.trace ∧ t.res = s.res ∧ t.replies = s.replies ∧
      t.mark = s.mark ∧ t.cfg = s.cfg ∧ t.host = s.host ∧ t.lent = s.lent ∧ t.draws = s.draws

/-- R80, second half: the four micro-steps of CONFIGURE; where in the reset pulse shadow and ghost are cleared is read
from R80 (log entry 20). -/
def Obligations.ConfigureMicroSteps : Prop :=
  ∀ (s : State) (sl : Slot), InFlight s sl →
    let x := s.inst sl.inst
    (sl.upc = .conf .en → Performs s sl { sl with upc := .conf .rsts } [.wrcc sl.inst .en true] x) ∧
    (sl.upc = .conf .rsts → Performs s sl { sl with upc := .conf .rstc } [.wrcc sl.inst .rst true]
      { x with sh := ⟨none, none, none⟩ }) ∧
    (sl.upc = .conf .rstc → Performs s sl { sl with upc := .conf .pe } [.wrcc sl.inst .rst false]
      { x with bracketOpen := false }) ∧
    (sl.upc = .conf .pe → Performs s sl { sl with upc := .done } [.wcr1 sl.inst .pe true]
      { x with sh := { x.sh with pe := some true } })

/-- R86, R18: at DONE every command yields OK, frees the slot and hands its buffer back. -/
def Obligations.DoneYieldsOk : Prop :=
  ∀ (s : State) (sl : Slot), InFlight s sl → sl.upc = .done →
    ∃ t, exec sl.cmd s = .next t ∧ t.slot = none ∧ t.res = .ok ∧ t.replies = s.replies ++ [.completed .ok sl.rb] ∧
      t.trace = s.trace ∧ t.inst sl.inst = s.inst sl.inst ∧ t.draws = s.draws ∧ SameElsewhere sl.inst s t

/-- A whole CONFIGURE: acceptance, four micro-steps and DONE; its trace is that of R78's example, no port is read, and
its result is OK (R80). -/
def Obligations.ConfigureRunsToOk : Prop :=
  ∀ (s : State) (i : Inst) (scl sda : PinId) (freq clk : Word), Idle s → s.cfg.capOk i scl sda = true →
    (s.inst i).periph = .host → s.pins.get scl = .host → s.pins.get sda = .host → scl ≠ sda →
    ∃ s₁ t, exec (.configure i scl sda freq clk) s = .next s₁ ∧ Host.Core.run Sys2Proof.core 5 s₁ = .next t ∧
      t.trace = s.trace ++ [.wrcc i .en true, .wrcc i .rst true, .wrcc i .rst false, .wcr1 i .pe true] ∧
      t.inst i = { s.inst i with
        periph := .bound, ctl := some ⟨scl, sda⟩, sh := ⟨some true, none, none⟩, bracketOpen := false } ∧
      t.slot = none ∧ t.res = .ok ∧ t.replies = s.replies ++ [.completed .ok []] ∧
      (∀ j, j ≠ i → t.inst j = s.inst j) ∧ t.mark = s.mark ∧ t.host = s.host

/-- R81: `freq` and `clk` influence no step: two CONFIGUREs that differ in them alone end in one state. -/
def Obligations.FrequencyIsIgnored : Prop :=
  ∀ (s : State) (i : Inst) (scl sda : PinId) (freq clk freq' clk' : Word), Idle s → s.cfg.capOk i scl sda = true →
    (s.inst i).periph = .host → s.pins.get scl = .host → s.pins.get sda = .host → scl ≠ sda →
    ∃ s₁ s₂ t, exec (.configure i scl sda freq clk) s = .next s₁ ∧ exec (.configure i scl sda freq' clk') s = .next s₂ ∧
      Host.Core.run Sys2Proof.core 5 s₁ = .next t ∧ Host.Core.run Sys2Proof.core 5 s₂ = .next t

/-- R83: RELEASE, of an instance with a controller and of one without (refused: log entry 2). -/
def Obligations.ReleaseReturnsHandleAndPins : Prop :=
  ∀ (s : State) (i : Inst), Idle s → s.pins.wf = true →
    (∀ c, (s.inst i).periph = .bound → (s.inst i).ctl = some c →
      ∃ t, exec (.release i) s = .next t ∧ t.inst i = { s.inst i with periph := .host, ctl := none } ∧
        t.pins.get c.scl = .host ∧ t.pins.get c.sda = .host ∧
        (∀ p, p ≠ c.scl → p ≠ c.sda → t.pins.get p = s.pins.get p) ∧ t.pins.wf = true ∧
        t.res = .ok ∧ t.replies = s.replies ++ [.completed .ok []] ∧ t.slot = none ∧ t.trace = s.trace ∧
        (∀ j, j ≠ i → t.inst j = s.inst j) ∧ t.mark = s.mark ∧ t.cfg = s.cfg ∧ t.host = s.host ∧ t.lent = s.lent ∧
        t.draws = s.draws) ∧
    ((s.inst i).periph ≠ .bound → ∃ t, exec (.release i) s = .next t ∧ RefusedWith s t .noController)

/-- R85: DROP, of an instance with a controller and of one without (refused: log entry 2). -/
def Obligations.DropLeavesHandleAndPinsGone : Prop :=
  ∀ (s : State) (i : Inst), Idle s → s.pins.wf = true →
    (∀ c, (s.inst i).periph = .bound → (s.inst i).ctl = some c →
      ∃ t, exec (.drop i) s = .next t ∧ t.inst i = { s.inst i with periph := .gone, ctl := none } ∧
        t.pins.get c.scl = .gone ∧ t.pins.get c.sda = .gone ∧
        (∀ p, p ≠ c.scl → p ≠ c.sda → t.pins.get p = s.pins.get p) ∧ t.pins.wf = true ∧
        t.res = .ok ∧ t.replies = s.replies ++ [.completed .ok []] ∧ t.slot = none ∧ t.trace = s.trace ∧
        (∀ j, j ≠ i → t.inst j = s.inst j) ∧ t.mark = s.mark ∧ t.cfg = s.cfg ∧ t.host = s.host ∧ t.lent = s.lent ∧
        t.draws = s.draws) ∧
    ((s.inst i).periph ≠ .bound → ∃ t, exec (.drop i) s = .next t ∧ RefusedWith s t .noController)

/-- R132, last row: RELEASE, DROP, WRITE and WRITE_READ of an instance that is not BOUND are refused
(a next state with the mark set: log entry 2). -/
def Obligations.NoControllerRefused : Prop :=
  ∀ (s : State) (i : Inst) (cmd : Instr), Idle s → (s.inst i).periph ≠ .bound →
    (cmd = .release i ∨ cmd = .drop i ∨ (∃ a wb, cmd = .write i a wb ∧ cmd.wf = true) ∨
      (∃ a wb m, cmd = .writeRead i a wb m ∧ cmd.wf = true)) →
    ∃ t, exec cmd s = .next t ∧ RefusedWith s t .noController

/-- R82: after RELEASE a CONFIGURE of the same instance with other eligible pins is accepted and runs all four
micro-steps again. -/
def Obligations.ReconfigureAfterRelease : Prop :=
  ∀ (s : State) (i : Inst) (c : Controller) (scl sda : PinId) (freq clk : Word), Idle s → s.pins.wf = true →
    (s.inst i).periph = .bound → (s.inst i).ctl = some c → s.cfg.capOk i scl sda = true →
    s.pins.get scl = .host → s.pins.get sda = .host → scl ≠ sda →
    ∃ s₁ s₂ t, exec (.release i) s = .next s₁ ∧ exec (.configure i scl sda freq clk) s₁ = .next s₂ ∧
      Host.Core.run Sys2Proof.core 5 s₂ = .next t ∧
      t.trace = s.trace ++ [.wrcc i .en true, .wrcc i .rst true, .wrcc i .rst false, .wcr1 i .pe true] ∧
      (t.inst i).periph = .bound ∧ (t.inst i).ctl = some ⟨scl, sda⟩ ∧ t.slot = none ∧ t.res = .ok ∧ t.mark = s.mark

/-! ### WRITE -/

/-- R98: acceptance of WRITE. -/
def Obligations.WriteLoadsTheSlot : Prop :=
  ∀ (s : State) (i : Inst) (a : BitVec 7) (wb : List Byte), Idle s → wb.length ≤ 65535 → Bound s i →
    ∃ t sl, exec (.write i a wb) s = .next t ∧ t.slot = some sl ∧ sl.cmd = .write i a wb ∧ sl.inst = i ∧
      sl.addr7 = a ∧ sl.wlen.toNat = wb.length ∧ sl.wb = wb ∧ sl.k = 0 ∧ sl.upc = .wr .start ∧
      t.trace = s.trace ∧ t.instA = s.instA ∧ t.instB = s.instB ∧ t.pins = s.pins ∧ t.res = s.res ∧
      t.replies = s.replies ∧ t.mark = s.mark ∧ t.cfg = s.cfg ∧ t.host = s.host ∧ t.lent = s.lent ∧ t.draws = s.draws

/-- The micro-steps of WRITE, and of WRITE_READ's write phase, that are no polls (R99 to R104). -/
def Obligations.WritePhaseMicroSteps : Prop :=
  ∀ (s : State) (sl : Slot), InFlight s sl →
    let x := s.inst sl.inst
    (sl.upc = .wr .start → Performs s sl { sl with upc := .wr .sb } [.wcr1 sl.inst .start true]
      { x with bracketOpen := true }) ∧
    (sl.upc = .wr .addr → Performs s sl { sl with upc := .wr .addrp }
      [.wdr sl.inst (BitVec.ofNat 8 (2 * sl.addr7.toNat))] x) ∧
    (sl.upc = .wr .sr2 → Performs s sl
      { sl with upc := if 0 < sl.wlen.toNat then .wr .txe else .wr .btf } [.rsr2 sl.inst (s.answer sl.inst)] x.answered) ∧
    (sl.upc = .wr .data → ∃ v, sl.wb[sl.k.toNat]? = some v ∧
      Performs s sl { sl with k := sl.k + 1, upc := if sl.k.toNat + 1 < sl.wlen.toNat then .wr .txe else .wr .btf }
        [.wdr sl.inst v] x) ∧
    (sl.upc = .wr .stop → Performs s sl
      { sl with upc := match sl.cmd with | .write _ _ _ => .done | _ => .rd .ack1 } [.wcr1 sl.inst .stop true]
      { x with bracketOpen := false })

/-- R108: a WRITE whose polls are each satisfied at the first read: its full trace, `4 + n` control events and
`3 + n` poll reads; its result is OK and its bracket is closed (R104, R105). -/
def Obligations.WriteRunMatchesTrace : Prop :=
  ∀ (s : State) (i : Inst) (a : BitVec 7) (wb : List Byte) (w : WriteAnswers) (rest : List Half), Idle s →
    wb.length ≤ 65535 → Bound s i → w.Good (s.layout i) wb.length → (s.inst i).answers = w.list ++ rest →
    ∃ s₁ t, exec (.write i a wb) s = .next s₁ ∧ Host.Core.run Sys2Proof.core (8 + 2 * wb.length) s₁ = .next t ∧
      t.trace = s.trace ++ writeTrace i a wb w ∧
      (controlTrace (writeTrace i a wb w)).length = 4 + wb.length ∧
      (writeTrace i a wb w).length = (4 + wb.length) + (3 + wb.length) ∧
      t.slot = none ∧ t.res = .ok ∧ t.replies = s.replies ++ [.completed .ok []] ∧
      (t.inst i).bracketOpen = false ∧ (t.inst i).sh = (s.inst i).sh ∧ (t.inst i).ctl = (s.inst i).ctl ∧
      (t.inst i).periph = .bound ∧ (t.inst i).answers = rest ∧ t.draws = s.draws ∧ SameElsewhere i s t

/-- R107: an empty WRITE makes no TxE poll and no data write; its control trace is START, address, SR2 read, STOP. -/
def Obligations.EmptyWriteControlTrace : Prop :=
  ∀ (s : State) (i : Inst) (a : BitVec 7) (vsb vaddr vsr2 vbtf : Half) (rest : List Half), Idle s → Bound s i →
    Satisfies (s.layout i) .sb vsb → Satisfies (s.layout i) .addr vaddr → Satisfies (s.layout i) .btf vbtf →
    (s.inst i).answers = vsb :: vaddr :: vsr2 :: vbtf :: rest →
    ∃ s₁ t new, exec (.write i a []) s = .next s₁ ∧ Host.Core.run Sys2Proof.core 8 s₁ = .next t ∧
      t.trace = s.trace ++ new ∧
      controlTrace new = [.wcr1 i .start true, .wdr i (BitVec.ofNat 8 (2 * a.toNat)), .rsr2 i vsr2, .wcr1 i .stop true] ∧
      new.length = 7 ∧ t.slot = none ∧ t.res = .ok

/-- R106: an error at the TxE poll for byte `n`, or at the BTF poll after all of them, leaves exactly `n` data bytes
written, no STOP, and the bracket open. -/
def Obligations.WriteErrorLeavesBytesSent : Prop :=
  ∀ (s : State) (i : Inst) (a : BitVec 7) (wb : List Byte) (vsb vaddr vsr2 verr : Half) (vs rest : List Half) (r : Res),
    Idle s → wb.length ≤ 65535 → Bound s i → vs.length ≤ wb.length →
    Satisfies (s.layout i) .sb vsb → Satisfies (s.layout i) .addr vaddr → (∀ v ∈ vs, Satisfies (s.layout i) .txe v) →
    errorOf (s.layout i) verr = some r → (s.inst i).answers = vsb :: vaddr :: vsr2 :: (vs ++ verr :: rest) →
    ∃ s₁ t, exec (.write i a wb) s = .next s₁ ∧ Host.Core.run Sys2Proof.core (6 + 2 * vs.length) s₁ = .next t ∧
      t.trace = s.trace ++ openingTrace i a vsb vaddr vsr2 ++ sentTrace i vs (wb.take vs.length) ++ [.rsr1 i verr .poll] ∧
      t.res = r ∧ t.slot = none ∧ t.replies = s.replies ++ [.completed r []] ∧ (t.inst i).bracketOpen = true ∧
      (t.inst i).ctl = (s.inst i).ctl ∧ (t.inst i).periph = .bound ∧ (t.inst i).answers = rest ∧ SameElsewhere i s t

/-- An error at the first poll of WRITE leaves no data-register write at all, and the host may present another WRITE,
which is accepted with no recovery step (R106, R130). -/
def Obligations.FirstPollErrorWritesNoData : Prop :=
  ∀ (s : State) (i : Inst) (a : BitVec 7) (wb : List Byte) (verr : Half) (rest : List Half) (r : Res), Idle s →
    wb.length ≤ 65535 → Bound s i → errorOf (s.layout i) verr = some r → (s.inst i).answers = verr :: rest →
    ∃ s₁ t u sl, exec (.write i a wb) s = .next s₁ ∧ Host.Core.run Sys2Proof.core 2 s₁ = .next t ∧
      t.trace = s.trace ++ [.wcr1 i .start true, .rsr1 i verr .poll] ∧ t.res = r ∧ t.slot = none ∧
      exec (.write i a wb) t = .next u ∧ u.slot = some sl ∧ sl.upc = .wr .start ∧ u.trace = t.trace

/-! ### WRITE_READ -/

/-- R109, R17: acceptance of WRITE_READ; the read buffer has `m` bytes and begins with what the host lent
(log entry 11). -/
def Obligations.WriteReadLoadsTheSlot : Prop :=
  ∀ (s : State) (i : Inst) (a : BitVec 7) (wb : List Byte) (m : Nat), Idle s → wb.length ≤ 65535 → m ≤ 65535 →
    Bound s i →
    ∃ t sl, exec (.writeRead i a wb m) s = .next t ∧ t.slot = some sl ∧ sl.cmd = .writeRead i a wb m ∧ sl.inst = i ∧
      sl.addr7 = a ∧ sl.wlen.toNat = wb.length ∧ sl.wb = wb ∧ sl.rlen.toNat = m ∧ sl.k = 0 ∧ sl.upc = .wr .start ∧
      sl.rb.length = m ∧ (∀ k, k < m → k < s.lent.length → sl.rb[k]? = s.lent[k]?) ∧
      t.trace = s.trace ∧ t.instA = s.instA ∧ t.instB = s.instB ∧ t.pins = s.pins ∧ t.res = s.res ∧
      t.replies = s.replies ∧ t.mark = s.mark ∧ t.cfg = s.cfg ∧ t.host = s.host ∧ t.lent = s.lent

/-- The micro-steps of the read phase before the reception that are no polls (R111 to R115): ACK, START, the address
byte with R/W = 1, the staging by length, and the two dummy reads, SR1 first. -/
def Obligations.ReadPhaseMicroSteps : Prop :=
  ∀ (s : State) (sl : Slot), InFlight s sl →
    let x := s.inst sl.inst
    let m := sl.rlen.toNat
    (sl.upc = .rd .ack1 → Performs s sl { sl with upc := .rd .start } [.wcr1 sl.inst .ack true]
      { x with sh := { x.sh with ack := some true } }) ∧
    (sl.upc = .rd .start → Performs s sl { sl with upc := .rd .sb } [.wcr1 sl.inst .start true]
      { x with bracketOpen := true }) ∧
    (sl.upc = .rd .addr → Performs s sl { sl with upc := .rd .addrp }
      [.wdr sl.inst (BitVec.ofNat 8 (2 * sl.addr7.toNat + 1))] x) ∧
    (sl.upc = .rd .nack0 → Performs s sl { sl with upc := if m = 2 then .rd .pos else .rd .sr1 }
      [.wcr1 sl.inst .ack false] { x with sh := { x.sh with ack := some false } }) ∧
    (sl.upc = .rd .pos → Performs s sl { sl with upc := .rd .sr1 } [.wcr1 sl.inst .pos true]
      { x with sh := { x.sh with pos := some true } }) ∧
    (sl.upc = .rd .sr1 → Performs s sl { sl with upc := .rd .sr2 }
      [.rsr1 sl.inst (s.answer sl.inst) .dummy] x.answered) ∧
    (sl.upc = .rd .sr2 → Performs s sl
      { sl with
        k := 0,
        upc := if m > 3 then .rd .dRxne else if m = 3 then .rd .t3Rxne1 else if m = 2 then .rd .t2Rxne
          else if m = 1 then .rd .t1Rxne else .done }
      [.rsr2 sl.inst (s.answer sl.inst)] x.answered)

/-- The micro-steps of the reception that are no polls (R117 to R120): the drain's DR read, the STOP of each tail, the
NACK of the three-byte tail, and each DR read with the element it fills. -/
def Obligations.ReceptionMicroSteps : Prop :=
  ∀ (s : State) (sl : Slot), InFlight s sl →
    let x := s.inst sl.inst
    let m := sl.rlen.toNat
    let d := lowByte (s.answer sl.inst)
    let stopped := { x with bracketOpen := false }
    let stores (n : Nat) (sl' : Slot) := n < sl.rb.length ∧
      Performs s sl { sl' with rb := sl.rb.set n d } [.rdr sl.inst d] x.answered
    (sl.upc = .rd .dRd → stores sl.k.toNat
      { sl with k := sl.k + 1, upc := if sl.k.toNat + 1 < m - 3 then .rd .dRxne else .rd .t3Rxne1 }) ∧
    (sl.upc = .rd .t1Stop → Performs s sl { sl with upc := .rd .t1Rd } [.wcr1 sl.inst .stop true] stopped) ∧
    (sl.upc = .rd .t1Rd → stores 0 { sl with upc := .done }) ∧
    (sl.upc = .rd .t2Stop → Performs s sl { sl with upc := .rd .t2Rd0 } [.wcr1 sl.inst .stop true] stopped) ∧
    (sl.upc = .rd .t2Rd0 → stores 0 { sl with upc := .rd .t2Rd1 }) ∧
    (sl.upc = .rd .t2Rd1 → stores 1 { sl with upc := .done }) ∧
    (sl.upc = .rd .t3Nack → Performs s sl { sl with upc := .rd .t3Rxne2 } [.wcr1 sl.inst .ack false]
      { x with sh := { x.sh with ack := some false } }) ∧
    (sl.upc = .rd .t3Stop → Performs s sl { sl with upc := .rd .t3Rd0 } [.wcr1 sl.inst .stop true] stopped) ∧
    (sl.upc = .rd .t3Rd0 → stores (m - 3) { sl with upc := .rd .t3Rd1 }) ∧
    (sl.upc = .rd .t3Rd1 → stores (m - 2) { sl with upc := .rd .t3Fill })

/-- R120: T3_FILL writes the last element and no other, makes no port access and no wait; nothing is said of
the byte (log entry 4). -/
def Obligations.FillDrawsTheLastElement : Prop :=
  ∀ (s : State) (sl : Slot), InFlight s sl → sl.upc = .rd .t3Fill →
    ∃ t d, exec sl.cmd s = .next t ∧ t.slot = some { sl with rb := sl.rb.set (sl.rlen.toNat - 1) d, upc := .done } ∧
      t.trace = s.trace ∧ t.inst sl.inst = s.inst sl.inst ∧ t.res = s.res ∧ t.replies = s.replies ∧
      SameElsewhere sl.inst s t

/-- R121: a zero-length WRITE_READ makes no RxNE poll, no DR read and no STOP in its read phase; it completes with OK,
the bracket open and ACK at 1. -/
def Obligations.WriteReadZeroRun : Prop :=
  ∀ (s : State) (i : Inst) (a : BitVec 7) (wb : List Byte) (w : WriteAnswers) (r : ReadAnswers) (rest : List Half),
    Idle s → wb.length ≤ 65535 → Bound s i → w.Good (s.layout i) wb.length → r.Good (s.layout i) →
    (s.inst i).answers = w.list ++ (r.list ++ rest) →
    ∃ s₁ t, exec (.writeRead i a wb 0) s = .next s₁ ∧ Host.Core.run Sys2Proof.core (15 + 2 * wb.length) s₁ = .next t ∧
      t.trace = s.trace ++ (writeTrace i a wb w ++ readOpeningTrace i a 0 r) ∧ t.slot = none ∧ t.res = .ok ∧
      t.replies = s.replies ++ [.completed .ok []] ∧ (t.inst i).bracketOpen = true ∧
      (t.inst i).sh = { (s.inst i).sh with ack := some true } ∧ (t.inst i).answers = rest ∧ (t.inst i).periph = .bound ∧
      (t.inst i).ctl = (s.inst i).ctl ∧ SameElsewhere i s t

/-- A one-byte WRITE_READ: R124's row for m = 1, and the buffer of R122. -/
def Obligations.WriteReadOneRun : Prop :=
  ∀ (s : State) (i : Inst) (a : BitVec 7) (wb : List Byte) (w : WriteAnswers) (r : ReadAnswers) (vrx d0 : Half)
    (rest : List Half), Idle s → wb.length ≤ 65535 → Bound s i → w.Good (s.layout i) wb.length → r.Good (s.layout i) →
    Satisfies (s.layout i) .rxne vrx → (s.inst i).answers = w.list ++ (r.list ++ (vrx :: d0 :: rest)) →
    ∃ s₁ t, exec (.writeRead i a wb 1) s = .next s₁ ∧ Host.Core.run Sys2Proof.core (19 + 2 * wb.length) s₁ = .next t ∧
      t.trace = s.trace ++ (writeTrace i a wb w ++ readOpeningTrace i a 1 r ++
        [.rsr1 i vrx .poll, .wcr1 i .stop true, .rdr i (lowByte d0)]) ∧ t.slot = none ∧ t.res = .ok ∧
      t.replies = s.replies ++ [.completed .ok [lowByte d0]] ∧ (t.inst i).bracketOpen = false ∧
      (t.inst i).sh = { (s.inst i).sh with ack := some false } ∧ (t.inst i).answers = rest ∧ (t.inst i).periph = .bound ∧
      (t.inst i).ctl = (s.inst i).ctl ∧ SameElsewhere i s t

/-- A two-byte WRITE_READ: R124's row for m = 2, and the buffer of R122; POS stays 1. -/
def Obligations.WriteReadTwoRun : Prop :=
  ∀ (s : State) (i : Inst) (a : BitVec 7) (wb : List Byte) (w : WriteAnswers) (r : ReadAnswers) (vrx vbtf d0 d1 : Half)
    (rest : List Half), Idle s → wb.length ≤ 65535 → Bound s i → w.Good (s.layout i) wb.length → r.Good (s.layout i) →
    Satisfies (s.layout i) .rxne vrx → Satisfies (s.layout i) .btf vbtf →
    (s.inst i).answers = w.list ++ (r.list ++ (vrx :: vbtf :: d0 :: d1 :: rest)) →
    ∃ s₁ t, exec (.writeRead i a wb 2) s = .next s₁ ∧ Host.Core.run Sys2Proof.core (22 + 2 * wb.length) s₁ = .next t ∧
      t.trace = s.trace ++ (writeTrace i a wb w ++ readOpeningTrace i a 2 r ++
        [.rsr1 i vrx .poll, .rsr1 i vbtf .poll, .wcr1 i .stop true, .rdr i (lowByte d0), .rdr i (lowByte d1)]) ∧
      t.slot = none ∧ t.res = .ok ∧
      t.replies = s.replies ++ [.completed .ok [lowByte d0, lowByte d1]] ∧ (t.inst i).bracketOpen = false ∧
      (t.inst i).sh = { (s.inst i).sh with ack := some false, pos := some true } ∧ (t.inst i).answers = rest ∧
      (t.inst i).periph = .bound ∧
      (t.inst i).ctl = (s.inst i).ctl ∧ SameElsewhere i s t

/-- A WRITE_READ of three bytes or more, `ds` the drain: R124's last two rows, and the buffer of R122, whose last
element is a drawn byte of which nothing is said. -/
def Obligations.WriteReadLongRun : Prop :=
  ∀ (s : State) (i : Inst) (a : BitVec 7) (wb : List Byte) (w : WriteAnswers) (r : ReadAnswers) (ds : DrainAnswers)
    (tl : TailAnswers) (rest : List Half), Idle s → wb.length ≤ 65535 → ds.length + 3 ≤ 65535 → Bound s i →
    w.Good (s.layout i) wb.length → r.Good (s.layout i) → DrainGood (s.layout i) ds → tl.Good (s.layout i) →
    (s.inst i).answers = w.list ++ (r.list ++ (drainList ds ++ (tl.list ++ rest))) →
    ∃ s₁ t d, exec (.writeRead i a wb (ds.length + 3)) s = .next s₁ ∧
      Host.Core.run Sys2Proof.core (24 + 2 * wb.length + 2 * ds.length) s₁ = .next t ∧
      t.trace = s.trace ++ (writeTrace i a wb w ++ readOpeningTrace i a (ds.length + 3) r ++ drainTrace i ds ++
        tailTrace i tl) ∧ t.slot = none ∧ t.res = .ok ∧
      t.replies = s.replies ++
        [.completed .ok (ds.map (fun e => lowByte e.2) ++ [lowByte tl.d0, lowByte tl.d1, d])] ∧
      (t.inst i).bracketOpen = false ∧ (t.inst i).sh = { (s.inst i).sh with ack := some false } ∧
      (t.inst i).answers = rest ∧ (t.inst i).periph = .bound ∧
      (t.inst i).ctl = (s.inst i).ctl ∧ SameElsewhere i s t

/-- R123: a poll error in the drain loop after `ds.length` bytes hands back the buffer with those bytes first and every
other element as the host lent it; no STOP is issued after the second START. -/
def Obligations.DrainErrorLeavesPartialBuffer : Prop :=
  ∀ (s : State) (i : Inst) (a : BitVec 7) (wb : List Byte) (m : Nat) (w : WriteAnswers) (r : ReadAnswers)
    (ds : DrainAnswers) (verr : Half) (rest : List Half) (e : Res), Idle s → wb.length ≤ 65535 → m ≤ 65535 →
    ds.length < m - 3 → s.lent.length = m → Bound s i → w.Good (s.layout i) wb.length → r.Good (s.layout i) →
    DrainGood (s.layout i) ds → errorOf (s.layout i) verr = some e →
    (s.inst i).answers = w.list ++ (r.list ++ (drainList ds ++ verr :: rest)) →
    ∃ s₁ t, exec (.writeRead i a wb m) s = .next s₁ ∧
      Host.Core.run Sys2Proof.core (15 + 2 * wb.length + 2 * ds.length) s₁ = .next t ∧
      t.trace = s.trace ++ (writeTrace i a wb w ++ readOpeningTrace i a m r ++ drainTrace i ds ++ [.rsr1 i verr .poll]) ∧
      t.slot = none ∧ t.res = e ∧
      t.replies = s.replies ++ [.completed e (ds.map (fun x => lowByte x.2) ++ s.lent.drop ds.length)] ∧
      (t.inst i).bracketOpen = true ∧ (t.inst i).periph = .bound ∧ (t.inst i).ctl = (s.inst i).ctl ∧
       (t.inst i).answers = rest ∧ SameElsewhere i s t

/-! ### The step and the host port -/

/-- A step runs the decoded command: with the slot free, the command the frame at the host port spells, after it is
taken from the port; with a command in flight, that command. Two things in it are the model's: words a presentation
holds after the frame (`rest`) are not looked at (log entry 9, DEDUCED), and of a list of presentations the first is
taken (log entry 5, DESIGN CHOICE). -/
def Obligations.StepRunsTheDecodedCommand : Prop :=
  (∀ (s : State) (ws rest : List Word) (rb : List Byte) (hs : List HostInput) (i : Instr), Idle s →
    s.host = .frame ws rb :: hs → decode ws = some (i, rest) → step s = exec i { s with host := hs, lent := rb }) ∧
  (∀ (s : State) (sl : Slot), s.slot = some sl → step s = exec sl.cmd s)

/-- A frame that spells no command is refused with BadEncoding: no event, no state of the sequencer changed, the mark
set (R63, R132; log entry 2). -/
def Obligations.BadFrameRefused : Prop :=
  ∀ (s : State) (ws : List Word) (rb : List Byte) (hs : List HostInput), Idle s → s.host = .frame ws rb :: hs →
    decode ws = none →
    ∃ t, step s = .next t ∧ RefusedWith { s with host := hs, lent := rb } t .badEncoding

/-- R62: a front end refuses an address of 0x80 or more rather than truncate it, and takes a smaller one whole, for
WRITE and for WRITE_READ. That a refusal is a next state with the mark set is the model's choice (log entry 2). -/
def Obligations.FrontEndRefusesWideAddress : Prop :=
  ∀ (s : State) (a : Nat) (c : Call) (rb : List Byte) (hs : List HostInput) (cmd : BitVec 7 → Instr), Idle s →
    s.host = .call c rb :: hs →
    ((∃ i wb, c = .write i a wb ∧ cmd = fun b => .write i b wb) ∨
      (∃ i wb m, c = .writeRead i a wb m ∧ cmd = fun b => .writeRead i b wb m)) →
    (∀ b, (cmd b).wf = true) →
    (0x80 ≤ a → ∃ t, step s = .next t ∧ RefusedWith { s with host := hs, lent := rb } t .addrTooWide) ∧
    (a < 0x80 → ∃ b : BitVec 7, b.toNat = a ∧ step s = exec (cmd b) { s with host := hs, lent := rb })

/-- With no command in flight and none presented a step changes nothing. This is the model's choice for the end of a
run (log entry 5). -/
def Obligations.IdleStepWaits : Prop :=
  ∀ s : State, Idle s → s.host = [] → step s = .next s

/-- Reset (R31): no owner but the host, no controller, no command, nothing written, nothing open, an empty trace. -/
def Obligations.ResetStateOfTheSequencer : Prop :=
  let s := State.reset
  (∀ i, (s.inst i).periph = .host ∧ (s.inst i).ctl = none ∧ (s.inst i).sh = ⟨none, none, none⟩ ∧
    (s.inst i).bracketOpen = false) ∧
  (∀ p, s.pins.get p = .host) ∧ s.busy = false ∧ s.upc = 0 ∧ s.trace = []

/-- The text form of R66 on the commands of the spec's test programs. -/
def Obligations.AssemblerReadsSamples : Prop :=
  parseLine "CONFIGURE A, PB6, PB7, 100000, 8000000".toList = some (.configure .a 0x16 0x17 100000 8000000) ∧
  parseLine "WRITE A, 0x50, [0x10, 0x20, 0x30]".toList = some (.write .a 0x50 [0x10, 0x20, 0x30]) ∧
  parseLine "WRITE_READ B, 0x68, [0x3B], 7".toList = some (.writeRead .b 0x68 [0x3B] 7) ∧
  parseLine "WRITE A, 0x3C, []".toList = some (.write .a 0x3C []) ∧
  parseLine "RELEASE A".toList = some (.release .a) ∧ parseLine "DROP B".toList = some (.drop .b)

/-! ### Invariants and rules over every step -/

/-- The invariant holds at reset. -/
def Obligations.ResetMeetsTheInvariant : Prop := Inv State.reset ∧ BracketOk State.reset

/-- Every step keeps the invariant: ownership (R12, R13), the canonical pin map, the slot (R15 to R19), the mark
(R132), and that shadow and ghost are functions of the trace (R27, R28). -/
def Obligations.StepKeepsTheInvariant : Prop :=
  ∀ s t : State, Inv s → step s = .next t → Inv t

/-- R86: steps never fault, and none is refused: from a state that meets the invariant a step always has a next state. -/
def Obligations.StepsNeverFault : Prop :=
  ∀ s : State, Inv s → ∃ t, step s = .next t

/-- Along every run the ghost bit agrees with the place in the transaction: a START is outstanding from W_START to the
STOP and from R_START to the tail's STOP, none at the end of a successful WRITE or of a WRITE_READ of one byte or more,
and one at the end of a WRITE_READ of none. -/
def Obligations.StepKeepsTheBracket : Prop :=
  ∀ s t : State, Inv s → BracketOk s → step s = .next t → BracketOk t

/-- The trace never shrinks, and a step makes at most one port access (R9, R29, R86). -/
def Obligations.StepAppendsAtMostOneEvent : Prop :=
  ∀ s t : State, step s = .next t → t.trace = s.trace ∨ ∃ e, t.trace = s.trace ++ [e]

/-- R14: a command on one instance touches no state of the other, and every event it makes is on its own instance. -/
def Obligations.InstancesShareNothing : Prop :=
  ∀ (s t : State) (i : Instr), (∀ sl, s.slot = some sl → sl.inst = sl.cmd.inst) → exec i s = .next t →
    (∀ j, j ≠ i.inst → t.inst j = s.inst j) ∧ ∀ e, t.trace = s.trace ++ [e] → e.inst = i.inst

/-- The operation registers are loaded at acceptance and changed by no micro-step, `K`, `upc` and the buffer apart
(R16, R33). -/
def Obligations.RegistersHeldInFlight : Prop :=
  ∀ (s t : State) (sl sl' : Slot), s.slot = some sl → step s = .next t → t.slot = some sl' →
    sl'.cmd = sl.cmd ∧ sl'.inst = sl.inst ∧ sl'.addr7 = sl.addr7 ∧ sl'.wlen = sl.wlen ∧ sl'.wb = sl.wb ∧
    sl'.rlen = sl.rlen ∧ sl'.sclid = sl.sclid ∧ sl'.sdaid = sl.sdaid ∧ sl'.instsel = sl.instsel ∧
    sl'.rb.length = sl.rb.length

/-- The refusal mark stays set for the rest of the run, and no reply is ever taken back (R132, R141; log entry
18). -/
def Obligations.MarkAndRepliesStay : Prop :=
  ∀ s t : State, step s = .next t → (s.mark = true → t.mark = true) ∧ ∃ new, t.replies = s.replies ++ new

/-- R71: no step changes the capability relation, nor any other parameter. -/
def Obligations.ParametersNeverChange : Prop :=
  ∀ s t : State, step s = .next t → t.cfg = s.cfg

/-- A dropped instance and its pins are gone for good (R85). -/
def Obligations.DroppedStaysGone : Prop :=
  ∀ s t : State, Inv s → step s = .next t →
    (∀ i, (s.inst i).periph = .gone → (t.inst i).periph = .gone ∧ (t.inst i).ctl = none) ∧
    (∀ p, s.pins.get p = .gone → t.pins.get p = .gone)

/-- R21: the sequencer writes 0 to no CR1 field but ACK. -/
def Obligations.OnlyAckIsWrittenZero : Prop :=
  ∀ (s t : State) (i : Inst) (f : Cr1Field) (b : Bool), step s = .next t → t.trace = s.trace ++ [.wcr1 i f b] →
    b = true ∨ f = .ack

/-- POS and ACK are sticky (R149): a POS written as 1 stays so until a CONFIGURE's reset pulse, and no step of a WRITE
changes ACK. -/
def Obligations.PositionIsSticky : Prop :=
  ∀ (s t : State) (i : Inst), step s = .next t →
    ((s.inst i).sh.pos = some true → (t.inst i).sh.pos = some true ∨
      ∃ sl, s.slot = some sl ∧ sl.upc = .conf .rsts ∧ sl.inst = i) ∧
    (∀ sl j a wb, s.slot = some sl → sl.cmd = .write j a wb → (t.inst i).sh.ack = (s.inst i).sh.ack)

/-- The clock-control fields are written by CONFIGURE alone, EN only to 1 (R25, R92). -/
def Obligations.ClockControlOnlyByConfigure : Prop :=
  ∀ (s t : State) (i : Inst) (f : RccField) (b : Bool), step s = .next t → t.trace = s.trace ++ [.wrcc i f b] →
    (∃ sl j scl sda freq clk, s.slot = some sl ∧ sl.cmd = .configure j scl sda freq clk) ∧ (f = .en → b = true)

/-- Under the default binding every access is at a word-aligned address of a register the sequencer names, a DR write
is its byte zero-extended, the registers of each block lie in its 0x400 bytes and the two blocks are apart, and each
field is at the bit its rule gives (R14, R21, R22, R25, R32, R36, R37, R41 to R43). -/
def Obligations.DefaultAccessesAreAligned : Prop :=
  let m := RegMap.default
  (∀ e : Event, (e.access m).addr.toNat % 4 = 0 ∧
    (e.access m).addr ∈
      ([0x40005400, 0x40005410, 0x40005414, 0x40005418, 0x40005800, 0x40005810, 0x40005814, 0x40005818, 0x40021010,
        0x4002101C] : List Word) ∧
    (∀ i v, e = .wdr i v → ∃ w : Word, e.access m = .write (e.access m).addr w ∧ w.toNat = v.toNat) ∧
    (∀ r, e.reg = some r → (e.access m).addr = (m.block e.inst).addr r ∧
      (r = .cr1 ∨ r = .dr ∨ r = .sr1 ∨ r = .sr2) ∧ (m.block e.inst).contains (e.access m).addr = true) ∧
    (e.reg = none → ∃ f b, e = .wrcc e.inst f b)) ∧
  (∀ a : Word, ((m.block .a).contains a = true ↔ 0x40005400 ≤ a.toNat ∧ a.toNat < 0x40005400 + 0x400) ∧
    ((m.block .b).contains a = true ↔ 0x40005800 ≤ a.toNat ∧ a.toNat < 0x40005800 + 0x400) ∧
    ¬((m.block .a).contains a = true ∧ (m.block .b).contains a = true)) ∧
  regionsDisjoint m = true ∧
  (∀ i : Inst, let o := (m.block i).offset
    o .cr1 = 0x00 ∧ o .cr2 = 0x04 ∧ o .oar1 = 0x08 ∧ o .oar2 = 0x0C ∧ o .dr = 0x10 ∧ o .sr1 = 0x14 ∧ o .sr2 = 0x18 ∧
      o .ccr = 0x1C ∧ o .trise = 0x20) ∧
  (∀ i : Inst, let b := m.block i
    b.sbBit = 0 ∧ b.addrBit = 1 ∧ b.btfBit = 2 ∧ b.rxneBit = 6 ∧ b.txeBit = 7 ∧ b.berrBit = 8 ∧ b.arloBit = 9) ∧
  (∀ (i : Inst) (b : Bool),
    let cr1 := match i with
      | .a => 0x40005400
      | .b => 0x40005800
    let bit := match i with
      | .a => 21
      | .b => 22
    Event.access m (.wcr1 i .pe b) = .setField cr1 0 b ∧ Event.access m (.wcr1 i .start b) = .setField cr1 8 b ∧
      Event.access m (.wcr1 i .stop b) = .setField cr1 9 b ∧ Event.access m (.wcr1 i .ack b) = .setField cr1 10 b ∧
      Event.access m (.wcr1 i .pos b) = .setField cr1 11 b ∧
      Event.access m (.wrcc i .en b) = .setField 0x4002101C bit b ∧
      Event.access m (.wrcc i .rst b) = .setField 0x40021010 bit b)

end
end

