-- ==== Sys2Proof/Laws/Bus.lean ====
section
/-! SUPPORT. What an address in a block is, and where an event's access goes under any binding of `REGMAP`. -/

namespace Sys2Proof

/-- The addresses of a block are the `span` bytes from its base on (R41). -/
theorem BlockMap.contains_iff {m : BlockMap} {a : Word} :
    m.contains a = true ↔ m.base.toNat ≤ a.toNat ∧ a.toNat < m.base.toNat + m.span := by
  simp [BlockMap.contains]

end Sys2Proof

namespace Sys2Proof.Machine

/-- An event of a block register accesses that register of its own instance's block (R14, R37). -/
theorem Event.access_addr_of_reg {m : RegMap} {e : Event} {r : BlockReg} (h : e.reg = some r) :
    (e.access m).addr = (m.block e.inst).addr r := by
  cases e <;> cases h <;> rfl

/-- The sequencer accesses CR1, DR, SR1 and SR2 of a block and no other register (R32, R42). -/
theorem Event.reg_cases {e : Event} {r : BlockReg} (h : e.reg = some r) : r = .cr1 ∨ r = .dr ∨ r = .sr1 ∨ r = .sr2 := by
  cases e <;> cases h <;> simp

/-- An event of no block register is a clock-control write, at the bit its instance's binding gives (R25). -/
theorem Event.access_of_reg_none {m : RegMap} {e : Event} (h : e.reg = none) :
    ∃ f b, e = .wrcc e.inst f b ∧ e.access m = .setField (rccReg m f e.inst) (rccBit (m.block e.inst) f).val b := by
  cases e <;> cases h
  exact ⟨_, _, rfl, rfl⟩

end Sys2Proof.Machine
end

