-- ==== Sys2Proof/Laws/Decode.lean ====
section
/-! SUPPORT. The words of a frame as numbers, and that packed data bytes are read back (R35, R53 to R60). -/

namespace Sys2Proof

/-! ### Words as numbers -/

theorem append_toNat {m n : Nat} (x : BitVec m) (y : BitVec n) : (x ++ y).toNat = x.toNat * 2 ^ n + y.toNat := by
  rw [BitVec.toNat_append, ← Nat.shiftLeft_add_eq_or_of_lt y.isLt, Nat.shiftLeft_eq]

theorem instBit_lt (i : Inst) : (instBit i).toNat < 2 := (instBit i).isLt

theorem transferWord_toNat (op : BitVec 4) (i : Inst) (a : BitVec 7) (n : BitVec 16) :
    (transferWord op i a n).toNat =
      n.toNat * 65536 + a.toNat * 256 + (instBit i).toNat * 16 + op.toNat := by
  unfold transferWord
  change BitVec.toNat (n ++ (0 : BitVec 1) ++ a ++ (0 : BitVec 3) ++ instBit i ++ op) = _
  simp only [append_toNat]
  simp
  omega

theorem configureWord_toNat (i : Inst) (scl sda : PinId) :
    (configureWord i scl sda).toNat = sda.toNat * 65536 + scl.toNat * 256 + (instBit i).toNat * 16 + 1 := by
  unfold configureWord
  change BitVec.toNat ((0 : BitVec 8) ++ sda ++ scl ++ (0 : BitVec 3) ++ instBit i ++ (1 : BitVec 4)) = _
  simp only [append_toNat]
  simp
  omega

theorem controlWord_toNat (op : BitVec 4) (i : Inst) :
    (controlWord op i).toNat = (instBit i).toNat * 16 + op.toNat := by
  unfold controlWord
  change BitVec.toNat ((0 : BitVec 27) ++ instBit i ++ op) = _
  simp only [append_toNat]
  simp

theorem lengthWord_toNat (rlen : BitVec 16) : (lengthWord rlen).toNat = rlen.toNat := by
  unfold lengthWord
  change BitVec.toNat ((0 : BitVec 16) ++ rlen) = _
  simp only [append_toNat]
  simp

theorem byteOf_toNat (w : Word) (j : Nat) : (byteOf w j).toNat = w.toNat / 2 ^ (8 * j) % 256 := by
  simp [byteOf, Nat.shiftRight_eq_div_pow]

theorem wordOfBytes_toNat (a b c d : Byte) :
    (wordOfBytes a b c d).toNat = ((d.toNat * 256 + c.toNat) * 256 + b.toNat) * 256 + a.toNat := by
  unfold wordOfBytes
  change BitVec.toNat (d ++ c ++ b ++ a) = _
  simp only [append_toNat]
  norm_num

/-- Each byte of a data word is where R35 puts it. -/
theorem byteOf_wordOfBytes (a b c d : Byte) :
    byteOf (wordOfBytes a b c d) 0 = a ∧ byteOf (wordOfBytes a b c d) 1 = b ∧
      byteOf (wordOfBytes a b c d) 2 = c ∧ byteOf (wordOfBytes a b c d) 3 = d := by
  have := a.isLt; have := b.isLt; have := c.isLt; have := d.isLt
  refine ⟨?_, ?_, ?_, ?_⟩ <;> apply BitVec.eq_of_toNat_eq <;> rw [byteOf_toNat, wordOfBytes_toNat] <;> norm_num <;> omega

/-- A data word is its four bytes. -/
theorem wordOfBytes_byteOf (w : Word) : wordOfBytes (byteOf w 0) (byteOf w 1) (byteOf w 2) (byteOf w 3) = w := by
  apply BitVec.eq_of_toNat_eq
  have := w.isLt
  rw [wordOfBytes_toNat]; simp only [byteOf_toNat]; norm_num; omega

/-! ### Data words (R59) -/

/-- Packed bytes are read back, whatever follows them. -/
theorem dataBytes_packBytes (rest : List Word) :
    ∀ bs : List Byte, dataBytes (packBytes bs ++ rest) bs.length = some (bs, rest)
  | [] => by simp [packBytes, dataBytes]
  | [a] => by simp [packBytes, dataBytes, byteOf_wordOfBytes]
  | [a, b] => by simp [packBytes, dataBytes, byteOf_wordOfBytes]
  | [a, b, c] => by simp [packBytes, dataBytes, byteOf_wordOfBytes]
  | a :: b :: c :: d :: bs => by
    have e : (a :: b :: c :: d :: bs).length = bs.length + 4 := rfl
    rw [e, packBytes, List.cons_append, dataBytes, dataBytes_packBytes rest bs]
    simp [byteOf_wordOfBytes]

theorem packBytes_length : ∀ bs : List Byte, (packBytes bs).length = (bs.length + 3) / 4
  | [] => by simp [packBytes]
  | [_] => by simp [packBytes]
  | [_, _] => by simp [packBytes]
  | [_, _, _] => by simp [packBytes]
  | a :: b :: c :: d :: bs => by
    simp only [packBytes, List.length_cons, packBytes_length bs]; omega

/-- A data word of packed bytes holds its four bytes, and zero where the data has ended. -/
theorem packBytes_get : ∀ (bs : List Byte) (w : Nat), 4 * w < bs.length →
    ∃ d, (packBytes bs)[w]? = some d ∧ ∀ j, j < 4 → byteOf d j = (bs[4 * w + j]?).getD 0
  | [], w, h => by simp at h
  | [a], w, h => by
    obtain rfl : w = 0 := by simp at h; omega
    refine ⟨_, rfl, ?_⟩
    obtain ⟨h0, h1, h2, h3⟩ := byteOf_wordOfBytes a 0 0 0
    intro j hj; interval_cases j <;> first | exact h0 | exact h1 | exact h2 | exact h3
  | [a, b], w, h => by
    obtain rfl : w = 0 := by simp at h; omega
    refine ⟨_, rfl, ?_⟩
    obtain ⟨h0, h1, h2, h3⟩ := byteOf_wordOfBytes a b 0 0
    intro j hj; interval_cases j <;> first | exact h0 | exact h1 | exact h2 | exact h3
  | [a, b, c], w, h => by
    obtain rfl : w = 0 := by simp at h; omega
    refine ⟨_, rfl, ?_⟩
    obtain ⟨h0, h1, h2, h3⟩ := byteOf_wordOfBytes a b c 0
    intro j hj; interval_cases j <;> first | exact h0 | exact h1 | exact h2 | exact h3
  | a :: b :: c :: d :: bs, w, h => by
    cases w with
    | zero =>
      refine ⟨_, rfl, ?_⟩
      obtain ⟨h0, h1, h2, h3⟩ := byteOf_wordOfBytes a b c d
      intro j hj; interval_cases j <;> first | exact h0 | exact h1 | exact h2 | exact h3
    | succ w =>
      obtain ⟨x, hx, hb⟩ := packBytes_get bs w (by simp at h; omega)
      refine ⟨x, by simpa [packBytes] using hx, ?_⟩
      intro j hj
      rw [hb j hj, show 4 * (w + 1) + j = 4 * w + j + 1 + 1 + 1 + 1 by omega]
      simp

/-- Whatever the data words spell, they are its packing: no padding byte is dropped. -/
theorem eq_packBytes_of_dataBytes : ∀ {ws : List Word} {n : Nat} {bs : List Byte} {rest : List Word},
    dataBytes ws n = some (bs, rest) → bs.length = n ∧ ws = packBytes bs ++ rest := by
  intro ws n
  induction ws, n using dataBytes.induct with
  | case1 ws => intro bs rest h; simp [dataBytes] at h; obtain ⟨rfl, rfl⟩ := h; simp [packBytes]
  | case2 n => intro bs rest h; simp [dataBytes] at h
  | case3 w ws h0 =>
    intro bs rest h; simp [dataBytes] at h; obtain ⟨⟨h1, h2, h3⟩, rfl, rfl⟩ := h
    have := wordOfBytes_byteOf w
    rw [h1, h2, h3] at this
    simp [packBytes, this]
  | case4 w ws h0 =>
    intro bs rest h; simp [dataBytes] at h; exact absurd h.1 h0
  | case5 w ws h0 =>
    intro bs rest h; simp [dataBytes] at h; obtain ⟨⟨h2, h3⟩, rfl, rfl⟩ := h
    have := wordOfBytes_byteOf w
    rw [h2, h3] at this
    simp [packBytes, this]
  | case6 w ws h0 =>
    intro bs rest h; simp [dataBytes] at h; exact absurd h.1 h0
  | case7 w ws h0 =>
    intro bs rest h; simp [dataBytes] at h; obtain ⟨h3, rfl, rfl⟩ := h
    have := wordOfBytes_byteOf w
    rw [h3] at this
    simp [packBytes, this]
  | case8 w ws h0 =>
    intro bs rest h; simp [dataBytes] at h; exact absurd h.1 h0
  | case9 w ws n bs' rest' heq ih =>
    intro bs rest h
    simp [dataBytes, heq] at h
    obtain ⟨rfl, rfl⟩ := h
    obtain ⟨h1, h2⟩ := ih heq
    simp [h1, packBytes, wordOfBytes_byteOf, ← h2]
  | case10 w ws n heq ih =>
    intro bs rest h
    simp [dataBytes, heq] at h

/-! ### The fields of the command word of formats W and X -/

theorem opOf_transferWord (op : BitVec 4) (i : Inst) (a : BitVec 7) (n : BitVec 16) :
    opOf (transferWord op i a n) = op := by
  have := op.isLt
  apply BitVec.eq_of_toNat_eq
  simp [opOf, transferWord_toNat]; omega

theorem wlenOf_transferWord (op : BitVec 4) (i : Inst) (a : BitVec 7) (n : BitVec 16) :
    wlenOf (transferWord op i a n) = n := by
  have := op.isLt; have := a.isLt; have := n.isLt; have := instBit_lt i
  apply BitVec.eq_of_toNat_eq
  simp [wlenOf, transferWord_toNat, Nat.shiftRight_eq_div_pow]; omega

theorem addrOf_transferWord (op : BitVec 4) (i : Inst) (a : BitVec 7) (n : BitVec 16) :
    addrOf (transferWord op i a n) = a := by
  have := op.isLt; have := a.isLt; have := n.isLt; have := instBit_lt i
  apply BitVec.eq_of_toNat_eq
  simp [addrOf, transferWord_toNat, Nat.shiftRight_eq_div_pow]; omega

theorem rsv0Of_transferWord (op : BitVec 4) (i : Inst) (a : BitVec 7) (n : BitVec 16) :
    rsv0Of (transferWord op i a n) = 0 := by
  have := op.isLt; have := a.isLt; have := n.isLt; have := instBit_lt i
  apply BitVec.eq_of_toNat_eq
  simp [rsv0Of, transferWord_toNat, Nat.shiftRight_eq_div_pow]; omega

theorem rsv2Of_transferWord (op : BitVec 4) (i : Inst) (a : BitVec 7) (n : BitVec 16) :
    rsv2Of (transferWord op i a n) = 0 := by
  have := op.isLt; have := a.isLt; have := n.isLt; have := instBit_lt i
  apply BitVec.eq_of_toNat_eq
  simp [rsv2Of, transferWord_toNat, Nat.shiftRight_eq_div_pow]; omega

theorem instOf_transferWord (op : BitVec 4) (i : Inst) (a : BitVec 7) (n : BitVec 16) :
    instOf (transferWord op i a n) = i := by
  have := op.isLt; have := a.isLt; have := n.isLt
  have h : (transferWord op i a n).getLsbD 4 = decide ((transferWord op i a n).toNat / 2 ^ 4 % 2 = 1) := by
    rw [BitVec.getLsbD, Nat.testBit_eq_decide_div_mod_eq]
  unfold instOf
  rw [h, transferWord_toNat]
  cases i
  · rw [if_neg]; simp [instBit]; omega
  · rw [if_pos]; simp [instBit]; omega

end Sys2Proof
end

