-- ==== Sys2Proof/Laws/PerInstr.lean ====
section
/-! SUPPORT. The length of a command's frame is the one its first word tells (R60), one lemma per command. -/

namespace Sys2Proof.Laws

/-- The frame of a command that can be spelled has the length told from its first word. -/
def FrameLength.Statement (i : Instr) : Prop :=
  i.wf = true → ∃ f0 ws, encode i = f0 :: ws ∧ frameLength f0 = ws.length + 1

theorem FrameLength.configure (i : Inst) (scl sda : PinId) (freq clk : Word) :
    FrameLength.Statement (.configure i scl sda freq clk) := by
  intro _
  refine ⟨_, _, rfl, ?_⟩
  have : opOf (configureWord i scl sda) = 1 := by
    apply BitVec.eq_of_toNat_eq
    simp [opOf, configureWord_toNat]; omega
  simp [frameLength, this]

theorem FrameLength.release (i : Inst) : FrameLength.Statement (.release i) := by
  intro _; cases i <;> exact ⟨_, _, rfl, rfl⟩

theorem FrameLength.drop (i : Inst) : FrameLength.Statement (.drop i) := by
  intro _; cases i <;> exact ⟨_, _, rfl, rfl⟩

theorem FrameLength.write (i : Inst) (a : BitVec 7) (wb : List Byte) : FrameLength.Statement (.write i a wb) := by
  intro h
  have hn : wb.length ≤ maxLen := of_decide_eq_true h
  unfold maxLen at hn
  refine ⟨_, _, rfl, ?_⟩
  simp [frameLength, opOf_transferWord, wlenOf_transferWord, packBytes_length]; omega

theorem FrameLength.writeRead (i : Inst) (a : BitVec 7) (wb : List Byte) (m : Nat) :
    FrameLength.Statement (.writeRead i a wb m) := by
  intro h
  have hn : wb.length ≤ maxLen := by simp [Instr.wf] at h; exact h.1
  unfold maxLen at hn
  refine ⟨_, _, rfl, ?_⟩
  simp [frameLength, opOf_transferWord, wlenOf_transferWord, packBytes_length]; omega

end Sys2Proof.Laws
end

