-- ==== Sys2Proof/Laws/Pins.lean ====
section
/-! SUPPORT. The pin map: what a write leaves to be read, and that it keeps the canonical form (R12). -/

namespace Sys2Proof.Machine

/-- The canonical form, entry by entry. -/
theorem PinMap.wf_cons {q : PinId} {x : PinOwner} {m : PinMap} :
    PinMap.wf ((q, x) :: m) = true ↔ x ≠ .host ∧ (∀ e ∈ m, q.toNat < e.1.toNat) ∧ PinMap.wf m = true := by
  simp [PinMap.wf, and_assoc]

theorem PinMap.get_of_forall_ne {p : PinId} : ∀ {m : PinMap}, (∀ e ∈ m, e.1 ≠ p) → PinMap.get m p = .host
  | [], _ => rfl
  | (q, x) :: m, h => by
    have hq : q ≠ p := h (q, x) (by simp)
    have hm : ∀ e ∈ m, e.1 ≠ p := fun e he => h e (by simp [he])
    simp [PinMap.get, hq, PinMap.get_of_forall_ne hm]

theorem PinMap.get_entry {p r : PinId} {o : PinOwner} {m : PinMap} (h : ∀ e ∈ m, e.1 ≠ p) :
    PinMap.get (PinMap.entry p o m) r = if r = p then o else PinMap.get m r := by
  cases o <;> by_cases hr : r = p <;> simp [PinMap.entry, PinMap.get, hr, PinMap.get_of_forall_ne h, eq_comm]
  all_goals intro hh; exact absurd hh.symm hr

theorem PinMap.ne_of_toNat_lt {p q : PinId} (h : p.toNat < q.toNat) : q ≠ p := by
  rintro rfl; exact absurd h (Nat.lt_irrefl _)

/-- What a pin map holds after a write: the new owner at the pin written, the old one elsewhere. -/
theorem PinMap.get_set {p r : PinId} {o : PinOwner} :
    ∀ {m : PinMap}, m.wf = true → (m.set p o).get r = if r = p then o else m.get r
  | [], _ => by
    simpa [PinMap.set] using PinMap.get_entry (p := p) (r := r) (o := o) (m := []) (by simp)
  | (q, x) :: m, h => by
    obtain ⟨hx, hlt, hm⟩ := PinMap.wf_cons.1 h
    unfold PinMap.set
    split
    · next hpq =>
      refine PinMap.get_entry fun e he => ?_
      rcases List.mem_cons.1 he with rfl | he
      · exact PinMap.ne_of_toNat_lt hpq
      · exact PinMap.ne_of_toNat_lt (Nat.lt_trans hpq (hlt e he))
    · split
      · next hpq =>
        subst hpq
        rw [PinMap.get_entry fun e he => PinMap.ne_of_toNat_lt (hlt e he)]
        by_cases hr : r = p
        · simp [hr]
        · simp [PinMap.get, hr, Ne.symm hr]
      · next hpq =>
        by_cases hr : q = r
        · subst hr; simp [PinMap.get, Ne.symm hpq]
        · simp [PinMap.get, hr, PinMap.get_set hm]

theorem PinMap.mem_entry {e : PinId × PinOwner} {p : PinId} {o : PinOwner} {m : PinMap}
    (h : e ∈ PinMap.entry p o m) : e.1 = p ∨ e ∈ m := by
  cases o <;> simp [PinMap.entry] at h
  · exact .inr h
  · rcases h with rfl | h <;> simp_all
  · rcases h with rfl | h <;> simp_all

theorem PinMap.mem_set {p : PinId} {o : PinOwner} {e : PinId × PinOwner} :
    ∀ {m : PinMap}, e ∈ m.set p o → e.1 = p ∨ e ∈ m
  | [], h => PinMap.mem_entry h
  | (q, x) :: m, h => by
    unfold PinMap.set at h
    split at h
    · exact PinMap.mem_entry h
    · split at h
      · exact (PinMap.mem_entry h).imp_right (List.mem_cons_of_mem _)
      · rcases List.mem_cons.1 h with rfl | h
        · exact .inr (by simp)
        · exact (PinMap.mem_set h).imp_right (List.mem_cons_of_mem _)

theorem PinMap.wf_entry {p : PinId} {o : PinOwner} {m : PinMap} (hm : m.wf = true)
    (h : ∀ e ∈ m, p.toNat < e.1.toNat) : (PinMap.entry p o m).wf = true := by
  cases o
  · exact hm
  · exact PinMap.wf_cons.2 ⟨by simp, h, hm⟩
  · exact PinMap.wf_cons.2 ⟨by simp, h, hm⟩

/-- A write keeps the canonical form. -/
theorem PinMap.wf_set {p : PinId} {o : PinOwner} : ∀ {m : PinMap}, m.wf = true → (m.set p o).wf = true
  | [], h => PinMap.wf_entry h (by simp)
  | (q, x) :: m, h => by
    obtain ⟨hx, hlt, hm⟩ := PinMap.wf_cons.1 h
    unfold PinMap.set
    split
    · next hpq =>
      refine PinMap.wf_entry h fun e he => ?_
      rcases List.mem_cons.1 he with rfl | he
      · exact hpq
      · exact Nat.lt_trans hpq (hlt e he)
    · split
      · next hpq => subst hpq; exact PinMap.wf_entry hm hlt
      · next h1 h2 =>
        refine PinMap.wf_cons.2 ⟨hx, fun e he => ?_, PinMap.wf_set hm⟩
        rcases PinMap.mem_set he with h3 | h3
        · have : q.toNat ≠ p.toNat := fun hh => h2 (BitVec.eq_of_toNat_eq hh.symm)
          rw [h3]; omega
        · exact hlt e h3
end Sys2Proof.Machine
end

