-- ==== Sys2Proof/Laws/State.lean ====
section
/-! SUPPORT. The small lemmas of the state: one per field per operation, so that no later proof unfolds a record
update. -/

namespace Sys2Proof.Machine

/-! ### setInst -/

@[simp] theorem State.setInst_cfg (s : State) (i : Inst) (x : InstState) : (s.setInst i x).cfg = s.cfg := by cases i <;> rfl

@[simp] theorem State.setInst_pins (s : State) (i : Inst) (x : InstState) : (s.setInst i x).pins = s.pins := by cases i <;> rfl

@[simp] theorem State.setInst_slot (s : State) (i : Inst) (x : InstState) : (s.setInst i x).slot = s.slot := by cases i <;> rfl

@[simp] theorem State.setInst_res (s : State) (i : Inst) (x : InstState) : (s.setInst i x).res = s.res := by cases i <;> rfl

@[simp] theorem State.setInst_mark (s : State) (i : Inst) (x : InstState) : (s.setInst i x).mark = s.mark := by cases i <;> rfl

@[simp] theorem State.setInst_trace (s : State) (i : Inst) (x : InstState) : (s.setInst i x).trace = s.trace := by cases i <;> rfl

@[simp] theorem State.setInst_host (s : State) (i : Inst) (x : InstState) : (s.setInst i x).host = s.host := by cases i <;> rfl

@[simp] theorem State.setInst_lent (s : State) (i : Inst) (x : InstState) : (s.setInst i x).lent = s.lent := by cases i <;> rfl

@[simp] theorem State.setInst_replies (s : State) (i : Inst) (x : InstState) : (s.setInst i x).replies = s.replies := by cases i <;> rfl

@[simp] theorem State.setInst_draws (s : State) (i : Inst) (x : InstState) : (s.setInst i x).draws = s.draws := by cases i <;> rfl

@[simp] theorem State.setInst_inst_self (s : State) (i : Inst) (x : InstState) : (s.setInst i x).inst i = x := by cases i <;> rfl

theorem State.setInst_inst_ne (s : State) (i : Inst) (x : InstState) (j : Inst) (h : j ≠ i) : (s.setInst i x).inst j = s.inst j := by
  cases i <;> cases j <;> first | rfl | exact absurd rfl h

/-! ### setPins -/

@[simp] theorem State.setPins_cfg (s : State) (m : PinMap) : (s.setPins m).cfg = s.cfg := rfl

@[simp] theorem State.setPins_pins (s : State) (m : PinMap) : (s.setPins m).pins = m := rfl

@[simp] theorem State.setPins_slot (s : State) (m : PinMap) : (s.setPins m).slot = s.slot := rfl

@[simp] theorem State.setPins_res (s : State) (m : PinMap) : (s.setPins m).res = s.res := rfl

@[simp] theorem State.setPins_mark (s : State) (m : PinMap) : (s.setPins m).mark = s.mark := rfl

@[simp] theorem State.setPins_trace (s : State) (m : PinMap) : (s.setPins m).trace = s.trace := rfl

@[simp] theorem State.setPins_host (s : State) (m : PinMap) : (s.setPins m).host = s.host := rfl

@[simp] theorem State.setPins_lent (s : State) (m : PinMap) : (s.setPins m).lent = s.lent := rfl

@[simp] theorem State.setPins_replies (s : State) (m : PinMap) : (s.setPins m).replies = s.replies := rfl

@[simp] theorem State.setPins_draws (s : State) (m : PinMap) : (s.setPins m).draws = s.draws := rfl

@[simp] theorem State.setPins_inst (s : State) (m : PinMap) (j : Inst) : (s.setPins m).inst j = s.inst j := by cases j <;> rfl

/-! ### load -/

@[simp] theorem State.load_cfg (s : State) (sl : Slot) : (s.load sl).cfg = s.cfg := rfl

@[simp] theorem State.load_pins (s : State) (sl : Slot) : (s.load sl).pins = s.pins := rfl

@[simp] theorem State.load_slot (s : State) (sl : Slot) : (s.load sl).slot = some sl := rfl

@[simp] theorem State.load_res (s : State) (sl : Slot) : (s.load sl).res = s.res := rfl

@[simp] theorem State.load_mark (s : State) (sl : Slot) : (s.load sl).mark = s.mark := rfl

@[simp] theorem State.load_trace (s : State) (sl : Slot) : (s.load sl).trace = s.trace := rfl

@[simp] theorem State.load_host (s : State) (sl : Slot) : (s.load sl).host = s.host := rfl

@[simp] theorem State.load_lent (s : State) (sl : Slot) : (s.load sl).lent = s.lent := rfl

@[simp] theorem State.load_replies (s : State) (sl : Slot) : (s.load sl).replies = s.replies := rfl

@[simp] theorem State.load_draws (s : State) (sl : Slot) : (s.load sl).draws = s.draws := rfl

@[simp] theorem State.load_inst (s : State) (sl : Slot) (j : Inst) : (s.load sl).inst j = s.inst j := by cases j <;> rfl

/-! ### took -/

@[simp] theorem State.took_cfg (s : State) (h : HostInput) (hs : List HostInput) : (s.took h hs).cfg = s.cfg := rfl

@[simp] theorem State.took_pins (s : State) (h : HostInput) (hs : List HostInput) : (s.took h hs).pins = s.pins := rfl

@[simp] theorem State.took_slot (s : State) (h : HostInput) (hs : List HostInput) : (s.took h hs).slot = s.slot := rfl

@[simp] theorem State.took_res (s : State) (h : HostInput) (hs : List HostInput) : (s.took h hs).res = s.res := rfl

@[simp] theorem State.took_mark (s : State) (h : HostInput) (hs : List HostInput) : (s.took h hs).mark = s.mark := rfl

@[simp] theorem State.took_trace (s : State) (h : HostInput) (hs : List HostInput) : (s.took h hs).trace = s.trace := rfl

@[simp] theorem State.took_host (s : State) (h : HostInput) (hs : List HostInput) : (s.took h hs).host = hs := rfl

@[simp] theorem State.took_lent (s : State) (h : HostInput) (hs : List HostInput) : (s.took h hs).lent = h.lent := rfl

@[simp] theorem State.took_replies (s : State) (h : HostInput) (hs : List HostInput) : (s.took h hs).replies = s.replies := rfl

@[simp] theorem State.took_draws (s : State) (h : HostInput) (hs : List HostInput) : (s.took h hs).draws = s.draws := rfl

@[simp] theorem State.took_inst (s : State) (h : HostInput) (hs : List HostInput) (j : Inst) : (s.took h hs).inst j = s.inst j := by cases j <;> rfl

/-! ### emit -/

@[simp] theorem State.emit_cfg (s : State) (e : Event) : (s.emit e).cfg = s.cfg := rfl

@[simp] theorem State.emit_pins (s : State) (e : Event) : (s.emit e).pins = s.pins := rfl

@[simp] theorem State.emit_slot (s : State) (e : Event) : (s.emit e).slot = s.slot := rfl

@[simp] theorem State.emit_res (s : State) (e : Event) : (s.emit e).res = s.res := rfl

@[simp] theorem State.emit_mark (s : State) (e : Event) : (s.emit e).mark = s.mark := rfl

@[simp] theorem State.emit_trace (s : State) (e : Event) : (s.emit e).trace = s.trace ++ [e] := rfl

@[simp] theorem State.emit_host (s : State) (e : Event) : (s.emit e).host = s.host := rfl

@[simp] theorem State.emit_lent (s : State) (e : Event) : (s.emit e).lent = s.lent := rfl

@[simp] theorem State.emit_replies (s : State) (e : Event) : (s.emit e).replies = s.replies := rfl

@[simp] theorem State.emit_draws (s : State) (e : Event) : (s.emit e).draws = s.draws := rfl

@[simp] theorem State.emit_inst (s : State) (e : Event) (j : Inst) : (s.emit e).inst j = s.inst j := by cases j <;> rfl

/-! ### goto -/

@[simp] theorem State.goto_cfg (s : State) (sl : Slot) (l : Label) : (s.goto sl l).cfg = s.cfg := rfl

@[simp] theorem State.goto_pins (s : State) (sl : Slot) (l : Label) : (s.goto sl l).pins = s.pins := rfl

@[simp] theorem State.goto_slot (s : State) (sl : Slot) (l : Label) : (s.goto sl l).slot = some { sl with upc := l } := rfl

@[simp] theorem State.goto_res (s : State) (sl : Slot) (l : Label) : (s.goto sl l).res = s.res := rfl

@[simp] theorem State.goto_mark (s : State) (sl : Slot) (l : Label) : (s.goto sl l).mark = s.mark := rfl

@[simp] theorem State.goto_trace (s : State) (sl : Slot) (l : Label) : (s.goto sl l).trace = s.trace := rfl

@[simp] theorem State.goto_host (s : State) (sl : Slot) (l : Label) : (s.goto sl l).host = s.host := rfl

@[simp] theorem State.goto_lent (s : State) (sl : Slot) (l : Label) : (s.goto sl l).lent = s.lent := rfl

@[simp] theorem State.goto_replies (s : State) (sl : Slot) (l : Label) : (s.goto sl l).replies = s.replies := rfl

@[simp] theorem State.goto_draws (s : State) (sl : Slot) (l : Label) : (s.goto sl l).draws = s.draws := rfl

@[simp] theorem State.goto_inst (s : State) (sl : Slot) (l : Label) (j : Inst) : (s.goto sl l).inst j = s.inst j := by cases j <;> rfl

/-! ### writeCr1 -/

@[simp] theorem State.writeCr1_cfg (s : State) (i : Inst) (f : Cr1Field) (b : Bool) : (s.writeCr1 i f b).cfg = s.cfg := by simp [State.writeCr1]

@[simp] theorem State.writeCr1_pins (s : State) (i : Inst) (f : Cr1Field) (b : Bool) : (s.writeCr1 i f b).pins = s.pins := by simp [State.writeCr1]

@[simp] theorem State.writeCr1_slot (s : State) (i : Inst) (f : Cr1Field) (b : Bool) : (s.writeCr1 i f b).slot = s.slot := by simp [State.writeCr1]

@[simp] theorem State.writeCr1_res (s : State) (i : Inst) (f : Cr1Field) (b : Bool) : (s.writeCr1 i f b).res = s.res := by simp [State.writeCr1]

@[simp] theorem State.writeCr1_mark (s : State) (i : Inst) (f : Cr1Field) (b : Bool) : (s.writeCr1 i f b).mark = s.mark := by simp [State.writeCr1]

@[simp] theorem State.writeCr1_trace (s : State) (i : Inst) (f : Cr1Field) (b : Bool) : (s.writeCr1 i f b).trace = s.trace ++ [.wcr1 i f b] := by simp [State.writeCr1]

@[simp] theorem State.writeCr1_host (s : State) (i : Inst) (f : Cr1Field) (b : Bool) : (s.writeCr1 i f b).host = s.host := by simp [State.writeCr1]

@[simp] theorem State.writeCr1_lent (s : State) (i : Inst) (f : Cr1Field) (b : Bool) : (s.writeCr1 i f b).lent = s.lent := by simp [State.writeCr1]

@[simp] theorem State.writeCr1_replies (s : State) (i : Inst) (f : Cr1Field) (b : Bool) : (s.writeCr1 i f b).replies = s.replies := by simp [State.writeCr1]

@[simp] theorem State.writeCr1_draws (s : State) (i : Inst) (f : Cr1Field) (b : Bool) : (s.writeCr1 i f b).draws = s.draws := by simp [State.writeCr1]

@[simp] theorem State.writeCr1_inst_self (s : State) (i : Inst) (f : Cr1Field) (b : Bool) : (s.writeCr1 i f b).inst i = (s.inst i).noteCr1 f b := by cases i <;> rfl

theorem State.writeCr1_inst_ne (s : State) (i : Inst) (f : Cr1Field) (b : Bool) (j : Inst) (h : j ≠ i) : (s.writeCr1 i f b).inst j = s.inst j := by
  cases i <;> cases j <;> first | rfl | exact absurd rfl h

/-! ### writeDr -/

@[simp] theorem State.writeDr_cfg (s : State) (i : Inst) (v : Byte) : (s.writeDr i v).cfg = s.cfg := rfl

@[simp] theorem State.writeDr_pins (s : State) (i : Inst) (v : Byte) : (s.writeDr i v).pins = s.pins := rfl

@[simp] theorem State.writeDr_slot (s : State) (i : Inst) (v : Byte) : (s.writeDr i v).slot = s.slot := rfl

@[simp] theorem State.writeDr_res (s : State) (i : Inst) (v : Byte) : (s.writeDr i v).res = s.res := rfl

@[simp] theorem State.writeDr_mark (s : State) (i : Inst) (v : Byte) : (s.writeDr i v).mark = s.mark := rfl

@[simp] theorem State.writeDr_trace (s : State) (i : Inst) (v : Byte) : (s.writeDr i v).trace = s.trace ++ [.wdr i v] := rfl

@[simp] theorem State.writeDr_host (s : State) (i : Inst) (v : Byte) : (s.writeDr i v).host = s.host := rfl

@[simp] theorem State.writeDr_lent (s : State) (i : Inst) (v : Byte) : (s.writeDr i v).lent = s.lent := rfl

@[simp] theorem State.writeDr_replies (s : State) (i : Inst) (v : Byte) : (s.writeDr i v).replies = s.replies := rfl

@[simp] theorem State.writeDr_draws (s : State) (i : Inst) (v : Byte) : (s.writeDr i v).draws = s.draws := rfl

@[simp] theorem State.writeDr_inst (s : State) (i : Inst) (v : Byte) (j : Inst) : (s.writeDr i v).inst j = s.inst j := by cases j <;> rfl

/-! ### writeRcc -/

@[simp] theorem State.writeRcc_cfg (s : State) (i : Inst) (f : RccField) (b : Bool) : (s.writeRcc i f b).cfg = s.cfg := rfl

@[simp] theorem State.writeRcc_pins (s : State) (i : Inst) (f : RccField) (b : Bool) : (s.writeRcc i f b).pins = s.pins := rfl

@[simp] theorem State.writeRcc_slot (s : State) (i : Inst) (f : RccField) (b : Bool) : (s.writeRcc i f b).slot = s.slot := rfl

@[simp] theorem State.writeRcc_res (s : State) (i : Inst) (f : RccField) (b : Bool) : (s.writeRcc i f b).res = s.res := rfl

@[simp] theorem State.writeRcc_mark (s : State) (i : Inst) (f : RccField) (b : Bool) : (s.writeRcc i f b).mark = s.mark := rfl

@[simp] theorem State.writeRcc_trace (s : State) (i : Inst) (f : RccField) (b : Bool) : (s.writeRcc i f b).trace = s.trace ++ [.wrcc i f b] := rfl

@[simp] theorem State.writeRcc_host (s : State) (i : Inst) (f : RccField) (b : Bool) : (s.writeRcc i f b).host = s.host := rfl

@[simp] theorem State.writeRcc_lent (s : State) (i : Inst) (f : RccField) (b : Bool) : (s.writeRcc i f b).lent = s.lent := rfl

@[simp] theorem State.writeRcc_replies (s : State) (i : Inst) (f : RccField) (b : Bool) : (s.writeRcc i f b).replies = s.replies := rfl

@[simp] theorem State.writeRcc_draws (s : State) (i : Inst) (f : RccField) (b : Bool) : (s.writeRcc i f b).draws = s.draws := rfl

@[simp] theorem State.writeRcc_inst (s : State) (i : Inst) (f : RccField) (b : Bool) (j : Inst) : (s.writeRcc i f b).inst j = s.inst j := by cases j <;> rfl

/-! ### readPort -/

@[simp] theorem State.readPort_cfg (s : State) (i : Inst) (e : Event) : (s.readPort i e).cfg = s.cfg := by simp [State.readPort]

@[simp] theorem State.readPort_pins (s : State) (i : Inst) (e : Event) : (s.readPort i e).pins = s.pins := by simp [State.readPort]

@[simp] theorem State.readPort_slot (s : State) (i : Inst) (e : Event) : (s.readPort i e).slot = s.slot := by simp [State.readPort]

@[simp] theorem State.readPort_res (s : State) (i : Inst) (e : Event) : (s.readPort i e).res = s.res := by simp [State.readPort]

@[simp] theorem State.readPort_mark (s : State) (i : Inst) (e : Event) : (s.readPort i e).mark = s.mark := by simp [State.readPort]

@[simp] theorem State.readPort_trace (s : State) (i : Inst) (e : Event) : (s.readPort i e).trace = s.trace ++ [e] := by simp [State.readPort]

@[simp] theorem State.readPort_host (s : State) (i : Inst) (e : Event) : (s.readPort i e).host = s.host := by simp [State.readPort]

@[simp] theorem State.readPort_lent (s : State) (i : Inst) (e : Event) : (s.readPort i e).lent = s.lent := by simp [State.readPort]

@[simp] theorem State.readPort_replies (s : State) (i : Inst) (e : Event) : (s.readPort i e).replies = s.replies := by simp [State.readPort]

@[simp] theorem State.readPort_draws (s : State) (i : Inst) (e : Event) : (s.readPort i e).draws = s.draws := by simp [State.readPort]

@[simp] theorem State.readPort_inst_self (s : State) (i : Inst) (e : Event) : (s.readPort i e).inst i = (s.inst i).answered := by cases i <;> rfl

theorem State.readPort_inst_ne (s : State) (i : Inst) (e : Event) (j : Inst) (h : j ≠ i) : (s.readPort i e).inst j = s.inst j := by
  cases i <;> cases j <;> first | rfl | exact absurd rfl h

/-! ### readSr1 -/

@[simp] theorem State.readSr1_cfg (s : State) (i : Inst) (k : ReadKind) : (s.readSr1 i k).cfg = s.cfg := by simp [State.readSr1]

@[simp] theorem State.readSr1_pins (s : State) (i : Inst) (k : ReadKind) : (s.readSr1 i k).pins = s.pins := by simp [State.readSr1]

@[simp] theorem State.readSr1_slot (s : State) (i : Inst) (k : ReadKind) : (s.readSr1 i k).slot = s.slot := by simp [State.readSr1]

@[simp] theorem State.readSr1_res (s : State) (i : Inst) (k : ReadKind) : (s.readSr1 i k).res = s.res := by simp [State.readSr1]

@[simp] theorem State.readSr1_mark (s : State) (i : Inst) (k : ReadKind) : (s.readSr1 i k).mark = s.mark := by simp [State.readSr1]

@[simp] theorem State.readSr1_trace (s : State) (i : Inst) (k : ReadKind) : (s.readSr1 i k).trace = s.trace ++ [.rsr1 i (s.answer i) k] := by simp [State.readSr1]

@[simp] theorem State.readSr1_host (s : State) (i : Inst) (k : ReadKind) : (s.readSr1 i k).host = s.host := by simp [State.readSr1]

@[simp] theorem State.readSr1_lent (s : State) (i : Inst) (k : ReadKind) : (s.readSr1 i k).lent = s.lent := by simp [State.readSr1]

@[simp] theorem State.readSr1_replies (s : State) (i : Inst) (k : ReadKind) : (s.readSr1 i k).replies = s.replies := by simp [State.readSr1]

@[simp] theorem State.readSr1_draws (s : State) (i : Inst) (k : ReadKind) : (s.readSr1 i k).draws = s.draws := by simp [State.readSr1]

@[simp] theorem State.readSr1_inst_self (s : State) (i : Inst) (k : ReadKind) : (s.readSr1 i k).inst i = (s.inst i).answered := by cases i <;> rfl

theorem State.readSr1_inst_ne (s : State) (i : Inst) (k : ReadKind) (j : Inst) (h : j ≠ i) : (s.readSr1 i k).inst j = s.inst j := by
  cases i <;> cases j <;> first | rfl | exact absurd rfl h

/-! ### readSr2 -/

@[simp] theorem State.readSr2_cfg (s : State) (i : Inst) : (s.readSr2 i).cfg = s.cfg := by simp [State.readSr2]

@[simp] theorem State.readSr2_pins (s : State) (i : Inst) : (s.readSr2 i).pins = s.pins := by simp [State.readSr2]

@[simp] theorem State.readSr2_slot (s : State) (i : Inst) : (s.readSr2 i).slot = s.slot := by simp [State.readSr2]

@[simp] theorem State.readSr2_res (s : State) (i : Inst) : (s.readSr2 i).res = s.res := by simp [State.readSr2]

@[simp] theorem State.readSr2_mark (s : State) (i : Inst) : (s.readSr2 i).mark = s.mark := by simp [State.readSr2]

@[simp] theorem State.readSr2_trace (s : State) (i : Inst) : (s.readSr2 i).trace = s.trace ++ [.rsr2 i (s.answer i)] := by simp [State.readSr2]

@[simp] theorem State.readSr2_host (s : State) (i : Inst) : (s.readSr2 i).host = s.host := by simp [State.readSr2]

@[simp] theorem State.readSr2_lent (s : State) (i : Inst) : (s.readSr2 i).lent = s.lent := by simp [State.readSr2]

@[simp] theorem State.readSr2_replies (s : State) (i : Inst) : (s.readSr2 i).replies = s.replies := by simp [State.readSr2]

@[simp] theorem State.readSr2_draws (s : State) (i : Inst) : (s.readSr2 i).draws = s.draws := by simp [State.readSr2]

@[simp] theorem State.readSr2_inst_self (s : State) (i : Inst) : (s.readSr2 i).inst i = (s.inst i).answered := by cases i <;> rfl

theorem State.readSr2_inst_ne (s : State) (i : Inst) (j : Inst) (h : j ≠ i) : (s.readSr2 i).inst j = s.inst j := by
  cases i <;> cases j <;> first | rfl | exact absurd rfl h

/-! ### readDr -/

@[simp] theorem State.readDr_cfg (s : State) (i : Inst) : (s.readDr i).cfg = s.cfg := by simp [State.readDr]

@[simp] theorem State.readDr_pins (s : State) (i : Inst) : (s.readDr i).pins = s.pins := by simp [State.readDr]

@[simp] theorem State.readDr_slot (s : State) (i : Inst) : (s.readDr i).slot = s.slot := by simp [State.readDr]

@[simp] theorem State.readDr_res (s : State) (i : Inst) : (s.readDr i).res = s.res := by simp [State.readDr]

@[simp] theorem State.readDr_mark (s : State) (i : Inst) : (s.readDr i).mark = s.mark := by simp [State.readDr]

@[simp] theorem State.readDr_trace (s : State) (i : Inst) : (s.readDr i).trace = s.trace ++ [.rdr i (s.drValue i)] := by simp [State.readDr]

@[simp] theorem State.readDr_host (s : State) (i : Inst) : (s.readDr i).host = s.host := by simp [State.readDr]

@[simp] theorem State.readDr_lent (s : State) (i : Inst) : (s.readDr i).lent = s.lent := by simp [State.readDr]

@[simp] theorem State.readDr_replies (s : State) (i : Inst) : (s.readDr i).replies = s.replies := by simp [State.readDr]

@[simp] theorem State.readDr_draws (s : State) (i : Inst) : (s.readDr i).draws = s.draws := by simp [State.readDr]

@[simp] theorem State.readDr_inst_self (s : State) (i : Inst) : (s.readDr i).inst i = (s.inst i).answered := by cases i <;> rfl

theorem State.readDr_inst_ne (s : State) (i : Inst) (j : Inst) (h : j ≠ i) : (s.readDr i).inst j = s.inst j := by
  cases i <;> cases j <;> first | rfl | exact absurd rfl h

/-! ### drew -/

@[simp] theorem State.drew_cfg (s : State) (n : Nat) : (s.drew n).cfg = s.cfg := rfl

@[simp] theorem State.drew_pins (s : State) (n : Nat) : (s.drew n).pins = s.pins := rfl

@[simp] theorem State.drew_slot (s : State) (n : Nat) : (s.drew n).slot = s.slot := rfl

@[simp] theorem State.drew_res (s : State) (n : Nat) : (s.drew n).res = s.res := rfl

@[simp] theorem State.drew_mark (s : State) (n : Nat) : (s.drew n).mark = s.mark := rfl

@[simp] theorem State.drew_trace (s : State) (n : Nat) : (s.drew n).trace = s.trace := rfl

@[simp] theorem State.drew_host (s : State) (n : Nat) : (s.drew n).host = s.host := rfl

@[simp] theorem State.drew_lent (s : State) (n : Nat) : (s.drew n).lent = s.lent := rfl

@[simp] theorem State.drew_replies (s : State) (n : Nat) : (s.drew n).replies = s.replies := rfl

@[simp] theorem State.drew_draws (s : State) (n : Nat) : (s.drew n).draws = s.draws + n := rfl

@[simp] theorem State.drew_inst (s : State) (n : Nat) (j : Inst) : (s.drew n).inst j = s.inst j := by cases j <;> rfl

/-! ### yieldNow -/

@[simp] theorem State.yieldNow_cfg (s : State) (r : Res) : (s.yieldNow r).cfg = s.cfg := rfl

@[simp] theorem State.yieldNow_pins (s : State) (r : Res) : (s.yieldNow r).pins = s.pins := rfl

@[simp] theorem State.yieldNow_slot (s : State) (r : Res) : (s.yieldNow r).slot = s.slot := rfl

@[simp] theorem State.yieldNow_res (s : State) (r : Res) : (s.yieldNow r).res = r := rfl

@[simp] theorem State.yieldNow_mark (s : State) (r : Res) : (s.yieldNow r).mark = s.mark := rfl

@[simp] theorem State.yieldNow_trace (s : State) (r : Res) : (s.yieldNow r).trace = s.trace := rfl

@[simp] theorem State.yieldNow_host (s : State) (r : Res) : (s.yieldNow r).host = s.host := rfl

@[simp] theorem State.yieldNow_lent (s : State) (r : Res) : (s.yieldNow r).lent = s.lent := rfl

@[simp] theorem State.yieldNow_replies (s : State) (r : Res) : (s.yieldNow r).replies = s.replies ++ [.completed r []] := rfl

@[simp] theorem State.yieldNow_draws (s : State) (r : Res) : (s.yieldNow r).draws = s.draws := rfl

@[simp] theorem State.yieldNow_inst (s : State) (r : Res) (j : Inst) : (s.yieldNow r).inst j = s.inst j := by cases j <;> rfl

/-! ### finish -/

@[simp] theorem State.finish_cfg (s : State) (r : Res) (rb : List Byte) : (s.finish r rb).cfg = s.cfg := rfl

@[simp] theorem State.finish_pins (s : State) (r : Res) (rb : List Byte) : (s.finish r rb).pins = s.pins := rfl

@[simp] theorem State.finish_slot (s : State) (r : Res) (rb : List Byte) : (s.finish r rb).slot = none := rfl

@[simp] theorem State.finish_res (s : State) (r : Res) (rb : List Byte) : (s.finish r rb).res = r := rfl

@[simp] theorem State.finish_mark (s : State) (r : Res) (rb : List Byte) : (s.finish r rb).mark = s.mark := rfl

@[simp] theorem State.finish_trace (s : State) (r : Res) (rb : List Byte) : (s.finish r rb).trace = s.trace := rfl

@[simp] theorem State.finish_host (s : State) (r : Res) (rb : List Byte) : (s.finish r rb).host = s.host := rfl

@[simp] theorem State.finish_lent (s : State) (r : Res) (rb : List Byte) : (s.finish r rb).lent = s.lent := rfl

@[simp] theorem State.finish_replies (s : State) (r : Res) (rb : List Byte) : (s.finish r rb).replies = s.replies ++ [.completed r rb] := rfl

@[simp] theorem State.finish_draws (s : State) (r : Res) (rb : List Byte) : (s.finish r rb).draws = s.draws := rfl

@[simp] theorem State.finish_inst (s : State) (r : Res) (rb : List Byte) (j : Inst) : (s.finish r rb).inst j = s.inst j := by cases j <;> rfl

/-! ### complete -/

@[simp] theorem State.complete_cfg (s : State) (sl : Slot) : (s.complete sl).cfg = s.cfg := rfl

@[simp] theorem State.complete_pins (s : State) (sl : Slot) : (s.complete sl).pins = s.pins := rfl

@[simp] theorem State.complete_slot (s : State) (sl : Slot) : (s.complete sl).slot = none := rfl

@[simp] theorem State.complete_res (s : State) (sl : Slot) : (s.complete sl).res = .ok := rfl

@[simp] theorem State.complete_mark (s : State) (sl : Slot) : (s.complete sl).mark = s.mark := rfl

@[simp] theorem State.complete_trace (s : State) (sl : Slot) : (s.complete sl).trace = s.trace := rfl

@[simp] theorem State.complete_host (s : State) (sl : Slot) : (s.complete sl).host = s.host := rfl

@[simp] theorem State.complete_lent (s : State) (sl : Slot) : (s.complete sl).lent = s.lent := rfl

@[simp] theorem State.complete_replies (s : State) (sl : Slot) : (s.complete sl).replies = s.replies ++ [.completed .ok sl.rb] := rfl

@[simp] theorem State.complete_draws (s : State) (sl : Slot) : (s.complete sl).draws = s.draws := rfl

@[simp] theorem State.complete_inst (s : State) (sl : Slot) (j : Inst) : (s.complete sl).inst j = s.inst j := by cases j <;> rfl

/-! ### abort -/

@[simp] theorem State.abort_cfg (s : State) (sl : Slot) (r : Res) : (s.abort sl r).cfg = s.cfg := rfl

@[simp] theorem State.abort_pins (s : State) (sl : Slot) (r : Res) : (s.abort sl r).pins = s.pins := rfl

@[simp] theorem State.abort_slot (s : State) (sl : Slot) (r : Res) : (s.abort sl r).slot = none := rfl

@[simp] theorem State.abort_res (s : State) (sl : Slot) (r : Res) : (s.abort sl r).res = r := rfl

@[simp] theorem State.abort_mark (s : State) (sl : Slot) (r : Res) : (s.abort sl r).mark = s.mark := rfl

@[simp] theorem State.abort_trace (s : State) (sl : Slot) (r : Res) : (s.abort sl r).trace = s.trace := rfl

@[simp] theorem State.abort_host (s : State) (sl : Slot) (r : Res) : (s.abort sl r).host = s.host := rfl

@[simp] theorem State.abort_lent (s : State) (sl : Slot) (r : Res) : (s.abort sl r).lent = s.lent := rfl

@[simp] theorem State.abort_replies (s : State) (sl : Slot) (r : Res) : (s.abort sl r).replies = s.replies ++ [.completed r sl.rb] := rfl

@[simp] theorem State.abort_draws (s : State) (sl : Slot) (r : Res) : (s.abort sl r).draws = s.draws := rfl

@[simp] theorem State.abort_inst (s : State) (sl : Slot) (r : Res) (j : Inst) : (s.abort sl r).inst j = s.inst j := by cases j <;> rfl

/-! ### refuse -/

@[simp] theorem State.refuse_cfg (s : State) (r : RefuseReason) : (s.refuse r).cfg = s.cfg := rfl

@[simp] theorem State.refuse_pins (s : State) (r : RefuseReason) : (s.refuse r).pins = s.pins := rfl

@[simp] theorem State.refuse_slot (s : State) (r : RefuseReason) : (s.refuse r).slot = s.slot := rfl

@[simp] theorem State.refuse_res (s : State) (r : RefuseReason) : (s.refuse r).res = s.res := rfl

@[simp] theorem State.refuse_mark (s : State) (r : RefuseReason) : (s.refuse r).mark = true := rfl

@[simp] theorem State.refuse_trace (s : State) (r : RefuseReason) : (s.refuse r).trace = s.trace := rfl

@[simp] theorem State.refuse_host (s : State) (r : RefuseReason) : (s.refuse r).host = s.host := rfl

@[simp] theorem State.refuse_lent (s : State) (r : RefuseReason) : (s.refuse r).lent = s.lent := rfl

@[simp] theorem State.refuse_replies (s : State) (r : RefuseReason) : (s.refuse r).replies = s.replies ++ [.refused r] := rfl

@[simp] theorem State.refuse_draws (s : State) (r : RefuseReason) : (s.refuse r).draws = s.draws := rfl

@[simp] theorem State.refuse_inst (s : State) (r : RefuseReason) (j : Inst) : (s.refuse r).inst j = s.inst j := by cases j <;> rfl

/-! ### The binding of an instance: no operation changes it (R6) -/

@[simp] theorem State.setInst_layout (s : State) (i : Inst) (x : InstState) (j : Inst) : (s.setInst i x).layout j = s.layout j := by simp [State.layout]

@[simp] theorem State.setPins_layout (s : State) (m : PinMap) (j : Inst) : (s.setPins m).layout j = s.layout j := by simp [State.layout]

@[simp] theorem State.load_layout (s : State) (sl : Slot) (j : Inst) : (s.load sl).layout j = s.layout j := by simp [State.layout]

@[simp] theorem State.took_layout (s : State) (h : HostInput) (hs : List HostInput) (j : Inst) : (s.took h hs).layout j = s.layout j := by simp [State.layout]

@[simp] theorem State.emit_layout (s : State) (e : Event) (j : Inst) : (s.emit e).layout j = s.layout j := by simp [State.layout]

@[simp] theorem State.goto_layout (s : State) (sl : Slot) (l : Label) (j : Inst) : (s.goto sl l).layout j = s.layout j := by simp [State.layout]

@[simp] theorem State.writeCr1_layout (s : State) (i : Inst) (f : Cr1Field) (b : Bool) (j : Inst) : (s.writeCr1 i f b).layout j = s.layout j := by simp [State.layout]

@[simp] theorem State.writeDr_layout (s : State) (i : Inst) (v : Byte) (j : Inst) : (s.writeDr i v).layout j = s.layout j := by simp [State.layout]

@[simp] theorem State.writeRcc_layout (s : State) (i : Inst) (f : RccField) (b : Bool) (j : Inst) : (s.writeRcc i f b).layout j = s.layout j := by simp [State.layout]

@[simp] theorem State.readPort_layout (s : State) (i : Inst) (e : Event) (j : Inst) : (s.readPort i e).layout j = s.layout j := by simp [State.layout]

@[simp] theorem State.readSr1_layout (s : State) (i : Inst) (k : ReadKind) (j : Inst) : (s.readSr1 i k).layout j = s.layout j := by simp [State.layout]

@[simp] theorem State.readSr2_layout (s : State) (i : Inst) (j : Inst) : (s.readSr2 i).layout j = s.layout j := by simp [State.layout]

@[simp] theorem State.readDr_layout (s : State) (i : Inst) (j : Inst) : (s.readDr i).layout j = s.layout j := by simp [State.layout]

@[simp] theorem State.drew_layout (s : State) (n : Nat) (j : Inst) : (s.drew n).layout j = s.layout j := by simp [State.layout]

@[simp] theorem State.yieldNow_layout (s : State) (r : Res) (j : Inst) : (s.yieldNow r).layout j = s.layout j := by simp [State.layout]

@[simp] theorem State.finish_layout (s : State) (r : Res) (rb : List Byte) (j : Inst) : (s.finish r rb).layout j = s.layout j := by simp [State.layout]

@[simp] theorem State.complete_layout (s : State) (sl : Slot) (j : Inst) : (s.complete sl).layout j = s.layout j := by simp [State.layout]

@[simp] theorem State.abort_layout (s : State) (sl : Slot) (r : Res) (j : Inst) : (s.abort sl r).layout j = s.layout j := by simp [State.layout]

@[simp] theorem State.refuse_layout (s : State) (r : RefuseReason) (j : Inst) : (s.refuse r).layout j = s.layout j := by simp [State.layout]

/-! ### One instance -/

@[simp] theorem InstState.noteCr1_periph (x : InstState) (f : Cr1Field) (b : Bool) : (x.noteCr1 f b).periph = x.periph := by
  cases f <;> rfl

@[simp] theorem InstState.noteCr1_ctl (x : InstState) (f : Cr1Field) (b : Bool) : (x.noteCr1 f b).ctl = x.ctl := by
  cases f <;> rfl

@[simp] theorem InstState.noteCr1_answers (x : InstState) (f : Cr1Field) (b : Bool) : (x.noteCr1 f b).answers = x.answers := by
  cases f <;> rfl

@[simp] theorem InstState.noteCr1_reads (x : InstState) (f : Cr1Field) (b : Bool) : (x.noteCr1 f b).reads = x.reads := by
  cases f <;> rfl

@[simp] theorem InstState.answered_periph (x : InstState) : x.answered.periph = x.periph := rfl

@[simp] theorem InstState.answered_ctl (x : InstState) : x.answered.ctl = x.ctl := rfl

@[simp] theorem InstState.answered_sh (x : InstState) : x.answered.sh = x.sh := rfl

@[simp] theorem InstState.answered_bracketOpen (x : InstState) : x.answered.bracketOpen = x.bracketOpen := rfl

@[simp] theorem InstState.answered_answers (x : InstState) : x.answered.answers = x.answers.tail := rfl

@[simp] theorem InstState.answered_reads (x : InstState) : x.answered.reads = x.reads + 1 := rfl

/-- An answer the script holds is the next one read. -/
theorem State.answer_of_script (s : State) (i : Inst) (v : Half) (vs : List Half) (h : (s.inst i).answers = v :: vs) :
    s.answer i = v := by
  simp [State.answer, InstState.answer, h]

end Sys2Proof.Machine
end

