-- ==== Sys2Proof/Laws/Step.lean ====
section
/-! SUPPORT. What each shared operation can do, said once: a command in flight, the poll, a store into the read buffer,
a command presented to an idle sequencer, and a step. -/

namespace Sys2Proof.Machine
open Host

/-! ### A command in flight -/

theorem exec_conf {s : State} {sl : Slot} {i scl sda freq clk l} (h : s.slot = some sl)
    (hc : sl.cmd = .configure i scl sda freq clk) (hu : sl.upc = .conf l) :
    exec sl.cmd s = .next (confStep l sl s) := by
  rw [hc]; simp [exec, execConfigure, h, hc, hu]

theorem exec_wr_write {s : State} {sl : Slot} {i a wb l} (h : s.slot = some sl)
    (hc : sl.cmd = .write i a wb) (hu : sl.upc = .wr l) : exec sl.cmd s = wrStep l sl s := by
  rw [hc]; simp [exec, execWrite, h, hc, hu]

theorem exec_wr_writeRead {s : State} {sl : Slot} {i a wb m l} (h : s.slot = some sl)
    (hc : sl.cmd = .writeRead i a wb m) (hu : sl.upc = .wr l) : exec sl.cmd s = wrStep l sl s := by
  rw [hc]; simp [exec, execWriteRead, h, hc, hu]

theorem exec_rd {s : State} {sl : Slot} {i a wb m l} (h : s.slot = some sl)
    (hc : sl.cmd = .writeRead i a wb m) (hu : sl.upc = .rd l) : exec sl.cmd s = rdStep l sl s := by
  rw [hc]; simp [exec, execWriteRead, h, hc, hu]

/-- A command of the write phase: WRITE or WRITE_READ. -/
def IsTransfer (c : Instr) : Prop := (∃ i a wb, c = .write i a wb) ∨ ∃ i a wb m, c = .writeRead i a wb m

theorem exec_wr {s : State} {sl : Slot} {l} (h : s.slot = some sl) (hc : IsTransfer sl.cmd) (hu : sl.upc = .wr l) :
    exec sl.cmd s = wrStep l sl s := by
  rcases hc with ⟨i, a, wb, hc⟩ | ⟨i, a, wb, m, hc⟩
  · exact exec_wr_write h hc hu
  · exact exec_wr_writeRead h hc hu

theorem exec_done {s : State} {sl : Slot} (h : s.slot = some sl) (hl : LabelOk sl) (hu : sl.upc = .done) :
    exec sl.cmd s = .next (s.complete sl) := by
  cases hc : sl.cmd <;>
    simp [LabelOk, hc, hu] at hl <;> simp [exec, execConfigure, execWrite, execWriteRead, h, hc, hu]

/-- What a command in flight does, by the label it has reached. -/
theorem exec_inFlight_cases {s t : State} {sl : Slot} (h : s.slot = some sl) (he : exec sl.cmd s = .next t) :
    (∃ l i scl sda f c, sl.upc = .conf l ∧ sl.cmd = .configure i scl sda f c ∧ t = confStep l sl s) ∨
    (∃ l, sl.upc = .wr l ∧ IsTransfer sl.cmd ∧ wrStep l sl s = .next t) ∨
    (∃ l i a wb m, sl.upc = .rd l ∧ sl.cmd = .writeRead i a wb m ∧ rdStep l sl s = .next t) ∨
    (sl.upc = .done ∧ t = s.complete sl) := by
  cases hc : sl.cmd with
  | configure i scl sda f c =>
    cases hu : sl.upc <;> simp [hc, exec, execConfigure, h, hu] at he <;> simp_all
  | release i => simp [hc, exec, execRelease, h] at he
  | drop i => simp [hc, exec, execDrop, h] at he
  | write i a wb =>
    cases hu : sl.upc <;> simp [hc, exec, execWrite, h, hu] at he <;> simp_all [IsTransfer]
  | writeRead i a wb m =>
    cases hu : sl.upc <;> simp [hc, exec, execWriteRead, h, hu] at he <;> simp_all [IsTransfer]

/-! ### The poll -/

theorem poll_of_satisfies {s : State} {sl : Slot} {f : Flag} {L : Label}
    (h : Satisfies (s.layout sl.inst) f (s.answer sl.inst)) : s.poll sl f L = (s.readSr1 sl.inst .poll).goto sl L := by
  obtain ⟨h1, h2, h3⟩ := h
  simp [State.poll, pollVerdict, h1, h2, h3]

theorem poll_of_pending {s : State} {sl : Slot} {f : Flag} {L : Label}
    (h : Pending (s.layout sl.inst) f (s.answer sl.inst)) : s.poll sl f L = (s.readSr1 sl.inst .poll).goto sl sl.upc := by
  obtain ⟨h1, h2, h3⟩ := h
  simp [State.poll, pollVerdict, h1, h2, h3]

theorem poll_of_error {s : State} {sl : Slot} {f : Flag} {L : Label} {r : Res}
    (h : errorOf (s.layout sl.inst) (s.answer sl.inst) = some r) : s.poll sl f L = (s.readSr1 sl.inst .poll).abort sl r := by
  unfold errorOf at h
  by_cases h1 : berrSet (s.layout sl.inst) (s.answer sl.inst)
  · simp [h1] at h; simp [State.poll, pollVerdict, h1, ← h]
  · by_cases h2 : arloSet (s.layout sl.inst) (s.answer sl.inst)
    · simp [h1, h2] at h; simp [State.poll, pollVerdict, h1, h2, ← h]
    · simp [h1, h2] at h

/-- Everything a poll can do. -/
theorem poll_cases (s : State) (sl : Slot) (f : Flag) (L : Label) :
    (∃ r, s.poll sl f L = (s.readSr1 sl.inst .poll).abort sl r) ∨
    (Satisfies (s.layout sl.inst) f (s.answer sl.inst) ∧ s.poll sl f L = (s.readSr1 sl.inst .poll).goto sl L) ∨
    s.poll sl f L = (s.readSr1 sl.inst .poll).goto sl sl.upc := by
  cases h : errorOf (s.layout sl.inst) (s.answer sl.inst) with
  | some r => exact .inl ⟨r, poll_of_error h⟩
  | none =>
    have h1 : berrSet (s.layout sl.inst) (s.answer sl.inst) = false := by
      cases hh : berrSet (s.layout sl.inst) (s.answer sl.inst) <;> simp_all [errorOf]
    have h2 : arloSet (s.layout sl.inst) (s.answer sl.inst) = false := by
      cases hh : arloSet (s.layout sl.inst) (s.answer sl.inst) <;> simp_all [errorOf]
    cases h3 : flagSet (s.layout sl.inst) f (s.answer sl.inst)
    · exact .inr (.inr (poll_of_pending ⟨h3, h1, h2⟩))
    · exact .inr (.inl ⟨⟨h3, h1, h2⟩, poll_of_satisfies ⟨h3, h1, h2⟩⟩)

/-! ### One port access -/

/-- What a micro-step does at the ports of instance `i` before it moves on. -/
inductive PortOp (i : Inst) (sl : Slot) (s : State) : State → Prop where
  | nothing : sl.upc = .done → PortOp i sl s s
  | draw : sl.upc = .rd .t3Fill → PortOp i sl s (s.drew 1)
  | cr1 (f : Cr1Field) (b : Bool) : (b = true ∨ f = .ack) → ((∃ l, sl.upc = .wr l) → f = .start ∨ f = .stop) →
      sl.upc ≠ .done →
      PortOp i sl s (s.writeCr1 i f b)
  | dr (v : Byte) : PortOp i sl s (s.writeDr i v)
  | en : sl.upc = .conf .en → PortOp i sl s (s.writeRcc i .en true)
  | rstSet : sl.upc = .conf .rsts →
      PortOp i sl s ((s.writeRcc i .rst true).setInst i { s.inst i with sh := ⟨none, none, none⟩ })
  | rstClear : sl.upc = .conf .rstc →
      PortOp i sl s ((s.writeRcc i .rst false).setInst i { s.inst i with bracketOpen := false })
  | sr1 (k : ReadKind) : PortOp i sl s (s.readSr1 i k)
  | sr2 : PortOp i sl s (s.readSr2 i)
  | rd : PortOp i sl s (s.readDr i)

/-- The registers a micro-step never changes. -/
def SameRegisters (sl sl' : Slot) : Prop :=
  sl'.cmd = sl.cmd ∧ sl'.inst = sl.inst ∧ sl'.addr7 = sl.addr7 ∧ sl'.wlen = sl.wlen ∧ sl'.wb = sl.wb ∧
    sl'.rlen = sl.rlen ∧ sl'.sclid = sl.sclid ∧ sl'.sdaid = sl.sdaid ∧ sl'.instsel = sl.instsel ∧
    sl'.rb.length = sl.rb.length

theorem SameRegisters.refl (sl : Slot) : SameRegisters sl sl := ⟨rfl, rfl, rfl, rfl, rfl, rfl, rfl, rfl, rfl, rfl⟩

/-- One micro-step: a port operation, and then either the next label with the registers kept, or the end. -/
def MicroShape (sl : Slot) (s t : State) : Prop :=
  ∃ s₁, PortOp sl.inst sl s s₁ ∧
    ((∃ sl' l, SameRegisters sl sl' ∧ t = s₁.goto sl' l) ∨ ∃ r, t = s₁.finish r sl.rb)

theorem poll_shape (s : State) (sl : Slot) (f : Flag) (L : Label) : MicroShape sl s (s.poll sl f L) := by
  refine ⟨s.readSr1 sl.inst .poll, .sr1 .poll, ?_⟩
  rcases poll_cases s sl f L with ⟨r, h⟩ | ⟨-, h⟩ | h
  · exact .inr ⟨r, h⟩
  · exact .inl ⟨sl, L, .refl sl, h⟩
  · exact .inl ⟨sl, sl.upc, .refl sl, h⟩

theorem confStep_shape {s : State} {sl : Slot} {l : ConfLabel} (hu : sl.upc = .conf l) :
    MicroShape sl s (confStep l sl s) := by
  cases l
  · exact ⟨_, .en hu, .inl ⟨sl, _, .refl sl, rfl⟩⟩
  · exact ⟨_, .rstSet hu, .inl ⟨sl, .conf .rstc, .refl sl, by simp [confStep]⟩⟩
  · exact ⟨_, .rstClear hu, .inl ⟨sl, .conf .pe, .refl sl, by simp [confStep]⟩⟩
  · exact ⟨_, .cr1 .pe true (.inl rfl) (by simp [hu]) (by simp [hu]), .inl ⟨sl, _, .refl sl, rfl⟩⟩

theorem wrStep_shape {s t : State} {sl : Slot} {l : WrLabel} (hu : sl.upc = .wr l) (h : wrStep l sl s = .next t) :
    MicroShape sl s t := by
  cases l <;> simp only [wrStep, Outcome.next.injEq] at h
  case data =>
    unfold sendByte at h
    split at h
    · cases h
    · cases h; exact ⟨_, .dr _, .inl ⟨{ sl with k := sl.k + 1 }, _, ⟨rfl, rfl, rfl, rfl, rfl, rfl, rfl, rfl, rfl, rfl⟩, rfl⟩⟩
  all_goals subst h
  case start => exact ⟨_, .cr1 .start true (.inl rfl) (by simp) (by simp [hu]), .inl ⟨sl, _, .refl sl, rfl⟩⟩
  case stop => exact ⟨_, .cr1 .stop true (.inl rfl) (by simp) (by simp [hu]), .inl ⟨sl, _, .refl sl, rfl⟩⟩
  case addr => exact ⟨_, .dr _, .inl ⟨sl, _, .refl sl, rfl⟩⟩
  case sr2 => exact ⟨_, .sr2, .inl ⟨sl, _, .refl sl, rfl⟩⟩
  all_goals exact poll_shape ..

theorem storeRb_some {rb rb' : List Byte} {n : Nat} {v : Byte} (h : storeRb rb n v = some rb') :
    n < rb.length ∧ rb' = rb.set n v := by
  unfold storeRb at h
  split at h
  · next hn => exact ⟨hn, by simpa using h.symm⟩
  · cases h

theorem receive_cases {s t : State} {sl : Slot} {n : Nat} {k : BitVec 16} {L : Label}
    (h : receive sl n k L s = .next t) :
    n < sl.rb.length ∧
      t = (s.readDr sl.inst).goto { sl with rb := sl.rb.set n (s.drValue sl.inst), k := k } L := by
  unfold receive at h
  split at h
  · cases h
  · next rb hrb => obtain ⟨hn, rfl⟩ := storeRb_some hrb; cases h; exact ⟨hn, rfl⟩

theorem fillLast_cases {s t : State} {sl : Slot} (h : fillLast sl s = .next t) :
    sl.rlen.toNat - 3 + 2 < sl.rb.length ∧
      t = (s.drew 1).goto { sl with rb := sl.rb.set (sl.rlen.toNat - 3 + 2) s.drawn } .done := by
  unfold fillLast at h
  split at h
  · cases h
  · next rb hrb => obtain ⟨hn, rfl⟩ := storeRb_some hrb; cases h; exact ⟨hn, rfl⟩

theorem receive_shape {s t : State} {sl : Slot} {n : Nat} {k : BitVec 16} {L : Label}
    (h : receive sl n k L s = .next t) : MicroShape sl s t := by
  obtain ⟨-, rfl⟩ := receive_cases h
  exact ⟨_, .rd, .inl ⟨{ sl with rb := sl.rb.set n (s.drValue sl.inst), k := k }, _, ⟨rfl, rfl, rfl, rfl, rfl, rfl, rfl, rfl, rfl, by simp⟩, rfl⟩⟩

theorem rdStep_shape {s t : State} {sl : Slot} {l : RdLabel} (hu : sl.upc = .rd l) (h : rdStep l sl s = .next t) :
    MicroShape sl s t := by
  cases l <;> simp only [rdStep, Outcome.next.injEq] at h
  case dRd => exact receive_shape h
  case t1Rd => exact receive_shape h
  case t2Rd0 => exact receive_shape h
  case t2Rd1 => exact receive_shape h
  case t3Rd0 => exact receive_shape h
  case t3Rd1 => exact receive_shape h
  case t3Fill =>
    obtain ⟨-, rfl⟩ := fillLast_cases h
    exact ⟨_, .draw hu, .inl ⟨{ sl with rb := sl.rb.set (sl.rlen.toNat - 3 + 2) s.drawn }, _, ⟨rfl, rfl, rfl, rfl, rfl, rfl, rfl, rfl, rfl, by simp⟩, rfl⟩⟩
  all_goals subst h
  case ack1 => exact ⟨_, .cr1 .ack true (.inl rfl) (by simp [hu]) (by simp [hu]), .inl ⟨sl, _, .refl sl, rfl⟩⟩
  case start => exact ⟨_, .cr1 .start true (.inl rfl) (by simp [hu]) (by simp [hu]), .inl ⟨sl, _, .refl sl, rfl⟩⟩
  case addr => exact ⟨_, .dr _, .inl ⟨sl, _, .refl sl, rfl⟩⟩
  case nack0 => exact ⟨_, .cr1 .ack false (.inr rfl) (by simp [hu]) (by simp [hu]), .inl ⟨sl, _, .refl sl, rfl⟩⟩
  case pos => exact ⟨_, .cr1 .pos true (.inl rfl) (by simp [hu]) (by simp [hu]), .inl ⟨sl, _, .refl sl, rfl⟩⟩
  case sr1 => exact ⟨_, .sr1 .dummy, .inl ⟨sl, _, .refl sl, rfl⟩⟩
  case sr2 =>
    exact ⟨_, .sr2, .inl ⟨{ sl with k := 0 }, _, ⟨rfl, rfl, rfl, rfl, rfl, rfl, rfl, rfl, rfl, rfl⟩, rfl⟩⟩
  case t1Stop => exact ⟨_, .cr1 .stop true (.inl rfl) (by simp [hu]) (by simp [hu]), .inl ⟨sl, _, .refl sl, rfl⟩⟩
  case t2Stop => exact ⟨_, .cr1 .stop true (.inl rfl) (by simp [hu]) (by simp [hu]), .inl ⟨sl, _, .refl sl, rfl⟩⟩
  case t3Stop => exact ⟨_, .cr1 .stop true (.inl rfl) (by simp [hu]) (by simp [hu]), .inl ⟨sl, _, .refl sl, rfl⟩⟩
  case t3Nack => exact ⟨_, .cr1 .ack false (.inr rfl) (by simp [hu]) (by simp [hu]), .inl ⟨sl, _, .refl sl, rfl⟩⟩
  all_goals exact poll_shape ..

/-- Every micro-step is one port operation and then the next label or the end. -/
theorem exec_inFlight_shape {s t : State} {sl : Slot} (h : s.slot = some sl) (he : exec sl.cmd s = .next t) :
    MicroShape sl s t := by
  rcases exec_inFlight_cases h he with ⟨l, i, scl, sda, f, c, hu, -, rfl⟩ | ⟨l, hu, -, hw⟩ | ⟨l, i, a, wb, m, hu, -, hr⟩ |
      ⟨hu, rfl⟩
  · exact confStep_shape hu
  · exact wrStep_shape hu hw
  · exact rdStep_shape hu hr
  · exact ⟨s, .nothing hu, .inr ⟨.ok, rfl⟩⟩

/-! ### A command presented to an idle sequencer -/

/-- Everything a command can do when it is presented to an idle sequencer. -/
theorem exec_idle_cases {s t : State} {i : Instr} (h : s.slot = none) (he : exec i s = .next t) :
    (∃ r, t = s.refuse r) ∨
    (∃ j scl sda f c, i = .configure j scl sda f c ∧ configureRefusal j scl sda s = none ∧
      t = acceptConfigure j scl sda f c s) ∨
    (∃ j c, i = .release j ∧ liveController j s = some c ∧ t = endController j c .host .host s) ∨
    (∃ j c, i = .drop j ∧ liveController j s = some c ∧ t = endController j c .gone .gone s) ∨
    (∃ j a wb, i = .write j a wb ∧ transferRefusal i s = none ∧ t = s.load (writeSlot j a wb)) ∨
    (∃ j a wb m, i = .writeRead j a wb m ∧ transferRefusal i s = none ∧ t = acceptWriteRead j a wb m s) := by
  cases i with
  | configure j scl sda f c =>
    simp only [exec, execConfigure, h] at he
    split at he <;> cases he
    · exact .inl ⟨_, rfl⟩
    · next hr => exact .inr (.inl ⟨j, scl, sda, f, c, rfl, hr, rfl⟩)
  | release j =>
    simp only [exec, execRelease, h] at he
    split at he <;> cases he
    · next c hc => exact .inr (.inr (.inl ⟨j, c, rfl, hc, rfl⟩))
    · exact .inl ⟨_, rfl⟩
  | drop j =>
    simp only [exec, execDrop, h] at he
    split at he <;> cases he
    · next c hc => exact .inr (.inr (.inr (.inl ⟨j, c, rfl, hc, rfl⟩)))
    · exact .inl ⟨_, rfl⟩
  | write j a wb =>
    simp only [exec, execWrite, h] at he
    split at he <;> cases he
    · exact .inl ⟨_, rfl⟩
    · next hr => exact .inr (.inr (.inr (.inr (.inl ⟨j, a, wb, rfl, hr, rfl⟩))))
  | writeRead j a wb m =>
    simp only [exec, execWriteRead, h] at he
    split at he <;> cases he
    · exact .inl ⟨_, rfl⟩
    · next hr => exact .inr (.inr (.inr (.inr (.inr ⟨j, a, wb, m, rfl, hr, rfl⟩))))

/-- With the slot empty every command has a next state. -/
theorem exec_idle_next {s : State} (i : Instr) (h : s.slot = none) : ∃ t, exec i s = .next t := by
  cases i <;> simp only [exec, execConfigure, execRelease, execDrop, execWrite, execWriteRead, h] <;> split <;>
    exact ⟨_, rfl⟩

/-! ### A step -/

theorem step_inFlight {s : State} {sl : Slot} (h : s.slot = some sl) : step s = exec sl.cmd s := by
  simp [step, h]

/-- Everything a step can do. -/
theorem step_cases {s t : State} (h : step s = .next t) :
    (∃ sl, s.slot = some sl ∧ exec sl.cmd s = .next t) ∨
    (s.slot = none ∧ s.host = [] ∧ t = s) ∨
    (∃ x hs i, s.slot = none ∧ s.host = x :: hs ∧ x.command = .ok i ∧ exec i (s.took x hs) = .next t) ∨
    (∃ x hs r, s.slot = none ∧ s.host = x :: hs ∧ x.command = .error r ∧ t = (s.took x hs).refuse r) := by
  cases hs : s.slot with
  | some sl => exact .inl ⟨sl, rfl, by rwa [step_inFlight hs] at h⟩
  | none =>
    cases hh : s.host with
    | nil =>
      simp [step, hs, takeInput, hh] at h
      exact .inr (.inl ⟨rfl, rfl, h.symm⟩)
    | cons x xs =>
      cases hc : x.command with
      | ok i =>
        simp [step, hs, takeInput, hh, hc] at h
        exact .inr (.inr (.inl ⟨x, xs, i, rfl, rfl, hc, h⟩))
      | error r =>
        simp [step, hs, takeInput, hh, hc] at h
        exact .inr (.inr (.inr ⟨x, xs, r, rfl, rfl, hc, h.symm⟩))
end Sys2Proof.Machine
end

