-- ==== Sys2Proof/Laws/Run.lean ====
section
/-! SUPPORT. One step of a run, what a poll label runs, what each acceptance check lets through, and what a port
operation leaves alone. -/

namespace Sys2Proof.Machine
open Host

/-! ### Runs -/

theorem core_run_succ (M : Host.Core) {s t : M.State} {n : Nat} (h : M.step s = .next t) :
    M.run (n + 1) s = M.run n t := by
  rw [Core.run, h]

theorem core_run_add (M : Host.Core) {m n : Nat} :
    ∀ {s t : M.State}, M.run m s = .next t → M.run (m + n) s = M.run n t := by
  induction m with
  | zero =>
    intro s t h
    have hst : s = t := Outcome.next.inj h
    simp [hst]
  | succ m ih =>
    intro s t h
    rw [Nat.add_right_comm]
    rw [Core.run] at h ⊢
    split at h
    · next hs => exact ih h
    · cases h
    · cases h

/-- A run takes one step and goes on. -/
theorem run_succ {s t : State} {n : Nat} (h : step s = .next t) : Core.run core (n + 1) s = Core.run core n t :=
  core_run_succ core h

/-- Runs follow one another. -/
theorem run_add {s t : State} {m n : Nat} (h : Core.run core m s = .next t) :
    Core.run core (m + n) s = Core.run core n t :=
  core_run_add core h

/-! ### The command in flight -/

theorem inFlight_wr {s : State} {sl : Slot} {l : WrLabel} (h : InFlight s sl) (hu : sl.upc = .wr l) :
    IsTransfer sl.cmd ∧ WrIndexOk l sl := by
  obtain ⟨-, hr, hl⟩ := h
  cases hc : sl.cmd <;> simp [LabelOk, hc, hu] at hl <;> simp [IsTransfer, hl]

theorem inFlight_rd {s : State} {sl : Slot} {l : RdLabel} (h : InFlight s sl) (hu : sl.upc = .rd l) :
    (∃ i a wb m, sl.cmd = .writeRead i a wb m ∧ sl.rlen.toNat = m ∧ sl.rb.length = m) ∧ RdLengthOk l sl := by
  obtain ⟨-, hr, hl⟩ := h
  cases hc : sl.cmd <;> simp [LabelOk, hc, hu] at hl; simp [hl]
  simp [RegistersOk, hc] at hr
  simp [hr]

/-- At a poll label a command in flight polls. -/
theorem exec_poll {s : State} {sl : Slot} {f : Flag} {L : Label} (h : InFlight s sl) (hp : pollAt sl = some (f, L)) :
    exec sl.cmd s = .next (s.poll sl f L) := by
  have hs := h.1
  cases hu : sl.upc with
  | conf l => simp [pollAt, hu] at hp
  | done => simp [pollAt, hu] at hp
  | wr l =>
    rw [exec_wr hs (inFlight_wr h hu).1 hu]
    cases l <;> simp [pollAt, hu] at hp <;> obtain ⟨rfl, rfl⟩ := hp <;> rfl
  | rd l =>
    obtain ⟨⟨i, a, wb, m, hc, -, -⟩, -⟩ := inFlight_rd h hu
    rw [exec_rd hs hc hu]
    have hn : ∀ n : BitVec 16, (n = 1 ∨ n = 2) ↔ (n.toNat = 1 ∨ n.toNat = 2) := by
      intro n; simp [← BitVec.toNat_inj]
    cases l <;> simp [pollAt, hu] at hp <;> obtain ⟨rfl, rfl⟩ := hp <;> try rfl
    simp only [rdStep, ← hn]; rfl

/-- A micro-step that goes on to a label performs what its port operation did. -/
theorem performs_of {s s₁ : State} {sl sl' : Slot} {l : Label} {es : List Event} {x : InstState}
    (he : exec sl.cmd s = .next (s₁.goto sl' l)) (h1 : s₁.trace = s.trace ++ es) (h2 : s₁.inst sl.inst = x)
    (h3 : s₁.res = s.res) (h4 : s₁.replies = s.replies) (h5 : s₁.draws = s.draws) (h6 : SameElsewhere sl.inst s s₁) :
    Performs s sl { sl' with upc := l } es x := by
  obtain ⟨a, b, c, d, e, f⟩ := h6
  exact ⟨_, he, by simp, by simpa using h1, by simpa using h2, by simpa using h3, by simpa using h4, by simpa using h5,
    fun j hj => by simpa using a j hj, by simpa using b, by simpa using c, by simpa using d, by simpa using e,
    by simpa using f⟩

/-! ### Acceptance -/

/-- A CONFIGURE passes its checks exactly when R79's four conditions hold. -/
theorem configureRefusal_none {i : Inst} {scl sda : PinId} {s : State} :
    configureRefusal i scl sda s = none ↔ s.cfg.capOk i scl sda = true ∧ (s.inst i).periph = .host ∧
      s.pins.get scl = .host ∧ s.pins.get sda = .host ∧ scl ≠ sda := by
  constructor
  · intro h
    unfold configureRefusal at h
    split at h; · cases h
    split at h; · cases h
    split at h; · cases h
    split at h; · cases h
    simp_all
  · rintro ⟨h1, h2, h3, h4, h5⟩; simp [configureRefusal, h1, h2, h3, h4, h5]

/-- A transfer passes its checks exactly when it can be spelled and its instance has a controller. -/
theorem transferRefusal_none {c : Instr} {s : State} :
    transferRefusal c s = none ↔ c.wf = true ∧ (s.inst c.inst).periph = .bound := by
  constructor
  · intro h
    unfold transferRefusal at h
    split at h; · cases h
    split at h; · cases h
    simp_all
  · rintro ⟨h1, h2⟩; simp [transferRefusal, h1, h2]

/-- A lent buffer has the length asked for. -/
theorem lentBuffer_length (n : Nat) (l : List Byte) (d : Nat) : (lentBuffer n l d).length = n := by
  induction n generalizing l d with
  | zero => rfl
  | succ n ih => cases l <;> simp [lentBuffer, ih]

/-- A lent buffer begins with what the host spelled out. -/
theorem lentBuffer_getElem? {n k d : Nat} {l : List Byte} (hn : k < n) (hl : k < l.length) :
    (lentBuffer n l d)[k]? = l[k]? := by
  induction n generalizing l k with
  | zero => omega
  | succ n ih =>
    cases l with
    | nil => simp at hl
    | cons b bs =>
      cases k with
      | zero => simp [lentBuffer]
      | succ k => simp [lentBuffer]; exact ih (by omega) (by simpa using hl)

/-! ### What is left alone -/

/-- A port operation adds at most one event, of its own instance. -/
theorem PortOp.trace_cases {i : Inst} {sl : Slot} {s t : State} (h : PortOp i sl s t) :
    t.trace = s.trace ∨ ∃ e, t.trace = s.trace ++ [e] ∧ e.inst = i := by
  cases h <;> simp [Event.inst]

/-- A port operation changes no owner. -/
theorem PortOp.owners {i : Inst} {sl : Slot} {s t : State} (h : PortOp i sl s t) (j : Inst) :
    (t.inst j).ctl = (s.inst j).ctl ∧ (t.inst j).periph = (s.inst j).periph := by
  by_cases hj : j = i
  · subst hj; cases h <;> simp
  · cases h <;> simp [State.writeCr1_inst_ne, State.readSr1_inst_ne, State.readSr2_inst_ne, State.readDr_inst_ne,
      State.setInst_inst_ne, hj]

/-- A port operation touches neither the pins nor what the host has got back. -/
theorem PortOp.pins {i : Inst} {sl : Slot} {s t : State} (h : PortOp i sl s t) :
    t.pins = s.pins ∧ t.replies = s.replies ∧ t.mark = s.mark := by
  cases h <;> simp

/-- Presenting a command makes no port access. -/
theorem exec_idle_trace {s t : State} {i : Instr} (h : s.slot = none) (he : exec i s = .next t) :
    t.trace = s.trace := by
  rcases exec_idle_cases h he with ⟨r, rfl⟩ | ⟨j, scl, sda, f, c, -, -, rfl⟩ | ⟨j, c, -, -, rfl⟩ | ⟨j, c, -, -, rfl⟩ |
      ⟨j, a, wb, -, -, rfl⟩ | ⟨j, a, wb, m, -, -, rfl⟩ <;>
    simp [acceptConfigure, endController, acceptWriteRead]

/-- The shadow and the ghost bit after one more event. -/
theorem shadowOf_append (i : Inst) (tr : List Event) (e : Event) :
    shadowOf i (tr ++ [e]) = shadowAfter i (shadowOf i tr) e := by simp [shadowOf]

theorem openOf_append (i : Inst) (tr : List Event) (e : Event) :
    openOf i (tr ++ [e]) = openAfter i (openOf i tr) e := by simp [openOf]

end Sys2Proof.Machine
end

