-- ==== Sys2Proof/Tests/Slice0.lean ====
section
/-! SUPPORT. Tests against the vectors of spec/95_test_vectors.md and the tables of the rules, one step each; and for
every obligation with hypotheses a concrete state and operands that meet them (`witness` in the name). -/

namespace Sys2Proof.Tests

open Sys2Proof.Machine

/-! ### Small states -/

/-- The state after V-C1: instance A bound with PB6 and PB7, the oracle about to answer `ans`. -/
def boundA (ans : List Half) (lent : List Byte) : State :=
  { State.reset with
    instA := { InstState.reset with
      periph := .bound, ctl := some ⟨0x16, 0x17⟩, sh := ⟨some true, none, none⟩, answers := ans }
    pins := [(0x16, .bound .a .scl), (0x17, .bound .a .sda)]
    lent := lent }

/-- The state after V-C1 with a command in flight. -/
def flying (sl : Slot) (ans : List Half) : State := { boundA ans [] with slot := some sl }

/-- S0 with the capability facts of V-C10 and V-C11 added. -/
def customS0 : State :=
  { State.reset with cfg := { Config.default with cap := ⟨0x16, .b, .scl⟩ :: ⟨0x16, .a, .sda⟩ :: defaultCap } }

/-- The same after V-C1. -/
def customBound : State := { boundA [] [] with cfg := customS0.cfg }

/-- S0 with the host presenting one thing. -/
def presenting (h : HostInput) : State := { State.reset with host := [h] }

def confSlot (l : Label) : Slot := { configureSlot .a 0x16 0x17 0 0 with upc := l }

def wrSlot (l : WrLabel) (k : BitVec 16) : Slot := { writeSlot .a 0x50 [0x10, 0x20] with upc := .wr l, k := k }

def rdSlot (l : RdLabel) (m : Nat) : Slot :=
  { writeReadSlot .a 0x50 [0x10] m (List.replicate m 0xEE) with upc := .rd l }

/-- Oracle answers of the test vectors' conventions: each poll at its first read, each dummy SR2 read 0x0003. -/
def plainWrite (n : Nat) : WriteAnswers := ⟨0x0001, 0x0002, 0x0003, List.replicate n 0x0080, 0x0004⟩

def plainRead : ReadAnswers := ⟨0x0001, 0x0002, 0x0000, 0x0003⟩

def plainTail : TailAnswers := ⟨0x0040, 0x0004, 0x0040, 0x0004, 0x00C1, 0x00C2⟩

/-! ### Decoding: words from the encodings of R55 to R58 -/

/-- V-F1 and V-F2. -/
theorem test_decode_configure :
    decode [0x00171601, 0x000186A0, 0x007A1200] = some (.configure .a 0x16 0x17 100000 8000000, []) ∧
    decode [0x001B1A11, 0x00061A80, 0x02255100] = some (.configure .b 0x1A 0x1B 400000 36000000, []) := by decide

/-- V-F3, and OP 2 with INST set. -/
theorem test_decode_release :
    decode [0x00000002] = some (.release .a, []) ∧ decode [0x00000012] = some (.release .b, []) := by decide

/-- V-F4, and OP 5 with INST clear. -/
theorem test_decode_drop :
    decode [0x00000015] = some (.drop .b, []) ∧ decode [0x00000005] = some (.drop .a, []) := by decide

/-- V-F5 to V-F9. -/
theorem test_decode_write :
    decode [0x00015003, 0x00000010] = some (.write .a 0x50 [0x10], []) ∧
    decode [0x00035003, 0x00302010] = some (.write .a 0x50 [0x10, 0x20, 0x30], []) ∧
    decode [0x00055003, 0x04030201, 0x00000005] = some (.write .a 0x50 [1, 2, 3, 4, 5], []) ∧
    decode [0x00005003] = some (.write .a 0x50 [], []) ∧
    decode [0x00017F13, 0x000000FF] = some (.write .b 0x7F [0xFF], []) := by decide

/-- V-F10 to V-F12. -/
theorem test_decode_writeRead :
    decode [0x00015004, 0x00000002, 0x00000010] = some (.writeRead .a 0x50 [0x10] 2, []) ∧
    decode [0x00005004, 0x00000000] = some (.writeRead .a 0x50 [] 0, []) ∧
    decode [0x00016814, 0x00000007, 0x0000003B] = some (.writeRead .b 0x68 [0x3B] 7, []) := by decide

/-- V-F13 to V-F18. -/
theorem test_decode_refuses_reserved :
    decode [0x00000000] = none ∧ decode [0x00000006] = none ∧ decode [0x0000000F] = none ∧
    decode [0x00000022] = none ∧ decode [0x00000102] = none ∧
    decode [0x01171601, 0x00000000, 0x00000000] = none := by decide

/-- V-F19 to V-F23. -/
theorem test_decode_refuses_transfers :
    decode [0x0001D003, 0x00000010] = none ∧ decode [0x00015004, 0x00010002, 0x00000010] = none ∧
    decode [0x00015003, 0x00000110] = none ∧ decode [0x00055003, 0x04030201] = none ∧
    decode [0x00171601, 0x00000000] = none := by decide

/-- The frames of V-F1, V-F6, V-F9 and V-F12 from their commands. -/
theorem test_encode :
    encode (.configure .a 0x16 0x17 100000 8000000) = [0x00171601, 0x000186A0, 0x007A1200] ∧
    encode (.write .a 0x50 [0x10, 0x20, 0x30]) = [0x00035003, 0x00302010] ∧
    encode (.write .b 0x7F [0xFF]) = [0x00017F13, 0x000000FF] ∧
    encode (.writeRead .b 0x68 [0x3B] 7) = [0x00016814, 0x00000007, 0x0000003B] ∧
    encode (.drop .b) = [0x00000015] := by decide

/-- A table row's word: the first word of V-F5, its data word left out of the bits and so zero. -/
theorem test_decodeTableWord :
    decodeTableWord 32 0x00015003 = some (.write .a 0x50 [0x00]) ∧
    decodeTableWord 96 0x000000000000000000171601 = some (.configure .a 0x16 0x17 0 0) ∧
    decodeTableWord 32 0x00000000 = none := by decide

/-! ### Well-formedness: an ill-formed term for each check -/

/-- R6: lengths beyond 65535 cannot be spelled, in the data and in the read length. -/
theorem test_wf_refuses_lengths (i : Inst) (a : BitVec 7) (wb : List Byte) (h : 65535 < wb.length) :
    (Instr.write i a wb).wf = false ∧ (Instr.writeRead i a wb 0).wf = false ∧
    (Instr.writeRead i a [] 65536).wf = false := by
  have : ¬wb.length ≤ 65535 := by omega
  simp [Instr.wf, maxLen, this]

/-- R74: V-K1 passes; V-N1 (role), V-N3 (instance), an unlisted pin and a pin without its marker do not. -/
theorem test_capOk_refuses :
    (Instr.configure .a 0x16 0x17 0 0).admitted Config.default = true ∧
    (Instr.configure .a 0x17 0x19 0 0).admitted Config.default = false ∧
    (Instr.configure .a 0x1A 0x17 0 0).admitted Config.default = false ∧
    (Instr.configure .a 0x00 0x17 0 0).admitted Config.default = false ∧
    (Instr.configure .a 0x16 0x17 0 0).admitted { Config.default with unmarked := [0x17] } = false := by decide

/-- The pin map's canonical form: a HOST entry, two entries out of order and a repeat are refused. -/
theorem test_pins_wf :
    PinMap.wf [(0x16, .bound .a .scl), (0x17, .gone)] = true ∧ PinMap.wf [(0x16, .host)] = false ∧
    PinMap.wf [(0x17, .gone), (0x16, .gone)] = false ∧ PinMap.wf [(0x16, .gone), (0x16, .gone)] = false := by decide

/-! ### Operands and polls -/

/-- V-A1 to V-A6. -/
theorem test_addrByte :
    addrByte 0x50 false = 0xA0 ∧ addrByte 0x50 true = 0xA1 ∧ addrByte 0x00 false = 0x00 ∧ addrByte 0x00 true = 0x01 ∧
    addrByte 0x7F false = 0xFE ∧ addrByte 0x7F true = 0xFF ∧ addrByte 0x68 false = 0xD0 ∧ addrByte 0x3C true = 0x79 :=
  by decide

/-- V-P1 to V-P9, V-P11, V-P12. -/
theorem test_pollVerdict :
    pollVerdict RegMap.default.blockA .sb 0x0001 = .seen ∧ pollVerdict RegMap.default.blockA .sb 0x0000 = .again ∧
    pollVerdict RegMap.default.blockA .sb 0x0002 = .again ∧ pollVerdict RegMap.default.blockA .addr 0x0400 = .again ∧
    pollVerdict RegMap.default.blockA .sb 0x0101 = .bus ∧ pollVerdict RegMap.default.blockA .sb 0x0201 = .arbitration ∧
    pollVerdict RegMap.default.blockA .txe 0x0300 = .bus ∧ pollVerdict RegMap.default.blockA .btf 0xFFFF = .bus ∧
    pollVerdict RegMap.default.blockA .rxne 0xFEFF = .arbitration ∧ pollVerdict RegMap.default.blockA .btf 0x0084 = .seen ∧
    pollVerdict RegMap.default.blockA .rxne 0x0044 = .seen := by decide

/-- R6: a layout of instance B's own, with SB at bit 5 and its register DR at 0x40, is read at that bit and accessed at
that address; instance A's stays the default. -/
theorem test_layoutOfOneInstance :
    let m := { RegMap.default with blockB := { RegMap.default.blockB with sbBit := 5, drOff := 0x40 } }
    let s := { boundA [] [] with cfg := { Config.default with regs := m } }
    pollVerdict (s.layout .b) .sb 0x0020 = .seen ∧ pollVerdict (s.layout .b) .sb 0x0001 = .again ∧
    pollVerdict (s.layout .a) .sb 0x0020 = .again ∧ pollVerdict (s.layout .a) .sb 0x0001 = .seen ∧
    Event.access m (.wdr .b 0xA0) = .write 0x40005840 0x000000A0 ∧
    Event.access m (.wdr .a 0xA0) = .write 0x40005410 0x000000A0 := by decide

/-- R41: the first and last byte of each block, and the bytes beside them; R42: the registers the sequencer never
accesses; R43: the clock-control block's base. -/
theorem test_defaultBlocks :
    let m := RegMap.default
    m.blockA.contains 0x400053FF = false ∧ m.blockA.contains 0x40005400 = true ∧
    m.blockA.contains 0x400057FF = true ∧ m.blockA.contains 0x40005800 = false ∧
    m.blockB.contains 0x400057FF = false ∧ m.blockB.contains 0x40005800 = true ∧
    m.blockB.contains 0x40005BFF = true ∧ m.blockB.contains 0x40005C00 = false ∧
    m.blockA.addr .cr2 = 0x40005404 ∧ m.blockA.addr .oar1 = 0x40005408 ∧ m.blockA.addr .oar2 = 0x4000540C ∧
    m.blockB.addr .ccr = 0x4000581C ∧ m.blockB.addr .trise = 0x40005820 ∧ m.rccBase = 0x40021000 := by decide

/-- R66, and the address check of R62 (V-F24). -/
theorem test_parseLine :
    (parseLine "WRITE A, 0x80, []".toList).map Call.toInstr = some (.error .addrTooWide) ∧
    (parseLine "WRITE A, 0x7F, []".toList).map Call.toInstr = some (.ok (.write .a 0x7F [])) ∧
    parseLine "CONFIGURE B, PB10, PB16, 0, 0".toList = none ∧ parseLine "RELEASE C".toList = none := by decide

/-- The largest `<freq>` and `<clk>` of a text line (V-C2), and the first number beyond each (log entry 21). -/
theorem test_parseLine_word_bounds :
    parseLine "CONFIGURE A, PB6, PB7, 0xFFFFFFFF, 0xFFFFFFFF".toList =
      some (.configure .a 0x16 0x17 0xFFFFFFFF 0xFFFFFFFF) ∧
    parseLine "CONFIGURE A, PB6, PB7, 0x100000000, 0".toList = none ∧
    parseLine "CONFIGURE A, PB6, PB7, 0, 0x100000000".toList = none := by decide

/-! ### One step -/

/-- V-C1, acceptance: the instance is bound and both pins with it. -/
theorem test_configure_accepts :
    exec (.configure .a 0x16 0x17 100000 8000000) State.reset =
      .next { State.reset with
        instA := { InstState.reset with periph := .bound, ctl := some ⟨0x16, 0x17⟩ }
        pins := [(0x16, .bound .a .scl), (0x17, .bound .a .sda)]
        slot := some (configureSlot .a 0x16 0x17 100000 8000000) } := by rfl

/-- V-N13: the capability check comes before PinsNotDistinct. -/
theorem test_configure_refuses :
    exec (.configure .b 0x1B 0x1B 0 0) State.reset =
      .next { State.reset with mark := true, replies := [.refused (.capabilityMissing .b 0x1B 0x1B)] } := by rfl

/-- V-C3: shadow and ghost stay. -/
theorem test_release :
    exec (.release .a) (boundA [] []) =
      .next { State.reset with
        instA := { InstState.reset with sh := ⟨some true, none, none⟩ }
        replies := [.completed .ok []] } := by rfl

/-- V-C5. -/
theorem test_release_refuses :
    exec (.release .a) State.reset =
      .next { State.reset with mark := true, replies := [.refused .noController] } := by rfl

/-- V-C7. -/
theorem test_drop :
    exec (.drop .a) (boundA [] []) =
      .next { State.reset with
        instA := { InstState.reset with periph := .gone, sh := ⟨some true, none, none⟩ }
        pins := [(0x16, .gone), (0x17, .gone)]
        replies := [.completed .ok []] } := by rfl

/-- V-W1, the address byte: one DR write of 0xA0. -/
theorem test_write_address :
    exec (.write .a 0x50 [0x10, 0x20]) (flying (wrSlot .addr 0) []) =
      .next { flying (wrSlot .addrp 0) [] with trace := [.wdr .a 0xA0] } := by rfl

/-- V-E2, the second TxE poll reads 0x0100: ERR_BUS and no STOP. -/
theorem test_write_error :
    exec (.write .a 0x50 [0x10, 0x20]) (flying (wrSlot .txe 1) [0x0100]) =
      .next { boundA [] [] with
        instA := { (boundA [] []).instA with reads := 1 }
        trace := [.rsr1 .a 0x0100 .poll], res := .errBus, replies := [.completed .errBus []] } := by rfl

/-- V-R2, R_NACK0 to R_POS with two bytes to read. -/
theorem test_writeRead_stages :
    exec (.writeRead .a 0x50 [0x10] 2) (flying (rdSlot .nack0 2) []) =
      .next { flying (rdSlot .pos 2) [] with
        instA := { (boundA [] []).instA with sh := ⟨some true, some false, none⟩ }
        trace := [.wcr1 .a .ack false] } := by rfl

/-- V-R2, the first DR read fills element 0. -/
theorem test_writeRead_receives :
    exec (.writeRead .a 0x50 [0x10] 2) (flying (rdSlot .t2Rd0 2) [0x12B0]) =
      .next { flying { rdSlot .t2Rd1 2 with rb := [0xB0, 0xEE] } [] with
        instA := { (boundA [] []).instA with reads := 1 }
        trace := [.rdr .a 0xB0] } := by rfl

/-- withFetchWord: the very next step takes the command (V-F3's word, refused for want of a controller). -/
theorem test_withFetchWord :
    step (State.reset.withFetchWord 32 0x00000002) =
      .next { State.reset with mark := true, replies := [.refused .noController] } := by rfl

/-- R31: nothing listed at reset, in canonical form, and the invariant. -/
theorem test_reset_pins : State.reset.pins = [] ∧ State.reset.pins.wf = true := by decide

/-! ### Witnesses: encoding -/

theorem witness_encodeDecodeRoundTrip :
    (Instr.write .b 0x7F [0xFF]).wf = true ∧ (Instr.writeRead .a 0x00 [] 65535).wf = true ∧
    (Instr.configure .a 0x16 0x17 100000 8000000).wf = true ∧ (Instr.release .a).wf = true ∧
    (Instr.drop .b).wf = true := by decide

theorem witness_decodeReadsOnlyEncodings :
    decode [0x00035003, 0x00302010, 0x00000002] = some (.write .a 0x50 [0x10, 0x20, 0x30], [0x00000002]) := by decide

/-- A frame for each clause, each presented to an idle sequencer (BadFrameRefused's witness): OP 0, 6 and 15; RSV0; RSV1; the upper bits of RELEASE and DROP; RSV2 of both transfers;
RSV3; the padding byte just after the data and the last one, in both transfers; and a frame one word short. -/
theorem witness_reservedFramesSpellNoCommand :
    ((0x00000000 : Word).extractLsb' 0 4).toNat = 0 ∧ 6 ≤ ((0x00000006 : Word).extractLsb' 0 4).toNat ∧
    6 ≤ ((0x0000000F : Word).extractLsb' 0 4).toNat ∧
    (0x00000022 : Word).extractLsb' 5 3 ≠ 0 ∧ (0x00000082 : Word).extractLsb' 5 3 ≠ 0 ∧
    ((0x01171601 : Word).extractLsb' 0 4).toNat = 1 ∧ (0x01171601 : Word).extractLsb' 24 8 ≠ 0 ∧
    ((0x00000102 : Word).extractLsb' 0 4).toNat = 2 ∧ (0x00000102 : Word).extractLsb' 8 24 ≠ 0 ∧
    ((0x80000005 : Word).extractLsb' 0 4).toNat = 5 ∧ (0x80000005 : Word).extractLsb' 8 24 ≠ 0 ∧
    ((0x0001D003 : Word).extractLsb' 0 4).toNat = 3 ∧ (0x0001D003 : Word).getLsbD 15 = true ∧
    ((0x0001D004 : Word).extractLsb' 0 4).toNat = 4 ∧ (0x0001D004 : Word).getLsbD 15 = true ∧
    (0x00010002 : Word).extractLsb' 16 16 ≠ 0 ∧
    (4 * 0 < ((0x00015003 : Word).extractLsb' 16 16).toNat ∧ ((0x00015003 : Word).extractLsb' 16 16).toNat ≤ 1 ∧
      1 < 4 * (0 + 1) ∧ ([0x00000110] : List Word)[0 + 0]? = some 0x00000110 ∧
      (0x00000110 : Word).extractLsb' (8 * (1 % 4)) 8 ≠ 0) ∧
    (4 * 1 < ((0x00055004 : Word).extractLsb' 16 16).toNat ∧ ((0x00055004 : Word).extractLsb' 16 16).toNat ≤ 7 ∧
      7 < 4 * (1 + 1) ∧ ([0x00000002, 0x04030201, 0x01000005] : List Word)[1 + 1]? = some 0x01000005 ∧
      (0x01000005 : Word).extractLsb' (8 * (7 % 4)) 8 ≠ 0) ∧
    ([0x04030201] : List Word).length + 1 < 1 + (((0x00055003 : Word).extractLsb' 16 16).toNat + 3) / 4 := by decide

/-- One frame of each opcode, another frame after it. -/
theorem witness_frameLengthFromFirstWord :
    decode [0x00171601, 1, 2, 0x00000002] = some (.configure .a 0x16 0x17 1 2, [0x00000002]) ∧
    decode [0x00000002, 0x00000005] = some (.release .a, [0x00000005]) ∧
    decode [0x00000005, 0x00000005] = some (.drop .a, [0x00000005]) ∧
    decode [0x00045003, 0x04030201, 0x00000005] = some (.write .a 0x50 [1, 2, 3, 4], [0x00000005]) ∧
    decode [0x00055004, 0x0000FFFF, 0x04030201, 0x00000005, 0x00000005] =
      some (.writeRead .a 0x50 [1, 2, 3, 4, 5] 65535, [0x00000005]) := by decide

theorem witness_operandsFromFields :
    decode [0x00FF0011, 0xFFFFFFFF, 0x00000000] = some (.configure .b 0x00 0xFF 0xFFFFFFFF 0x00000000, []) ∧
    decode [0x00047F13, 0x44332211] = some (.write .b 0x7F [0x11, 0x22, 0x33, 0x44], []) ∧
    decode [0x00050014, 0x00000003, 0x44332211, 0x00000055] =
      some (.writeRead .b 0x00 [0x11, 0x22, 0x33, 0x44, 0x55] 3, []) ∧
    decode [0x00000002] = some (.release .a, []) ∧ decode [0x00000015] = some (.drop .b, []) := by decide

theorem witness_opcodeMapHolds :
    decode [0x00FFFF11, 0, 0] = some (.configure .b 0xFF 0xFF 0 0, []) ∧ decode [0x00000012] = some (.release .b, []) ∧
    decode [0x00007F13] = some (.write .b 0x7F [], []) ∧ decode [0x00007F14, 0] = some (.writeRead .b 0x7F [] 0, []) ∧
    decode [0x00000015] = some (.drop .b, []) := by decide

/-- Two reads that agree on SB, BERR and ARLO alone. -/
theorem witness_pollIgnoresOtherBits :
    ∀ n : Fin 16, n = RegMap.default.blockA.sbBit ∨ n = RegMap.default.blockA.berrBit ∨
      n = RegMap.default.blockA.arloBit →
      (0x0001 : Half).getLsbD n.val = (0xFCFF : Half).getLsbD n.val := by decide

/-! ### Witnesses: commands in flight -/

theorem inFlight_conf (l : ConfLabel) (ans : List Half) : InFlight (flying (confSlot (.conf l)) ans) (confSlot (.conf l)) :=
  ⟨rfl, ⟨rfl, rfl, rfl, rfl, rfl⟩, trivial⟩

theorem inFlight_wrSlot {l : WrLabel} {k : BitVec 16} (ans : List Half) (h : WrIndexOk l (wrSlot l k)) :
    InFlight (flying (wrSlot l k) ans) (wrSlot l k) :=
  ⟨rfl, ⟨rfl, rfl, rfl, rfl, rfl⟩, h⟩

theorem inFlight_rdSlot {l : RdLabel} {m : Nat} (ans : List Half) (hm : m ≤ 65535) (h : RdLengthOk l (rdSlot l m)) :
    InFlight (flying (rdSlot l m) ans) (rdSlot l m) := by
  refine ⟨rfl, ⟨rfl, ?_, rfl, rfl, rfl, ?_, ?_⟩, h⟩
  · simp [rdSlot, writeReadSlot, Instr.wf, maxLen, hm]
  · simp [rdSlot, writeReadSlot]; omega
  · simp [rdSlot, writeReadSlot]

theorem witness_configureMicroSteps (l : ConfLabel) :
    InFlight (flying (confSlot (.conf l)) []) (confSlot (.conf l)) := inFlight_conf l []

/-- Each label of the write phase that is no poll; W_DATA at the first and at the last byte. -/
theorem witness_writePhaseMicroSteps :
    InFlight (flying (wrSlot .start 0) []) (wrSlot .start 0) ∧ InFlight (flying (wrSlot .addr 0) []) (wrSlot .addr 0) ∧
    InFlight (flying (wrSlot .sr2 0) []) (wrSlot .sr2 0) ∧ InFlight (flying (wrSlot .data 0) []) (wrSlot .data 0) ∧
    InFlight (flying (wrSlot .data 1) []) (wrSlot .data 1) ∧ InFlight (flying (wrSlot .stop 2) []) (wrSlot .stop 2) := by
  refine ⟨inFlight_wrSlot _ ?_, inFlight_wrSlot _ ?_, inFlight_wrSlot _ ?_, inFlight_wrSlot _ ?_, inFlight_wrSlot _ ?_,
    inFlight_wrSlot _ ?_⟩ <;> simp [WrIndexOk, wrSlot, writeSlot]

/-- Each label before the reception that is no poll, R_SR2 at each length where its successor changes. -/
theorem witness_readPhaseMicroSteps :
    (∀ l ∈ [RdLabel.ack1, .start, .addr, .sr1, .sr2], ∀ m ∈ [0, 1, 2, 3, 4, 65535],
      InFlight (flying (rdSlot l m) []) (rdSlot l m)) ∧
    (∀ m ∈ [1, 2], InFlight (flying (rdSlot .nack0 m) []) (rdSlot .nack0 m)) ∧
    InFlight (flying (rdSlot .pos 2) []) (rdSlot .pos 2) := by
  refine ⟨?_, ?_, inFlight_rdSlot _ (by decide) rfl⟩
  · intro l hl m hm
    have : m ≤ 65535 := by revert m; decide
    refine inFlight_rdSlot _ this ?_
    simp at hl; rcases hl with rfl | rfl | rfl | rfl | rfl <;> trivial
  · intro m hm
    have h : m = 1 ∨ m = 2 := by simpa using hm
    rcases h with rfl | rfl
    · exact inFlight_rdSlot _ (by decide) (.inl rfl)
    · exact inFlight_rdSlot _ (by decide) (.inr rfl)

/-- Each label of the reception that is no poll, the drain at its shortest length. -/
theorem witness_receptionMicroSteps :
    InFlight (flying (rdSlot .dRd 4) []) (rdSlot .dRd 4) ∧
    (∀ l ∈ [RdLabel.t1Stop, .t1Rd], InFlight (flying (rdSlot l 1) []) (rdSlot l 1)) ∧
    (∀ l ∈ [RdLabel.t2Stop, .t2Rd0, .t2Rd1], InFlight (flying (rdSlot l 2) []) (rdSlot l 2)) ∧
    (∀ l ∈ [RdLabel.t3Nack, .t3Stop, .t3Rd0, .t3Rd1], InFlight (flying (rdSlot l 3) []) (rdSlot l 3)) := by
  refine ⟨inFlight_rdSlot _ (by decide) (by simp [RdLengthOk, rdSlot, writeReadSlot]), ?_, ?_, ?_⟩ <;> intro l hl <;>
    refine inFlight_rdSlot _ (by decide) ?_ <;> simp at hl
  · rcases hl with rfl | rfl <;> simp [RdLengthOk, rdSlot, writeReadSlot]
  · rcases hl with rfl | rfl | rfl <;> simp [RdLengthOk, rdSlot, writeReadSlot]
  · rcases hl with rfl | rfl | rfl | rfl <;> simp [RdLengthOk, rdSlot, writeReadSlot]

theorem witness_fillDrawsTheLastElement :
    InFlight (flying (rdSlot .t3Fill 3) []) (rdSlot .t3Fill 3) ∧ (rdSlot .t3Fill 3).upc = .rd .t3Fill :=
  ⟨inFlight_rdSlot _ (by decide) (Nat.le_refl 3), rfl⟩

theorem witness_doneYieldsOk :
    InFlight (flying (confSlot .done) []) (confSlot .done) ∧ (confSlot .done).upc = .done :=
  ⟨⟨rfl, ⟨rfl, rfl, rfl, rfl, rfl⟩, trivial⟩, rfl⟩

theorem witness_answers :
    Satisfies RegMap.default.blockA .sb 0x0001 ∧ Pending RegMap.default.blockA .sb 0x0402 ∧
    errorOf RegMap.default.blockA 0x0101 = some .errBus ∧ errorOf RegMap.default.blockA 0x0201 = some .errArb := by
  unfold Satisfies Pending; decide

/-- W_SB, read as SB set (V-P1), as ADDR and AF only (V-P3, V-P4). -/
theorem witness_pollReadsOnceAndGoesOn :
    InFlight (flying (wrSlot .sb 0) [0x0001]) (wrSlot .sb 0) ∧ InFlight (flying (wrSlot .sb 0) [0x0402]) (wrSlot .sb 0) ∧
    pollAt (wrSlot .sb 0) = some (.sb, .wr .addr) ∧ (flying (wrSlot .sb 0) [0x0001]).answer .a = 0x0001 ∧
    (flying (wrSlot .sb 0) [0x0402]).answer .a = 0x0402 ∧ Satisfies RegMap.default.blockA .sb 0x0001 ∧
    Pending RegMap.default.blockA .sb 0x0402 :=
  ⟨inFlight_wrSlot _ rfl, inFlight_wrSlot _ rfl, rfl, rfl, rfl, witness_answers.1, witness_answers.2.1⟩

/-- W_SB read as 0x0101 (V-P5) and as 0x0201 (V-P6). -/
theorem witness_errorAbortsAtOnce :
    InFlight (flying (wrSlot .sb 0) [0x0101]) (wrSlot .sb 0) ∧ InFlight (flying (wrSlot .sb 0) [0x0201]) (wrSlot .sb 0) ∧
    pollAt (wrSlot .sb 0) = some (.sb, .wr .addr) ∧
    errorOf RegMap.default.blockA ((flying (wrSlot .sb 0) [0x0101]).answer .a) = some .errBus ∧
    errorOf RegMap.default.blockA ((flying (wrSlot .sb 0) [0x0201]).answer .a) = some .errArb :=
  ⟨inFlight_wrSlot _ rfl, inFlight_wrSlot _ rfl, rfl, witness_answers.2.2.1, witness_answers.2.2.2⟩

/-- V-H1's kind: a poll answered with AF and ADDR only, twice. -/
theorem witness_pollHasNoBound :
    InFlight (flying (wrSlot .sb 0) [0x0402, 0x0402, 0x0001]) (wrSlot .sb 0) ∧
    pollAt (wrSlot .sb 0) = some (.sb, .wr .addr) ∧
    ((flying (wrSlot .sb 0) [0x0402, 0x0402, 0x0001]).inst .a).answers = [0x0402, 0x0402] ++ [0x0001] ∧
    ∀ v ∈ ([0x0402, 0x0402] : List Half), Pending RegMap.default.blockA .sb v := by
  refine ⟨inFlight_wrSlot _ rfl, rfl, rfl, ?_⟩
  intro v hv
  have : v = 0x0402 := by simpa using hv
  exact this ▸ witness_answers.2.1

/-! ### Witnesses: CONFIGURE, RELEASE, DROP -/

/-- V-N1, V-C2's second command, V-C10 and V-C11: one state for each check that fails first. -/
theorem witness_configureRefusedByFirstFailingCheck :
    (Idle State.reset ∧ State.reset.cfg.capHolds 0x17 .a .scl = false) ∧
    (Idle (boundA [] []) ∧ (boundA [] []).cfg.capOk .a 0x16 0x17 = true ∧ ((boundA [] []).inst .a).periph ≠ .host) ∧
    (Idle customBound ∧ customBound.cfg.capOk .b 0x16 0x1B = true ∧ (customBound.inst .b).periph = .host ∧
      customBound.pins.get 0x16 ≠ .host) ∧
    (Idle customS0 ∧ customS0.cfg.capOk .a 0x16 0x16 = true ∧ (customS0.inst .a).periph = .host ∧
      customS0.pins.get 0x16 = .host) := by
  unfold Idle; decide

/-- S0 accepts V-C1 (for ConfigureTakesOwnership, ConfigureRunsToOk and FrequencyIsIgnored). -/
theorem witness_configureTakesOwnership :
    Idle State.reset ∧ State.reset.pins.wf = true ∧ State.reset.cfg.capOk .a 0x16 0x17 = true ∧
    (State.reset.inst .a).periph = .host ∧ State.reset.pins.get 0x16 = .host ∧ State.reset.pins.get 0x17 = .host ∧
    (0x16 : PinId) ≠ 0x17 := by
  unfold Idle; decide

theorem witness_configureRunsToOk :
    Idle State.reset ∧ State.reset.cfg.capOk .b 0x1A 0x1B = true ∧ (State.reset.inst .b).periph = .host ∧
    State.reset.pins.get 0x1A = .host ∧ State.reset.pins.get 0x1B = .host ∧ (0x1A : PinId) ≠ 0x1B := by
  unfold Idle; decide

/-- V-C1 beside V-C2's second frequency pair. -/
theorem witness_frequencyIsIgnored :
    Idle State.reset ∧ State.reset.cfg.capOk .a 0x18 0x19 = true ∧ (State.reset.inst .a).periph = .host ∧
    State.reset.pins.get 0x18 = .host ∧ State.reset.pins.get 0x19 = .host ∧ (0x18 : PinId) ≠ 0x19 := by
  unfold Idle; decide

/-- Both clauses: an instance with a controller, and one without. -/
theorem witness_releaseReturnsHandleAndPins :
    (Idle (boundA [] []) ∧ (boundA [] []).pins.wf = true ∧ ((boundA [] []).inst .a).periph = .bound ∧
      ((boundA [] []).inst .a).ctl = some ⟨0x16, 0x17⟩) ∧
    (Idle State.reset ∧ State.reset.pins.wf = true ∧ (State.reset.inst .a).periph ≠ .bound) := by
  unfold Idle; decide

theorem witness_dropLeavesHandleAndPinsGone :
    (Idle (boundA [0x0001] [0xEE]) ∧ (boundA [0x0001] [0xEE]).pins.wf = true ∧
      ((boundA [0x0001] [0xEE]).inst .a).periph = .bound ∧
      ((boundA [0x0001] [0xEE]).inst .a).ctl = some ⟨0x16, 0x17⟩) ∧
    (Idle (boundA [] []) ∧ (boundA [] []).pins.wf = true ∧ ((boundA [] []).inst .b).periph ≠ .bound) := by
  unfold Idle; decide

/-- V-C5 and V-C6. -/
theorem witness_noControllerRefused :
    Idle State.reset ∧ (State.reset.inst .a).periph ≠ .bound ∧ (Instr.write .a 0x50 [0x10]).wf = true ∧
    (Instr.writeRead .a 0x50 [0x10] 2).wf = true := by
  unfold Idle; decide

/-- V-C4. -/
theorem witness_reconfigureAfterRelease :
    Idle (boundA [] []) ∧ (boundA [] []).pins.wf = true ∧ ((boundA [] []).inst .a).periph = .bound ∧
    ((boundA [] []).inst .a).ctl = some ⟨0x16, 0x17⟩ ∧ (boundA [] []).cfg.capOk .a 0x18 0x19 = true ∧
    (boundA [] []).pins.get 0x18 = .host ∧ (boundA [] []).pins.get 0x19 = .host ∧ (0x18 : PinId) ≠ 0x19 := by
  unfold Idle; decide

/-! ### Witnesses: transfers -/

theorem witness_writeLoadsTheSlot :
    Idle (boundA [] []) ∧ ([0x10] : List Byte).length ≤ 65535 ∧ Bound (boundA [] []) .a := by
  unfold Idle Bound; decide

theorem plainWrite_good (n : Nat) : (plainWrite n).Good RegMap.default.blockA n := by
  refine ⟨show Satisfies RegMap.default.blockA .sb 0x0001 from ?_, show Satisfies RegMap.default.blockA .addr 0x0002 from ?_,
    by simp [plainWrite], ?_, show Satisfies RegMap.default.blockA .btf 0x0004 from ?_⟩
  · unfold Satisfies; decide
  · unfold Satisfies; decide
  · intro v hv
    obtain ⟨-, rfl⟩ : n ≠ 0 ∧ v = 0x0080 := by simpa [plainWrite] using hv
    unfold Satisfies; decide
  · unfold Satisfies; decide

theorem plainRead_good : plainRead.Good RegMap.default.blockA := by unfold ReadAnswers.Good Satisfies; decide

theorem plainTail_good : plainTail.Good RegMap.default.blockA := by unfold TailAnswers.Good Satisfies; decide

/-- V-W0 (no byte) and V-W3 (three). -/
theorem witness_writeRunMatchesTrace :
    (∀ wb ∈ ([[], [0x10, 0x20, 0x30]] : List (List Byte)), wb.length ≤ 65535 ∧
      Idle (boundA (plainWrite wb.length).list []) ∧ Bound (boundA (plainWrite wb.length).list []) .a ∧
      (plainWrite wb.length).Good RegMap.default.blockA wb.length ∧
      ((boundA (plainWrite wb.length).list []).inst .a).answers = (plainWrite wb.length).list ++ []) := by
  intro wb h
  have hl : wb.length ≤ 65535 := by revert wb; decide
  exact ⟨hl, rfl, rfl, plainWrite_good _, (List.append_nil _).symm⟩

/-- V-W0. -/
theorem witness_emptyWriteControlTrace :
    Idle (boundA [0x0001, 0x0002, 0x0003, 0x0004] []) ∧ Bound (boundA [0x0001, 0x0002, 0x0003, 0x0004] []) .a ∧
    Satisfies RegMap.default.blockA .sb 0x0001 ∧ Satisfies RegMap.default.blockA .addr 0x0002 ∧ Satisfies RegMap.default.blockA .btf 0x0004 ∧
    ((boundA [0x0001, 0x0002, 0x0003, 0x0004] []).inst .a).answers = [0x0001, 0x0002, 0x0003, 0x0004] := by
  unfold Idle Bound Satisfies; decide

/-- V-E2 (an error after one of two bytes) and V-E4 (at the BTF poll, after all). -/
theorem witness_writeErrorLeavesBytesSent :
    Idle (boundA [0x0001, 0x0002, 0x0003, 0x0080, 0x0100] []) ∧
    Bound (boundA [0x0001, 0x0002, 0x0003, 0x0080, 0x0100] []) .a ∧
    ([0x0080] : List Half).length ≤ ([0x10, 0x20] : List Byte).length ∧
    ([0x0080] : List Half).length ≤ ([0x10] : List Byte).length ∧
    Satisfies RegMap.default.blockA .sb 0x0001 ∧ Satisfies RegMap.default.blockA .addr 0x0002 ∧
    (∀ v ∈ ([0x0080] : List Half), Satisfies RegMap.default.blockA .txe v) ∧
    errorOf RegMap.default.blockA 0x0100 = some .errBus ∧ errorOf RegMap.default.blockA 0x0104 = some .errBus ∧
    ((boundA [0x0001, 0x0002, 0x0003, 0x0080, 0x0100] []).inst .a).answers =
      0x0001 :: 0x0002 :: 0x0003 :: ([0x0080] ++ 0x0100 :: []) := by
  refine ⟨rfl, rfl, by decide, by decide, ?_, ?_, ?_, by decide, by decide, rfl⟩
  · unfold Satisfies; decide
  · unfold Satisfies; decide
  · intro v hv
    obtain rfl : v = 0x0080 := by simpa using hv
    unfold Satisfies; decide

/-- V-E1. -/
theorem witness_firstPollErrorWritesNoData :
    Idle (boundA [0x0200] []) ∧ ([0xAA] : List Byte).length ≤ 65535 ∧ Bound (boundA [0x0200] []) .a ∧
    errorOf RegMap.default.blockA 0x0200 = some .errArb ∧ ((boundA [0x0200] []).inst .a).answers = 0x0200 :: [] := by
  unfold Idle Bound; decide

/-- A read of 7 bytes into a lent buffer of 7, and the largest read length. -/
theorem witness_writeReadLoadsTheSlot :
    Idle (boundA [] (List.replicate 7 0xEE)) ∧ ([0x10] : List Byte).length ≤ 65535 ∧ 7 ≤ 65535 ∧
    Bound (boundA [] (List.replicate 7 0xEE)) .a ∧ 6 < (boundA [] (List.replicate 7 0xEE)).lent.length := by
  unfold Idle Bound; decide

theorem witness_writeReadZeroRun :
    Idle (boundA ((plainWrite 0).list ++ (plainRead.list ++ [])) []) ∧ ([] : List Byte).length ≤ 65535 ∧
    Bound (boundA ((plainWrite 0).list ++ (plainRead.list ++ [])) []) .a ∧
    (plainWrite 0).Good RegMap.default.blockA ([] : List Byte).length ∧ plainRead.Good RegMap.default.blockA ∧
    ((boundA ((plainWrite 0).list ++ (plainRead.list ++ [])) []).inst .a).answers =
      (plainWrite 0).list ++ (plainRead.list ++ []) :=
  ⟨rfl, by decide, rfl, plainWrite_good 0, plainRead_good, rfl⟩

theorem witness_writeReadOneRun :
    Idle (boundA ((plainWrite 1).list ++ (plainRead.list ++ (0x0040 :: 0x00B0 :: []))) []) ∧
    ([0x10] : List Byte).length ≤ 65535 ∧
    Bound (boundA ((plainWrite 1).list ++ (plainRead.list ++ (0x0040 :: 0x00B0 :: []))) []) .a ∧
    (plainWrite 1).Good RegMap.default.blockA ([0x10] : List Byte).length ∧ plainRead.Good RegMap.default.blockA ∧
    Satisfies RegMap.default.blockA .rxne 0x0040 ∧
    ((boundA ((plainWrite 1).list ++ (plainRead.list ++ (0x0040 :: 0x00B0 :: []))) []).inst .a).answers =
      (plainWrite 1).list ++ (plainRead.list ++ (0x0040 :: 0x00B0 :: [])) := by
  refine ⟨rfl, by decide, rfl, plainWrite_good 1, plainRead_good, ?_, rfl⟩; unfold Satisfies; decide

theorem witness_writeReadTwoRun :
    Idle (boundA ((plainWrite 1).list ++ (plainRead.list ++ (0x0040 :: 0x0004 :: 0x00B0 :: 0x00B1 :: []))) []) ∧
    ([0x10] : List Byte).length ≤ 65535 ∧
    Bound (boundA ((plainWrite 1).list ++ (plainRead.list ++ (0x0040 :: 0x0004 :: 0x00B0 :: 0x00B1 :: []))) []) .a ∧
    (plainWrite 1).Good RegMap.default.blockA ([0x10] : List Byte).length ∧ plainRead.Good RegMap.default.blockA ∧
    Satisfies RegMap.default.blockA .rxne 0x0040 ∧ Satisfies RegMap.default.blockA .btf 0x0004 ∧
    ((boundA ((plainWrite 1).list ++ (plainRead.list ++ (0x0040 :: 0x0004 :: 0x00B0 :: 0x00B1 :: []))) []).inst
      .a).answers = (plainWrite 1).list ++ (plainRead.list ++ (0x0040 :: 0x0004 :: 0x00B0 :: 0x00B1 :: [])) := by
  refine ⟨rfl, by decide, rfl, plainWrite_good 1, plainRead_good, ?_, ?_, rfl⟩ <;> unfold Satisfies <;> decide

theorem drain_good (n : Nat) : DrainGood RegMap.default.blockA (List.replicate n (0x0040, 0x00B0)) := by
  intro e he
  obtain ⟨-, rfl⟩ : n ≠ 0 ∧ e = (0x0040, 0x00B0) := by simpa using he
  unfold Satisfies; decide

/-- V-R3 (no drain) and V-R7 (a drain of four): any number of drained bytes up to the longest. -/
theorem witness_writeReadLongRun (n : Nat) (hn : n + 3 ≤ 65535) :
    let ds : DrainAnswers := List.replicate n (0x0040, 0x00B0)
    let s := boundA ((plainWrite 1).list ++ (plainRead.list ++ (drainList ds ++ (plainTail.list ++ [])))) []
    Idle s ∧ ([0x10] : List Byte).length ≤ 65535 ∧ ds.length + 3 ≤ 65535 ∧ Bound s .a ∧
    (plainWrite 1).Good (s.layout .a) ([0x10] : List Byte).length ∧ plainRead.Good (s.layout .a) ∧
    DrainGood (s.layout .a) ds ∧ plainTail.Good (s.layout .a) ∧
    (s.inst .a).answers = (plainWrite 1).list ++ (plainRead.list ++ (drainList ds ++ (plainTail.list ++ []))) :=
  ⟨rfl, by decide, by simpa using hn, rfl, plainWrite_good 1, plainRead_good, drain_good n, plainTail_good, rfl⟩

/-- V-E6: a read of 7 bytes whose second drain poll reads BERR; and an error at the first drain poll of 4. -/
theorem witness_drainErrorLeavesPartialBuffer :
    ∀ e ∈ [(4, 0), (7, 1), (7, 3)],
    let ds : DrainAnswers := List.replicate e.2 (0x0040, 0x00B0)
    let s := boundA ((plainWrite 1).list ++ (plainRead.list ++ (drainList ds ++ 0x0100 :: []))) (List.replicate e.1 0xEE)
    Idle s ∧ ([0x10] : List Byte).length ≤ 65535 ∧ e.1 ≤ 65535 ∧ ds.length < e.1 - 3 ∧ s.lent.length = e.1 ∧ Bound s .a ∧
    (plainWrite 1).Good (s.layout .a) ([0x10] : List Byte).length ∧ plainRead.Good (s.layout .a) ∧
    DrainGood (s.layout .a) ds ∧ errorOf (s.layout .a) 0x0100 = some .errBus ∧
    (s.inst .a).answers = (plainWrite 1).list ++ (plainRead.list ++ (drainList ds ++ 0x0100 :: [])) := by
  intro e he
  have h1 : e.1 ≤ 65535 ∧ e.2 < e.1 - 3 := by revert e; decide
  exact ⟨rfl, by decide, h1.1, by simpa using h1.2, by simp [boundA], rfl, plainWrite_good 1, plainRead_good,
    drain_good _, (show errorOf RegMap.default.blockA 0x0100 = some .errBus by decide), rfl⟩

/-! ### Witnesses: the step -/

theorem witness_stepRunsTheDecodedCommand :
    Idle (presenting (.frame [0x00015003, 0x00000010] [])) ∧
    (presenting (.frame [0x00015003, 0x00000010] [])).host = [.frame [0x00015003, 0x00000010] []] ∧
    decode [0x00015003, 0x00000010] = some (.write .a 0x50 [0x10], []) ∧
    (flying (wrSlot .sb 0) []).slot = some (wrSlot .sb 0) := by
  unfold Idle; decide

/-- V-F13. -/
theorem witness_badFrameRefused :
    Idle (presenting (.frame [0x00000000] [])) ∧
    (presenting (.frame [0x00000000] [])).host = [.frame [0x00000000] []] ∧ decode [0x00000000] = none := by
  unfold Idle; decide

/-- V-F24 and the largest address, for both commands. -/
theorem witness_frontEndRefusesWideAddress :
    Idle (presenting (.call (.write .a 0x80 []) [])) ∧
    (presenting (.call (.write .a 0x80 []) [])).host = [.call (.write .a 0x80 []) []] ∧
    (presenting (.call (.writeRead .a 0x7F [] 1) [])).host = [.call (.writeRead .a 0x7F [] 1) []] ∧
    (∀ b : BitVec 7, (Instr.write .a b []).wf = true ∧ (Instr.writeRead .a b [] 1).wf = true) ∧
    0x80 ≤ 0x80 ∧ 0x7F < 0x80 := by
  unfold Idle; decide

theorem witness_idleStepWaits : Idle State.reset ∧ State.reset.host = [] := by unfold Idle; decide

/-- The state after V-C1, its trace with it, and a WRITE just accepted. -/
def liveA : State :=
  { flying (wrSlot .start 0) [] with
    trace := [.wrcc .a .en true, .wrcc .a .rst true, .wrcc .a .rst false, .wcr1 .a .pe true] }

/-- For StepKeepsTheInvariant, StepKeepsTheBracket and StepsNeverFault. -/
theorem witness_stepKeepsTheInvariant : Inv liveA ∧ BracketOk liveA ∧ ∃ t, step liveA = .next t := by
  refine ⟨⟨⟨?_, ?_, ?_⟩, by decide, ?_, rfl, ?_⟩, ?_, _, rfl⟩
  · intro i; cases i <;> decide
  · intro i c h r
    cases i
    · cases h; cases r <;> decide
    · cases h
  · intro p i r h
    simp only [liveA, flying, boundA, PinMap.get] at h
    split at h
    · cases h; exact ⟨_, rfl, by assumption⟩
    · split at h
      · cases h; exact ⟨_, rfl, by assumption⟩
      · cases h
  · intro sl h; cases h; exact ⟨⟨rfl, rfl, rfl, rfl, rfl⟩, rfl, rfl⟩
  · intro i; cases i <;> decide
  · intro sl h b hb; cases h; cases hb

/-- A state in which a step makes an event: one poll read (for the rules over every step). -/
theorem witness_stepMakesAnEvent :
    ∃ t, step (flying (wrSlot .sb 0) [0x0001]) = .next t ∧
      t.trace = (flying (wrSlot .sb 0) [0x0001]).trace ++ [.rsr1 .a 0x0001 .poll] ∧
      t.slot = some (wrSlot .addr 0) := ⟨_, rfl, rfl, rfl⟩

/-- A step that writes CR1 (START, V-W1's first event) and one that writes ACK to 0 (V-R1). -/
theorem witness_onlyAckIsWrittenZero :
    (∃ t, step (flying (wrSlot .start 0) []) = .next t ∧ t.trace = [] ++ [.wcr1 .a .start true]) ∧
    ∃ t, step (flying (rdSlot .nack0 1) []) = .next t ∧ t.trace = [] ++ [.wcr1 .a .ack false] :=
  ⟨⟨_, rfl, rfl⟩, ⟨_, rfl, rfl⟩⟩

/-- A step that writes a clock-control field (V-C1's first event). -/
theorem witness_clockControlOnlyByConfigure :
    ∃ t, step (flying (confSlot (.conf .en)) []) = .next t ∧ t.trace = [] ++ [.wrcc .a .en true] := ⟨_, rfl, rfl⟩

/-- V-R2 leaves POS at 1: a state that has it so, with a WRITE in flight. -/
theorem witness_positionIsSticky :
    let s := { flying (wrSlot .start 0) [] with
      instA := { InstState.reset with periph := .bound, sh := ⟨some true, some false, some true⟩ } }
    (∃ t, step s = .next t) ∧ (s.inst .a).sh.pos = some true ∧ (∃ sl, s.slot = some sl ∧
      sl.cmd = .write .a 0x50 [0x10, 0x20]) := ⟨⟨_, rfl⟩, rfl, _, rfl, rfl⟩

/-- V-C7's end state: instance and pins gone, and the invariant holds. -/
theorem witness_droppedStaysGone :
    let s := { State.reset with
      instA := { InstState.reset with periph := .gone }
      pins := [(0x16, .gone), (0x17, .gone)] }
    Inv s ∧ step s = .next s ∧ (s.inst .a).periph = .gone ∧ s.pins.get 0x16 = .gone ∧ s.pins.get 0x17 = .gone := by
  refine ⟨⟨⟨?_, ?_, ?_⟩, by decide, ?_, rfl, ?_⟩, rfl, rfl, rfl, rfl⟩
  · intro i; cases i <;> decide
  · intro i c h; cases i <;> cases h
  · intro p i r h
    simp only [PinMap.get] at h
    split at h
    · cases h
    · split at h <;> cases h
  · intro sl h; cases h
  · intro i; cases i <;> decide

/-- A command on instance A, in flight, whose INST is its own. -/
theorem witness_instancesShareNothing :
    (∀ sl, (flying (wrSlot .start 0) []).slot = some sl → sl.inst = sl.cmd.inst) ∧
    ∃ t, exec (.write .a 0x50 [0x10, 0x20]) (flying (wrSlot .start 0) []) = .next t := by
  refine ⟨?_, _, rfl⟩
  intro sl h; cases h; rfl

/-- The refusal mark set, and a step after it. -/
theorem witness_markAndRepliesStay :
    ∃ t, step { flying (wrSlot .start 0) [] with mark := true } = .next t := ⟨_, rfl⟩

end Sys2Proof.Tests
end

section
/-! SUPPORT. The proofs of the statements about the state: what every step keeps of label, bracket, ownership, shadow
and ghost, and which accesses a step makes. -/

namespace Sys2Proof.Machine
open Host

/-! ### The place a command in flight has reached -/

/-- The ghost bit `o` agrees with the place of `sl` in its transaction (R28). -/
def BracketAgrees (o : Bool) (sl : Slot) : Prop := ∀ b, bracketAt sl = some b → o = b

/-- A micro-step of `sl` from `s` leads to a label of its program, and if the ghost bit agreed with the place it left,
the bit agrees with the place it reaches. -/
def KeepsPlace (sl : Slot) (s t : State) : Prop :=
  ∀ sl', t.slot = some sl' → LabelOk sl' ∧
    (BracketAgrees (s.inst sl.inst).bracketOpen sl → BracketAgrees (t.inst sl.inst).bracketOpen sl')

theorem keepsPlace_goto {s s₁ : State} {sl a : Slot} {L : Label} (hl : LabelOk { a with upc := L })
    (hb : BracketAgrees (s.inst sl.inst).bracketOpen sl →
      BracketAgrees (s₁.inst sl.inst).bracketOpen { a with upc := L }) : KeepsPlace sl s (s₁.goto a L) := by
  intro sl' h
  obtain rfl : { a with upc := L } = sl' := by simpa using h
  exact ⟨hl, by simpa using hb⟩

theorem keepsPlace_finish {s s₁ : State} {sl : Slot} {r : Res} {rb : List Byte} : KeepsPlace sl s (s₁.finish r rb) := by
  intro sl' h
  simp at h

/-- A poll stays at its label, goes on to `L`, or ends, and leaves the ghost bit alone. -/
theorem keepsPlace_poll {s : State} {sl : Slot} {f : Flag} {L : Label} (h : LabelOk sl)
    (hl : LabelOk { sl with upc := L })
    (hb : ∀ o, BracketAgrees o sl → BracketAgrees o { sl with upc := L }) : KeepsPlace sl s (s.poll sl f L) := by
  rcases poll_cases s sl f L with ⟨r, e⟩ | ⟨-, e⟩ | e <;> rw [e]
  · exact keepsPlace_finish
  · exact keepsPlace_goto hl (by simpa using hb _)
  · exact keepsPlace_goto h (by simp)

/-! ### CONFIGURE -/

theorem confStep_keepsPlace {s : State} {sl : Slot} {l : ConfLabel} {i scl sda freq clk}
    (hc : sl.cmd = .configure i scl sda freq clk) (hu : sl.upc = .conf l) : KeepsPlace sl s (confStep l sl s) := by
  cases l <;> refine keepsPlace_goto ?_ ?_ <;> simp [LabelOk, BracketAgrees, bracketAt, hc, hu, InstState.noteCr1]

/-! ### The write phase -/

/-- A transfer may stand at a label of the write phase that its loop index reaches. -/
theorem labelOk_of_wr {sl : Slot} {l : WrLabel} (hc : IsTransfer sl.cmd) (hu : sl.upc = .wr l) (h : WrIndexOk l sl) :
    LabelOk sl := by
  rcases hc with ⟨i, a, wb, hc⟩ | ⟨i, a, wb, m, hc⟩ <;> simpa [LabelOk, hc, hu] using h

theorem labelOk_afterStop {sl : Slot} (hc : IsTransfer sl.cmd) : LabelOk { sl with upc := afterStop sl.cmd } := by
  rcases hc with ⟨i, a, wb, hc⟩ | ⟨i, a, wb, m, hc⟩ <;> simp [LabelOk, afterStop, hc, RdLengthOk]

/-- After the STOP of the write phase no START is outstanding, whether the transfer ends there or reads (R104). -/
theorem bracketAgrees_afterStop {sl : Slot} (hc : IsTransfer sl.cmd) :
    BracketAgrees false { sl with upc := afterStop sl.cmd } := by
  rcases hc with ⟨i, a, wb, hc⟩ | ⟨i, a, wb, m, hc⟩ <;> simp [BracketAgrees, bracketAt, afterStop, hc]

/-- The loop index counts on without wrapping while it is below a length of 16 bits. -/
theorem succ_toNat_of_lt {k n : BitVec 16} (h : k.toNat < n.toNat) : (k + 1).toNat = k.toNat + 1 := by
  have := n.isLt
  rw [BitVec.toNat_add_of_lt (by simp; omega)]; simp

/-- Before each byte there is a TxE poll, after the last one the BTF poll; the START is outstanding at both (R102). -/
theorem place_nextByte {sl : Slot} {more : Prop} [Decidable more] (hc : IsTransfer sl.cmd)
    (hk : sl.k.toNat ≤ sl.wb.length) (h : more ↔ sl.k.toNat < sl.wb.length) :
    LabelOk { sl with upc := if more then .wr .txe else .wr .btf } ∧
      BracketAgrees true { sl with upc := if more then .wr .txe else .wr .btf } := by
  split
  · next hm => exact ⟨labelOk_of_wr hc rfl (h.1 hm), by simp [BracketAgrees, bracketAt]⟩
  · next hm =>
    have he : sl.k.toNat = sl.wb.length := by have := mt h.2 hm; omega
    exact ⟨labelOk_of_wr hc rfl he, by simp [BracketAgrees, bracketAt]⟩

theorem wrStep_keepsPlace {s t : State} {sl : Slot} {l : WrLabel} (hc : IsTransfer sl.cmd) (hu : sl.upc = .wr l)
    (hi : WrIndexOk l sl) (hn : sl.wlen.toNat = sl.wb.length) (h : wrStep l sl s = .next t) : KeepsPlace sl s t := by
  have hl := labelOk_of_wr hc hu hi
  cases l <;> simp only [wrStep, Outcome.next.injEq] at h <;> try subst h
  case start | addr =>
    exact keepsPlace_goto (labelOk_of_wr hc rfl hi) (by simp [BracketAgrees, bracketAt, hu, InstState.noteCr1])
  case sb | addrp | txe | btf =>
    exact keepsPlace_poll hl (labelOk_of_wr hc rfl hi) (by simp [BracketAgrees, bracketAt, hu])
  case sr2 =>
    have hk : sl.k.toNat = 0 := by simp [show sl.k = 0 from hi]
    obtain ⟨hl', hb'⟩ := place_nextByte (more := 0 < sl.wlen) hc (by omega) (by simp [BitVec.lt_def, hn, hk])
    exact keepsPlace_goto hl' fun ho => by simpa [ho true (by simp [bracketAt, hu])] using hb'
  case data =>
    have hk : sl.k.toNat < sl.wb.length := hi
    have hk1 := succ_toNat_of_lt (hn ▸ hk)
    simp only [sendByte, List.getElem?_eq_getElem hk, Outcome.next.injEq] at h
    subst h
    obtain ⟨hl', hb'⟩ := place_nextByte (sl := { sl with k := sl.k + 1 }) (more := sl.k + 1 < sl.wlen) hc
      (by change (sl.k + 1).toNat ≤ sl.wb.length; omega) (by simp only [BitVec.lt_def, hn])
    exact keepsPlace_goto hl' fun ho => by simpa [ho true (by simp [bracketAt, hu])] using hb'
  case stop =>
    refine keepsPlace_goto (labelOk_afterStop hc) fun _ => ?_
    simpa [InstState.noteCr1] using bracketAgrees_afterStop hc

/-! ### The read phase -/

theorem labelOk_of_rd {sl : Slot} {l : RdLabel} {i a wb m} (hc : sl.cmd = .writeRead i a wb m) (hu : sl.upc = .rd l)
    (h : RdLengthOk l sl) : LabelOk sl := by
  simpa [LabelOk, hc, hu] using h

/-- The reception begins where its length asks for, or is over at once; the START is outstanding (R115). -/
theorem place_reception {sl : Slot} {i a wb m} (hc : sl.cmd = .writeRead i a wb m) (hm : sl.rlen.toNat = m)
    (hk : sl.k = 0) :
    LabelOk { sl with upc := receptionLabel m } ∧ BracketAgrees true { sl with upc := receptionLabel m } := by
  have hk0 : sl.k.toNat = 0 := by simp [hk]
  unfold receptionLabel
  split
  · next h3 =>
    have hd : sl.k.toNat < sl.rlen.toNat - 3 := by omega
    exact ⟨labelOk_of_rd hc rfl hd, by simp [BracketAgrees, bracketAt]⟩
  split
  · next h3 => exact ⟨labelOk_of_rd hc rfl (hm.trans h3).ge, by simp [BracketAgrees, bracketAt]⟩
  split
  · next h2 => exact ⟨labelOk_of_rd hc rfl (hm.trans h2), by simp [BracketAgrees, bracketAt]⟩
  split
  · next h1 => exact ⟨labelOk_of_rd hc rfl (hm.trans h1), by simp [BracketAgrees, bracketAt]⟩
  · have h0 : m = 0 := by omega
    simp [LabelOk, BracketAgrees, bracketAt, hc, h0]

/-- At the end of a reception of one byte or more the STOP has closed the bracket (R118 to R120). -/
theorem place_done {sl : Slot} {i a wb m} (hc : sl.cmd = .writeRead i a wb m) (hm : m ≠ 0) :
    LabelOk { sl with upc := .done } ∧ BracketAgrees false { sl with upc := .done } := by
  simp [LabelOk, BracketAgrees, bracketAt, hc, hm]

/-- A DR read leads where its label says and leaves the ghost bit alone. -/
theorem keepsPlace_receive {s t : State} {sl : Slot} {n : Nat} {k : BitVec 16} {L : Label}
    (h : receive sl n k L s = .next t) (hl : ∀ rb, LabelOk { sl with rb := rb, k := k, upc := L })
    (hb : ∀ o rb, BracketAgrees o sl → BracketAgrees o { sl with rb := rb, k := k, upc := L }) : KeepsPlace sl s t := by
  obtain ⟨-, rfl⟩ := receive_cases h
  exact keepsPlace_goto (hl _) (by simpa using hb _ _)

theorem rdStep_keepsPlace {s t : State} {sl : Slot} {l : RdLabel} {i a wb m} (hc : sl.cmd = .writeRead i a wb m)
    (hm : sl.rlen.toNat = m) (hu : sl.upc = .rd l) (hi : RdLengthOk l sl) (h : rdStep l sl s = .next t) :
    KeepsPlace sl s t := by
  have hl := labelOk_of_rd hc hu hi
  cases l <;> simp only [rdStep, Outcome.next.injEq] at h <;> try subst h
  case ack1 | start | addr | sr1 | t1Stop | t2Stop | t3Nack | t3Stop =>
    exact keepsPlace_goto (labelOk_of_rd hc rfl hi) (by simp [BracketAgrees, bracketAt, hu, InstState.noteCr1])
  case sb | dRxne | t1Rxne | t2Rxne | t2Btf | t3Rxne1 | t3Btf1 | t3Rxne2 | t3Btf2 =>
    exact keepsPlace_poll hl (labelOk_of_rd hc rfl hi) (by simp [BracketAgrees, bracketAt, hu])
  case t2Rd0 | t3Rd0 | t3Rd1 =>
    exact keepsPlace_receive h (fun _ => labelOk_of_rd hc rfl hi) (by simp [BracketAgrees, bracketAt, hu])
  case addrp =>
    refine keepsPlace_poll hl ?_ ?_ <;> split <;> rename_i h0
    · exact labelOk_of_rd hc rfl h0
    · exact labelOk_of_rd hc rfl trivial
    all_goals simp [BracketAgrees, bracketAt, hu]
  case nack0 =>
    refine keepsPlace_goto ?_ ?_ <;> split <;> rename_i h0
    · exact labelOk_of_rd hc rfl h0
    · exact labelOk_of_rd hc rfl trivial
    all_goals simp [BracketAgrees, bracketAt, hu, InstState.noteCr1]
  case pos =>
    exact keepsPlace_goto (labelOk_of_rd hc rfl trivial) (by simp [BracketAgrees, bracketAt, hu, InstState.noteCr1])
  case sr2 =>
    obtain ⟨hl', hb'⟩ := place_reception (sl := { sl with k := 0 }) hc hm rfl
    rw [hm]
    exact keepsPlace_goto hl' fun ho => by simpa [ho true (by simp [bracketAt, hu])] using hb'
  case dRd =>
    have hk : sl.k.toNat < sl.rlen.toNat - 3 := hi
    refine keepsPlace_receive h ?_ ?_ <;> split <;> rename_i h0
    · exact fun _ => labelOk_of_rd hc rfl h0
    · exact fun _ => labelOk_of_rd hc rfl (by change 3 ≤ sl.rlen.toNat; omega)
    all_goals simp [BracketAgrees, bracketAt, hu]
  case t1Rd | t2Rd1 =>
    have h0 : m ≠ 0 := by rw [← hm, show sl.rlen.toNat = _ from hi]; decide
    refine keepsPlace_receive h (fun _ => (place_done hc h0).1) fun _ _ ho => ?_
    rw [ho false (by simp [bracketAt, hu])]; exact (place_done hc h0).2
  case t3Fill =>
    have h0 : m ≠ 0 := by have h3 : 3 ≤ sl.rlen.toNat := hi; omega
    obtain ⟨-, rfl⟩ := fillLast_cases h
    refine keepsPlace_goto (place_done hc h0).1 fun ho => ?_
    rw [State.drew_inst, ho false (by simp [bracketAt, hu])]; exact (place_done hc h0).2

/-- Every micro-step keeps its place. -/
theorem exec_keepsPlace {s t : State} {sl : Slot} (hs : s.slot = some sl) (hr : RegistersOk sl) (hl : LabelOk sl)
    (h : exec sl.cmd s = .next t) : KeepsPlace sl s t := by
  have hf : InFlight s sl := ⟨hs, hr, hl⟩
  rcases exec_inFlight_cases hs h with ⟨l, i, scl, sda, f, c, hu, hc, rfl⟩ | ⟨l, hu, hc, hw⟩ |
      ⟨l, i, a, wb, m, hu, hc, hd⟩ | ⟨hu, rfl⟩
  · exact confStep_keepsPlace hc hu
  · have hn : sl.wlen.toNat = sl.wb.length := by
      rcases hc with ⟨i, a, wb, hc⟩ | ⟨i, a, wb, m, hc⟩ <;> simp [RegistersOk, hc] at hr <;> simp [hr]
    exact wrStep_keepsPlace hc hu (inFlight_wr hf hu).2 hn hw
  · have hm : sl.rlen.toNat = m := by simp [RegistersOk, hc] at hr; simp [hr]
    exact rdStep_keepsPlace hc hm hu (inFlight_rd hf hu).2 hd
  · exact keepsPlace_finish

/-! ### What depends on part of the state only -/

theorem OwnershipOk.congr {s t : State}
    (hi : ∀ j, (t.inst j).ctl = (s.inst j).ctl ∧ (t.inst j).periph = (s.inst j).periph) (hp : t.pins = s.pins)
    (h : OwnershipOk s) : OwnershipOk t := by
  simpa [OwnershipOk, hi, hp] using h

theorem GhostOk.congr {s t : State}
    (hi : ∀ j, (t.inst j).sh = (s.inst j).sh ∧ (t.inst j).bracketOpen = (s.inst j).bracketOpen) (ht : t.trace = s.trace)
    (h : GhostOk s) : GhostOk t := by
  simpa [GhostOk, hi, ht] using h

theorem MarkOk.append {s t : State} {r : Reply} (h : MarkOk s) (hr : t.replies = s.replies ++ [r])
    (hm : t.mark = (s.mark || r.isRefused)) : MarkOk t := by
  rw [MarkOk, hm, hr, show s.mark = _ from h]; simp

theorem SlotOk.of_none {s : State} (h : s.slot = none) : SlotOk s := by
  intro sl hs; simp [h] at hs

/-! ### A port operation keeps shadow and ghost -/

theorem PortOp.inst_ne {i j : Inst} {sl : Slot} {s t : State} (h : PortOp i sl s t) (hj : j ≠ i) :
    t.inst j = s.inst j := by
  cases h <;> simp [State.writeCr1_inst_ne, State.readSr1_inst_ne, State.readSr2_inst_ne, State.readDr_inst_ne,
      State.setInst_inst_ne, hj]

/-- An event of another instance leaves the shadow alone. -/
theorem shadowAfter_of_ne {i : Inst} {sh : Shadow} {e : Event} (h : i ≠ e.inst) : shadowAfter i sh e = sh := by
  cases e with
  | wcr1 j f b => cases f <;> simp [shadowAfter, show j ≠ i from Ne.symm h]
  | wrcc j f b => cases f <;> cases b <;> simp [shadowAfter, show j ≠ i from Ne.symm h]
  | _ => rfl

/-- An event of another instance leaves the ghost bit alone. -/
theorem openAfter_of_ne {i : Inst} {o : Bool} {e : Event} (h : i ≠ e.inst) : openAfter i o e = o := by
  cases e with
  | wcr1 j f b => cases f <;> cases b <;> simp [openAfter, show j ≠ i from Ne.symm h]
  | wrcc j f b => cases f <;> cases b <;> simp [openAfter, show j ≠ i from Ne.symm h]
  | _ => rfl

/-- What R88 does to the shadow at a CR1 write is what the event does to the shadow of the trace (R27). -/
theorem noteCr1_sh (x : InstState) (i : Inst) (f : Cr1Field) (b : Bool) :
    (x.noteCr1 f b).sh = shadowAfter i x.sh (.wcr1 i f b) := by
  cases f <;> simp [InstState.noteCr1, shadowAfter]

theorem noteCr1_bracketOpen (x : InstState) (i : Inst) (f : Cr1Field) (b : Bool) :
    (x.noteCr1 f b).bracketOpen = openAfter i x.bracketOpen (.wcr1 i f b) := by
  cases f <;> cases b <;> simp [InstState.noteCr1, openAfter]

/-- After a port operation shadow and ghost bit are still the functions of the trace (R27, R28). -/
theorem PortOp.ghostOk {i : Inst} {sl : Slot} {s t : State} (h : PortOp i sl s t) (hg : GhostOk s) : GhostOk t := by
  intro j
  obtain ⟨hsh, ho⟩ := hg j
  by_cases hj : j = i
  · subst hj
    cases h with
    | nothing => exact ⟨hsh, ho⟩
    | draw => exact ⟨by simpa using hsh, by simpa using ho⟩
    | cr1 f b =>
      simp [shadowOf_append, openOf_append, ← hsh, ← ho, noteCr1_sh _ j, noteCr1_bracketOpen _ j]
    | _ => simp [shadowOf_append, openOf_append, ← hsh, ← ho, shadowAfter, openAfter]
  · rw [h.inst_ne hj]
    rcases h.trace_cases with ht | ⟨e, ht, rfl⟩ <;> rw [ht]
    · exact ⟨hsh, ho⟩
    · rw [shadowOf_append, openOf_append, shadowAfter_of_ne hj, openAfter_of_ne hj]; exact ⟨hsh, ho⟩

/-! ### The invariant along a micro-step -/

theorem SlotOk.congr {s t : State} (hs : t.slot = s.slot) (hi : ∀ j, (t.inst j).periph = (s.inst j).periph)
    (h : SlotOk s) : SlotOk t := by
  simpa [SlotOk, hs, hi] using h

theorem PortOp.slot {i : Inst} {sl : Slot} {s t : State} (h : PortOp i sl s t) : t.slot = s.slot := by
  cases h <;> simp

theorem PortOp.inv {i : Inst} {sl : Slot} {s t : State} (h : PortOp i sl s t) (hI : Inv s) : Inv t := by
  obtain ⟨hp, hr, hm⟩ := h.pins
  exact ⟨hI.ownership.congr h.owners hp, hp ▸ hI.pinsWf, hI.slot.congr h.slot fun j => (h.owners j).2,
    by simpa [MarkOk, hr, hm] using hI.mark, h.ghostOk hI.ghost⟩

/-- What the invariant rests on: instances, pins and trace as they were, and a slot and a mark that are in order. -/
theorem Inv.congr {s t : State} (h : Inv s) (hi : ∀ j, t.inst j = s.inst j) (hp : t.pins = s.pins)
    (ht : t.trace = s.trace) (hs : SlotOk t) (hm : MarkOk t) : Inv t :=
  ⟨h.ownership.congr (by simp [hi]) hp, hp ▸ h.pinsWf, hs, hm, h.ghost.congr (by simp [hi]) ht⟩

theorem RegistersOk.same {sl sl' : Slot} {l : Label} (h : RegistersOk sl) (hs : SameRegisters sl sl') :
    RegistersOk { sl' with upc := l } := by
  obtain ⟨hc, hi, ha, hwl, hwb, hrl, hscl, hsda, hsel, hrb⟩ := hs
  simpa [RegistersOk, hc, hi, ha, hwl, hwb, hrl, hscl, hsda, hsel, hrb] using h

theorem Inv.goto {s : State} {sl sl' : Slot} {l : Label} (h : Inv s) (hs : s.slot = some sl) (hr : SameRegisters sl sl')
    (hl : LabelOk { sl' with upc := l }) : Inv (s.goto sl' l) := by
  obtain ⟨hreg, -, hb⟩ := h.slot sl hs
  refine h.congr (by simp) (by simp) (by simp) ?_ (by simpa [MarkOk] using h.mark)
  intro sl'' e
  obtain rfl : { sl' with upc := l } = sl'' := by simpa using e
  have hreg' := hreg.same (l := l) hr
  obtain ⟨-, hinst, -⟩ := hr
  exact ⟨hreg', hl, by simpa [hinst] using hb⟩

theorem Inv.finish {s : State} {r : Res} {rb : List Byte} (h : Inv s) : Inv (s.finish r rb) :=
  h.congr (by simp) (by simp) (by simp) (.of_none (by simp))
    (h.mark.append (r := .completed r rb) (by simp) (by simp [Reply.isRefused]))

/-- A micro-step of the command in flight keeps the invariant. -/
theorem Inv.exec_inFlight {s t : State} {sl : Slot} (h : Inv s) (hs : s.slot = some sl) (he : exec sl.cmd s = .next t) :
    Inv t := by
  obtain ⟨hreg, hlab, -⟩ := h.slot sl hs
  have hk := exec_keepsPlace hs hreg hlab he
  obtain ⟨s₁, hop, ⟨sl', l, hr, rfl⟩ | ⟨r, rfl⟩⟩ := exec_inFlight_shape hs he
  · exact (hop.inv h).goto (hop.slot.trans hs) hr (hk _ (by simp)).1
  · exact (hop.inv h).finish

/-! ### The invariant at a presentation -/

theorem Inv.took {s : State} {x : HostInput} {hs : List HostInput} (h : Inv s) : Inv (s.took x hs) :=
  h.congr (by simp) (by simp) (by simp) (h.slot.congr (by simp) (by simp)) (by simpa [MarkOk] using h.mark)

theorem Inv.refuse {s : State} {r : RefuseReason} (h : Inv s) : Inv (s.refuse r) :=
  h.congr (by simp) (by simp) (by simp) (h.slot.congr (by simp) (by simp))
    (h.mark.append (r := .refused r) (by simp) (by simp [Reply.isRefused]))

/-- A slot loaded with the registers of its command, at its first label, on an instance that has a controller. -/
theorem Inv.load {s : State} {sl : Slot} (h : Inv s) (hr : RegistersOk sl) (hl : LabelOk sl)
    (hb : (s.inst sl.inst).periph = .bound) : Inv (s.load sl) := by
  refine h.congr (by simp) (by simp) (by simp) ?_ (by simpa [MarkOk] using h.mark)
  intro sl' e
  obtain rfl : sl = sl' := by simpa using e
  exact ⟨hr, hl, by simpa using hb⟩

theorem Inv.drew {s : State} {n : Nat} (h : Inv s) : Inv (s.drew n) :=
  h.congr (by simp) (by simp) (by simp) (h.slot.congr (by simp) (by simp)) (by simpa [MarkOk] using h.mark)

theorem Inv.yieldNow {s : State} {r : Res} (h : Inv s) : Inv (s.yieldNow r) :=
  h.congr (by simp) (by simp) (by simp) (h.slot.congr (by simp) (by simp))
    (h.mark.append (r := .completed r []) (by simp) (by simp [Reply.isRefused]))

/-- A length that a frame can hold is what its register says. -/
theorem toNat_ofNat_of_le_maxLen {n : Nat} (h : n ≤ maxLen) : (BitVec.ofNat 16 n).toNat = n := by
  unfold maxLen at h; simp; omega

theorem registersOk_configureSlot (i : Inst) (scl sda : PinId) (freq clk : Word) :
    RegistersOk (configureSlot i scl sda freq clk) := ⟨rfl, rfl, rfl, rfl, rfl⟩

theorem registersOk_writeSlot {i : Inst} {a : BitVec 7} {wb : List Byte} (h : (Instr.write i a wb).wf = true) :
    RegistersOk (writeSlot i a wb) :=
  ⟨rfl, h, rfl, rfl, toNat_ofNat_of_le_maxLen (by simpa [Instr.wf] using h)⟩

theorem registersOk_writeReadSlot {i : Inst} {a : BitVec 7} {wb rb : List Byte} {m : Nat}
    (h : (Instr.writeRead i a wb m).wf = true) (hrb : rb.length = m) : RegistersOk (writeReadSlot i a wb m rb) := by
  obtain ⟨hw, hm⟩ : wb.length ≤ maxLen ∧ m ≤ maxLen := by simpa [Instr.wf] using h
  exact ⟨rfl, h, rfl, rfl, toNat_ofNat_of_le_maxLen hw, toNat_ofNat_of_le_maxLen hm, hrb⟩

/-! ### Ownership moves -/

/-- Both pins of a pair written: the pair's owners where they were written, the old owners elsewhere. -/
theorem PinMap.get_set_set {m : PinMap} {p q r : PinId} {o o' : PinOwner} (h : m.wf = true) :
    ((m.set p o).set q o').get r = if r = q then o' else if r = p then o else m.get r := by
  rw [PinMap.get_set (PinMap.wf_set h), PinMap.get_set h]

/-- Instance `i` and two pins of it get new owners; the rest of the state is as it was. -/
def State.transfer (s : State) (i : Inst) (p : Periph) (c : Option Controller) (m : PinMap) : State :=
  (s.setInst i { s.inst i with periph := p, ctl := c }).setPins m

@[simp] theorem State.transfer_inst_self (s : State) (i : Inst) (p : Periph) (c : Option Controller) (m : PinMap) :
    (s.transfer i p c m).inst i = { s.inst i with periph := p, ctl := c } := by simp [State.transfer]

theorem State.transfer_inst_ne (s : State) (i : Inst) (p : Periph) (c : Option Controller) (m : PinMap) (j : Inst)
    (h : j ≠ i) : (s.transfer i p c m).inst j = s.inst j := by simp [State.transfer, State.setInst_inst_ne, h]

@[simp] theorem State.transfer_pins (s : State) (i : Inst) (p : Periph) (c : Option Controller) (m : PinMap) :
    (s.transfer i p c m).pins = m := by simp [State.transfer]

/-- A move of ownership keeps what the rest of the invariant speaks of. -/
theorem Inv.transfer {s : State} {i : Inst} {p : Periph} {c : Option Controller} {m : PinMap} (h : Inv s)
    (hs : s.slot = none) (ho : OwnershipOk (s.transfer i p c m)) (hm : m.wf = true) : Inv (s.transfer i p c m) := by
  refine ⟨ho, by simpa using hm, .of_none (by simpa [State.transfer] using hs),
    by simpa [MarkOk, State.transfer] using h.mark, h.ghost.congr (fun j => ?_) (by simp [State.transfer])⟩
  by_cases hj : j = i
  · subst hj; simp
  · simp [State.transfer_inst_ne, hj]

/-- An instance of the host's becomes bound with two pins of the host's (R13, R80). -/
theorem OwnershipOk.bind {s : State} {i : Inst} {scl sda : PinId} (h : OwnershipOk s) (hwf : s.pins.wf = true)
    (hi : (s.inst i).periph = .host) (hscl : s.pins.get scl = .host) (hsda : s.pins.get sda = .host) (hne : scl ≠ sda) :
    OwnershipOk (s.transfer i .bound (some ⟨scl, sda⟩)
      ((s.pins.set scl (.bound i .scl)).set sda (.bound i .sda))) := by
  obtain ⟨hctl, hpin, hback⟩ := h
  have hnone : (s.inst i).ctl = none := by
    by_contra hc; simp [(hctl i).1 hc] at hi
  refine ⟨fun j => ?_, fun j c hc r => ?_, fun p j r hp => ?_⟩
  · by_cases hj : j = i
    · subst hj; simp
    · simpa [State.transfer_inst_ne, hj] using hctl j
  · rw [State.transfer_pins, PinMap.get_set_set hwf]
    by_cases hj : j = i
    · subst hj
      obtain rfl : ⟨scl, sda⟩ = c := by simpa using hc
      cases r <;> simp [Controller.pin, hne]
    · have hold := hpin j c (by simpa [State.transfer_inst_ne, hj] using hc) r
      rw [if_neg (by rintro e; simp [e, hsda] at hold), if_neg (by rintro e; simp [e, hscl] at hold)]
      exact hold
  · rw [State.transfer_pins, PinMap.get_set_set hwf] at hp
    split at hp
    · next e => cases hp; exact ⟨⟨scl, sda⟩, by simp, e.symm⟩
    split at hp
    · next e => cases hp; exact ⟨⟨scl, sda⟩, by simp, e.symm⟩
    obtain ⟨c, hc, hcp⟩ := hback p j r hp
    have hj : j ≠ i := by rintro rfl; simp [hnone] at hc
    exact ⟨c, by simpa [State.transfer_inst_ne, hj] using hc, hcp⟩

/-- A bound instance loses its controller, and both pins of it go to an owner that is no controller (R83, R85). -/
theorem OwnershipOk.unbind {s : State} {i : Inst} {c : Controller} {p : Periph} {o : PinOwner} (h : OwnershipOk s)
    (hwf : s.pins.wf = true) (hc : (s.inst i).ctl = some c) (hp : p ≠ .bound) (ho : ∀ j r, o ≠ .bound j r) :
    OwnershipOk (s.transfer i p none ((s.pins.set c.scl o).set c.sda o)) := by
  obtain ⟨hctl, hpin, hback⟩ := h
  refine ⟨fun j => ?_, fun j d hd r => ?_, fun q j r hq => ?_⟩
  · by_cases hj : j = i
    · subst hj; simpa using hp
    · simpa [State.transfer_inst_ne, hj] using hctl j
  · by_cases hj : j = i
    · subst hj; simp at hd
    · have hold := hpin j d (by simpa [State.transfer_inst_ne, hj] using hd) r
      have hother : ∀ r', d.pin r ≠ c.pin r' := by
        intro r' e; rw [e, hpin i c hc r'] at hold; cases hold; exact hj rfl
      rw [State.transfer_pins, PinMap.get_set_set hwf, if_neg (show d.pin r ≠ c.sda from hother .sda),
        if_neg (show d.pin r ≠ c.scl from hother .scl)]
      exact hold
  · rw [State.transfer_pins, PinMap.get_set_set hwf] at hq
    split at hq
    · exact absurd hq (ho j r)
    split at hq
    · exact absurd hq (ho j r)
    next hsda hscl =>
    obtain ⟨d, hd, hdp⟩ := hback q j r hq
    have hj : j ≠ i := by
      rintro rfl
      obtain rfl : c = d := by simpa [hc] using hd
      cases r
      · exact hscl hdp.symm
      · exact hsda hdp.symm
    exact ⟨d, by simpa [State.transfer_inst_ne, hj] using hd, hdp⟩

theorem Inv.acceptConfigure {s : State} {i : Inst} {scl sda : PinId} {freq clk : Word} (h : Inv s) (hs : s.slot = none)
    (hr : configureRefusal i scl sda s = none) : Inv (acceptConfigure i scl sda freq clk s) := by
  obtain ⟨-, hi, hscl, hsda, hne⟩ := configureRefusal_none.1 hr
  have hmove := h.transfer hs (h.ownership.bind h.pinsWf hi hscl hsda hne) (PinMap.wf_set (PinMap.wf_set h.pinsWf))
  exact hmove.load (registersOk_configureSlot i scl sda freq clk) trivial (by simp [configureSlot])

theorem liveController_eq_some {i : Inst} {c : Controller} {s : State} (h : liveController i s = some c) :
    (s.inst i).periph = .bound ∧ (s.inst i).ctl = some c := by
  unfold liveController at h
  split at h
  · next hb => exact ⟨hb, h⟩
  · cases h

theorem Inv.endController {s : State} {i : Inst} {c : Controller} {p : Periph} {o : PinOwner} (h : Inv s)
    (hs : s.slot = none) (hc : liveController i s = some c) (hp : p ≠ .bound) (ho : ∀ j r, o ≠ .bound j r) :
    Inv (endController i c p o s) :=
  (h.transfer hs (h.ownership.unbind h.pinsWf (liveController_eq_some hc).2 hp ho)
    (PinMap.wf_set (PinMap.wf_set h.pinsWf))).yieldNow

theorem Inv.acceptWrite {s : State} {i : Inst} {a : BitVec 7} {wb : List Byte} (h : Inv s)
    (hr : transferRefusal (.write i a wb) s = none) : Inv (s.load (writeSlot i a wb)) := by
  obtain ⟨hwf, hb⟩ := transferRefusal_none.1 hr
  exact h.load (registersOk_writeSlot hwf) rfl hb

theorem Inv.acceptWriteRead {s : State} {i : Inst} {a : BitVec 7} {wb : List Byte} {m : Nat} (h : Inv s)
    (hr : transferRefusal (.writeRead i a wb m) s = none) : Inv (acceptWriteRead i a wb m s) := by
  obtain ⟨hwf, hb⟩ := transferRefusal_none.1 hr
  exact h.drew.load (registersOk_writeReadSlot hwf (lentBuffer_length ..)) rfl
    (by simpa [writeReadSlot, Instr.inst] using hb)

/-- Whatever a presented command comes to, the invariant is kept. -/
theorem Inv.exec_idle {s t : State} {i : Instr} (h : Inv s) (hs : s.slot = none) (he : exec i s = .next t) : Inv t := by
  rcases exec_idle_cases hs he with ⟨r, rfl⟩ | ⟨j, scl, sda, f, c, -, hr, rfl⟩ | ⟨j, c, -, hc, rfl⟩ |
      ⟨j, c, -, hc, rfl⟩ | ⟨j, a, wb, rfl, hr, rfl⟩ | ⟨j, a, wb, m, rfl, hr, rfl⟩
  · exact h.refuse
  · exact h.acceptConfigure hs hr
  · exact h.endController hs hc (by simp) (by simp)
  · exact h.endController hs hc (by simp) (by simp)
  · exact h.acceptWrite hr
  · exact h.acceptWriteRead hr

/-- Settles O48, by what a step can do: a micro-step, nothing, a command presented, or a presentation refused. -/
theorem stepKeepsTheInvariant : Obligations.StepKeepsTheInvariant := by
  intro s t h hstep
  rcases step_cases hstep with ⟨sl, hs, he⟩ | ⟨-, -, rfl⟩ | ⟨x, hs, i, hn, -, -, he⟩ | ⟨x, hs, r, -, -, -, rfl⟩
  · exact h.exec_inFlight hs he
  · exact h
  · exact h.took.exec_idle (by simpa using hn) he
  · exact h.took.refuse

/-! ### The bracket -/

/-- A command just presented begins at a label where an earlier command decides the ghost bit, or is over. -/
theorem exec_idle_bracketOk {s t : State} {i : Instr} (hs : s.slot = none) (he : exec i s = .next t) : BracketOk t := by
  rcases exec_idle_cases hs he with ⟨r, rfl⟩ | ⟨j, scl, sda, f, c, -, -, rfl⟩ | ⟨j, c, -, -, rfl⟩ | ⟨j, c, -, -, rfl⟩ |
      ⟨j, a, wb, -, -, rfl⟩ | ⟨j, a, wb, m, -, -, rfl⟩ <;>
    intro sl hsl b hb <;>
    simp [hs, acceptConfigure, endController, acceptWriteRead] at hsl <;> subst hsl <;> cases hb

/-- A command that stays in flight keeps its registers. -/
theorem exec_sameRegisters {s t : State} {sl sl' : Slot} (hs : s.slot = some sl) (he : exec sl.cmd s = .next t)
    (ht : t.slot = some sl') : SameRegisters sl sl' := by
  obtain ⟨s₁, -, ⟨a, l, hr, rfl⟩ | ⟨r, rfl⟩⟩ := exec_inFlight_shape hs he
  · obtain rfl : { a with upc := l } = sl' := by simpa using ht
    exact hr
  · simp at ht

/-- Settles O50: a micro-step keeps its place, and no command in flight is left by a step of an idle sequencer but one
just accepted. -/
theorem stepKeepsTheBracket : Obligations.StepKeepsTheBracket := by
  intro s t h hb hstep
  rcases step_cases hstep with ⟨sl, hs, he⟩ | ⟨-, -, rfl⟩ | ⟨x, xs, i, hs, -, -, he⟩ | ⟨x, xs, r, hs, -, -, rfl⟩
  · obtain ⟨hreg, hlab, -⟩ := h.slot sl hs
    intro sl' hs' b hb'
    obtain ⟨-, hi, -⟩ := exec_sameRegisters hs he hs'
    rw [hi]
    exact (exec_keepsPlace hs hreg hlab he sl' hs').2 (hb sl hs) b hb'
  · exact hb
  · exact exec_idle_bracketOk (by simpa using hs) he
  · intro sl hsl; simp [hs] at hsl

/-! ### What one command can touch -/

/-- Settles O53: the shape of a micro-step says which registers it keeps. -/
theorem registersHeldInFlight : Obligations.RegistersHeldInFlight := by
  intro s t sl sl' hs hstep ht
  rw [step_inFlight hs] at hstep
  exact exec_sameRegisters hs hstep ht

/-- With a command in flight no other command has a next state (R15). -/
theorem eq_cmd_of_exec_next {s t : State} {sl : Slot} {i : Instr} (hs : s.slot = some sl) (he : exec i s = .next t) :
    i = sl.cmd := by
  by_contra hne
  cases i <;> simp [exec, execConfigure, execRelease, execDrop, execWrite, execWriteRead, hs, Ne.symm hne] at he

/-- A presented command touches no instance but its own. -/
theorem exec_idle_inst_ne {s t : State} {i : Instr} {j : Inst} (hs : s.slot = none) (he : exec i s = .next t)
    (hj : j ≠ i.inst) : t.inst j = s.inst j := by
  rcases exec_idle_cases hs he with ⟨r, rfl⟩ | ⟨k, scl, sda, f, c, rfl, -, rfl⟩ | ⟨k, c, rfl, -, rfl⟩ |
      ⟨k, c, rfl, -, rfl⟩ | ⟨k, a, wb, rfl, -, rfl⟩ | ⟨k, a, wb, m, rfl, -, rfl⟩
  · simp
  · simp [acceptConfigure, State.setInst_inst_ne _ k _ j hj]
  · simp [endController, State.setInst_inst_ne _ k _ j hj]
  · simp [endController, State.setInst_inst_ne _ k _ j hj]
  · simp
  · simp [acceptWriteRead]

/-- A micro-step is a port operation on the command's instance, and moving on or ending touches no instance and makes
no event. -/
theorem exec_portOp {s t : State} {sl : Slot} (hs : s.slot = some sl) (he : exec sl.cmd s = .next t) :
    ∃ s₁, PortOp sl.inst sl s s₁ ∧ t.trace = s₁.trace ∧ ∀ j, t.inst j = s₁.inst j := by
  obtain ⟨s₁, hop, ⟨a, l, -, rfl⟩ | ⟨r, rfl⟩⟩ := exec_inFlight_shape hs he <;> exact ⟨s₁, hop, by simp, by simp⟩

/-- Settles O52: a command presented changes owners of its own instance only, and a command in flight performs port
operations of its own instance only. -/
theorem instancesShareNothing : Obligations.InstancesShareNothing := by
  intro s t i hinst he
  cases hs : s.slot with
  | none =>
    refine ⟨fun j hj => exec_idle_inst_ne hs he hj, fun e ht => ?_⟩
    simp [exec_idle_trace hs he] at ht
  | some sl =>
    obtain rfl := eq_cmd_of_exec_next hs he
    rw [← hinst sl hs]
    obtain ⟨s₁, hop, htr, hin⟩ := exec_portOp hs he
    refine ⟨fun j hj => (hin j).trans (hop.inst_ne hj), fun e ht => ?_⟩
    rcases hop.trace_cases with h | ⟨e', h, hi⟩ <;> rw [htr, h] at ht
    · simp at ht
    · obtain rfl : e' = e := by simpa using ht
      exact hi

/-! ### Which accesses a step makes -/

/-- An event of a step is that of a port operation of the command in flight. -/
theorem portOp_of_event {s t : State} {e : Event} (h : step s = .next t) (ht : t.trace = s.trace ++ [e]) :
    ∃ sl s₁, s.slot = some sl ∧ exec sl.cmd s = .next t ∧ PortOp sl.inst sl s s₁ ∧ s₁.trace = s.trace ++ [e] := by
  rcases step_cases h with ⟨sl, hs, he⟩ | ⟨-, -, rfl⟩ | ⟨x, xs, i, hs, -, -, he⟩ | ⟨x, xs, r, -, -, -, rfl⟩
  · obtain ⟨s₁, hop, htr, -⟩ := exec_portOp hs he
    exact ⟨sl, s₁, hs, he, hop, htr ▸ ht⟩
  · simp at ht
  · simp [exec_idle_trace (s := s.took x xs) (by simpa using hs) he] at ht
  · simp at ht

/-- A CR1 write of a port operation writes 1, or writes ACK. -/
theorem PortOp.cr1_value {i j : Inst} {sl : Slot} {s t : State} {f : Cr1Field} {b : Bool} (h : PortOp i sl s t)
    (ht : t.trace = s.trace ++ [.wcr1 j f b]) : b = true ∨ f = .ack := by
  cases h with
  | cr1 f' b' hval =>
    obtain ⟨-, rfl, rfl⟩ : i = j ∧ f' = f ∧ b' = b := by simpa using ht
    exact hval
  | _ => simp at ht

/-- A clock-control write of a port operation is one of CONFIGURE's first three micro-steps, and EN is set. -/
theorem PortOp.rcc_value {i j : Inst} {sl : Slot} {s t : State} {f : RccField} {b : Bool} (h : PortOp i sl s t)
    (ht : t.trace = s.trace ++ [.wrcc j f b]) : (∃ l, sl.upc = .conf l) ∧ (f = .en → b = true) := by
  cases h with
  | en hu => exact ⟨⟨_, hu⟩, fun _ => by simp at ht; simp [ht]⟩
  | rstSet hu => exact ⟨⟨_, hu⟩, fun hf => by simp [hf] at ht⟩
  | rstClear hu => exact ⟨⟨_, hu⟩, fun hf => by simp [hf] at ht⟩
  | _ => simp at ht

/-- Only a CONFIGURE runs CONFIGURE's labels. -/
theorem cmd_of_conf {s t : State} {sl : Slot} {l : ConfLabel} (hs : s.slot = some sl) (he : exec sl.cmd s = .next t)
    (hu : sl.upc = .conf l) : ∃ j scl sda freq clk, sl.cmd = .configure j scl sda freq clk := by
  rcases exec_inFlight_cases hs he with ⟨_, i, scl, sda, f, c, -, hc, -⟩ | ⟨_, h, -⟩ | ⟨_, _, _, _, _, h, -⟩ | ⟨h, -⟩
  · exact ⟨i, scl, sda, f, c, hc⟩
  all_goals simp [hu] at h

/-- Settles O57: a CR1 write of a step is one of a port operation. -/
theorem onlyAckIsWrittenZero : Obligations.OnlyAckIsWrittenZero := by
  intro s t i f b h ht
  obtain ⟨sl, s₁, -, -, hop, htr⟩ := portOp_of_event h ht
  exact hop.cr1_value htr

/-- Settles O59: a clock-control write is made at a label that CONFIGURE alone has. -/
theorem clockControlOnlyByConfigure : Obligations.ClockControlOnlyByConfigure := by
  intro s t i f b h ht
  obtain ⟨sl, s₁, hs, he, hop, htr⟩ := portOp_of_event h ht
  obtain ⟨⟨l, hu⟩, hen⟩ := hop.rcc_value htr
  obtain ⟨j, scl, sda, freq, clk, hc⟩ := cmd_of_conf hs he hu
  exact ⟨⟨sl, j, scl, sda, freq, clk, hs, hc⟩, hen⟩

/-! ### Codes, verdicts, reset -/

/-- Every label, by rising code (R19). -/
def allLabels : List Label :=
  [.conf .en, .conf .rsts, .conf .rstc, .conf .pe, .wr .start, .wr .sb, .wr .addr, .wr .addrp, .wr .sr2, .wr .txe,
    .wr .data, .wr .btf, .wr .stop, .rd .ack1, .rd .start, .rd .sb, .rd .addr, .rd .addrp, .rd .nack0, .rd .pos,
    .rd .sr1, .rd .sr2, .rd .dRxne, .rd .dRd, .rd .t1Rxne, .rd .t1Stop, .rd .t1Rd, .rd .t2Rxne, .rd .t2Btf,
    .rd .t2Stop, .rd .t2Rd0, .rd .t2Rd1, .rd .t3Rxne1, .rd .t3Btf1, .rd .t3Nack, .rd .t3Rxne2, .rd .t3Btf2,
    .rd .t3Stop, .rd .t3Rd0, .rd .t3Rd1, .rd .t3Fill, .done]

theorem mem_allLabels (l : Label) : l ∈ allLabels := by
  cases l with
  | conf l => cases l <;> decide
  | wr l => cases l <;> decide
  | rd l => cases l <;> decide
  | done => decide

theorem nodup_codes : (allLabels.map Label.code).Nodup := by decide

theorem code_injective {l l' : Label} (h : l.code = l'.code) : l = l' :=
  List.inj_on_of_nodup_map nodup_codes (mem_allLabels l) (mem_allLabels l') h

theorem code_ne_zero (l : Label) : l.code ≠ 0 :=
  (by decide : ∀ l ∈ allLabels, l.code ≠ 0) l (mem_allLabels l)

/-- Settles O8: the codes of the list of all labels are distinct and none is 0. -/
theorem labelCodesDistinct : Obligations.LabelCodesDistinct := by
  refine ⟨fun _ _ => code_injective, code_ne_zero, fun s => ?_⟩
  cases hs : s.slot with
  | none => simp [State.upc, State.busy, hs]
  | some sl => simpa [State.upc, State.busy, hs] using code_ne_zero sl.upc

/-- Three bits decide a verdict (R97). -/
theorem pollVerdict_congr {m : BlockMap} {f : Flag} {v v' : Half}
    (h : ∀ n : Fin 16, n = f.bit m ∨ n = m.berrBit ∨ n = m.arloBit → v.getLsbD n.val = v'.getLsbD n.val) :
    pollVerdict m f v = pollVerdict m f v' := by
  have hf : flagSet m f v = flagSet m f v' := h _ (.inl rfl)
  have hb : berrSet m v = berrSet m v' := h _ (.inr (.inl rfl))
  have ha : arloSet m v = arloSet m v' := h _ (.inr (.inr rfl))
  rw [pollVerdict, pollVerdict, hf, hb, ha]

/-- Settles O12, flag by flag: the awaited flag's own bit is `Flag.bit`. -/
theorem pollIgnoresOtherBits : Obligations.PollIgnoresOtherBits := by
  intro m f v
  cases f <;> exact ⟨rfl, fun _ h => pollVerdict_congr h⟩

/-- Settles O45, from the reset record. -/
theorem resetStateOfTheSequencer : Obligations.ResetStateOfTheSequencer :=
  ⟨fun i => by cases i <;> exact ⟨rfl, rfl, rfl, rfl⟩, fun _ => rfl, rfl, rfl, rfl⟩

theorem reset_inst (i : Inst) : State.reset.inst i = InstState.reset := by cases i <;> rfl

theorem reset_ownershipOk : OwnershipOk State.reset := by
  refine ⟨fun i => ?_, fun i c hc => ?_, fun p i r hp => ?_⟩
  · simp [reset_inst, InstState.reset]
  · simp [reset_inst, InstState.reset] at hc
  · simp [State.reset, PinMap.get] at hp

/-- Settles O47: no instance is bound, no command is in flight, and the trace is empty. -/
theorem resetMeetsTheInvariant : Obligations.ResetMeetsTheInvariant := by
  refine ⟨⟨reset_ownershipOk, rfl, .of_none rfl, rfl, fun i => ?_⟩, fun sl hs => ?_⟩
  · rw [reset_inst]; exact ⟨rfl, rfl⟩
  · cases hs

/-! ### The default binding -/

/-- The addresses the sequencer accesses: CR1, DR, SR1 and SR2 of each block, and the two clock-control registers
(R41 to R43). -/
def defaultAccessAddrs : List Word :=
  [0x40005400, 0x40005410, 0x40005414, 0x40005418, 0x40005800, 0x40005810, 0x40005814, 0x40005818, 0x40021010,
    0x4002101C]

theorem default_addr_mem (e : Event) : (e.access RegMap.default).addr ∈ defaultAccessAddrs := by
  cases hr : e.reg with
  | some r =>
    rw [Event.access_addr_of_reg hr]
    rcases Event.reg_cases hr with rfl | rfl | rfl | rfl <;> cases e.inst <;> decide
  | none =>
    obtain ⟨f, b, -, ha⟩ := Event.access_of_reg_none (m := RegMap.default) hr
    simp only [ha, BusAccess.addr]
    cases e.inst <;> cases f <;> decide

theorem default_addr_aligned (e : Event) : (e.access RegMap.default).addr.toNat % 4 = 0 := by
  have h : ∀ a ∈ defaultAccessAddrs, a.toNat % 4 = 0 := by simp [defaultAccessAddrs]
  exact h _ (default_addr_mem e)

/-- The addresses of a block under the default binding: 0x400 bytes from its base (R41). -/
theorem default_contains (i : Inst) (a : Word) : (RegMap.default.block i).contains a = true ↔
    (RegMap.default.block i).base.toNat ≤ a.toNat ∧ a.toNat < (RegMap.default.block i).base.toNat + 0x400 := by
  rw [BlockMap.contains_iff]; cases i <;> rfl

/-- Every register of a block lies in it (R41, R42). -/
theorem default_contains_addr (i : Inst) (r : BlockReg) :
    (RegMap.default.block i).contains ((RegMap.default.block i).addr r) = true := by
  cases i <;> cases r <;> decide

/-- Settles O60, clause by clause: what an event accesses is said by the laws of the bus under any binding, and the
default's numbers are evaluated. -/
theorem defaultAccessesAreAligned : Obligations.DefaultAccessesAreAligned := by
  refine ⟨fun e => ⟨default_addr_aligned e, default_addr_mem e, ?_, fun r hr => ⟨Event.access_addr_of_reg hr,
    Event.reg_cases hr, ?_⟩, fun hn => ?_⟩, fun a => ⟨default_contains .a a, default_contains .b a, ?_⟩, by decide,
    fun i => by cases i <;> decide, fun i => by cases i <;> decide, fun i b => ?_⟩
  · rintro i v rfl
    exact ⟨v.setWidth 32, rfl, BitVec.toNat_setWidth_of_le (by decide)⟩
  · rw [Event.access_addr_of_reg hr]; exact default_contains_addr _ _
  · obtain ⟨f, b, he, -⟩ := Event.access_of_reg_none (m := RegMap.default) hn
    exact ⟨f, b, he⟩
  · rw [default_contains, default_contains]
    change ¬((0x40005400 ≤ a.toNat ∧ a.toNat < 0x40005400 + 0x400) ∧
      0x40005800 ≤ a.toNat ∧ a.toNat < 0x40005800 + 0x400)
    omega
  · cases i <;> exact ⟨rfl, rfl, rfl, rfl, rfl, rfl, rfl⟩

end Sys2Proof.Machine
end

section
/-! SUPPORT. The proofs of the statements about frames: the fields of the words of a frame, what the decoder reads
from a frame and that it is the encoder's frame, the opcode map, and how the host port answers a frame that spells no
command or an address too wide. -/

namespace Sys2Proof

/-! ### The fields of the command word, as numbers (R53 to R58) -/

theorem opOf_toNat (w : Word) : (opOf w).toNat = w.toNat % 16 := by simp [opOf]

theorem rsv0Of_toNat (w : Word) : (rsv0Of w).toNat = w.toNat / 32 % 8 := by
  simp [rsv0Of, Nat.shiftRight_eq_div_pow]

theorem sclOf_toNat (w : Word) : (sclOf w).toNat = w.toNat / 256 % 256 := by
  simp [sclOf, Nat.shiftRight_eq_div_pow]

theorem sdaOf_toNat (w : Word) : (sdaOf w).toNat = w.toNat / 65536 % 256 := by
  simp [sdaOf, Nat.shiftRight_eq_div_pow]

theorem rsv1Of_toNat (w : Word) : (rsv1Of w).toNat = w.toNat / 16777216 % 256 := by
  simp [rsv1Of, Nat.shiftRight_eq_div_pow]

theorem rsvROf_toNat (w : Word) : (rsvROf w).toNat = w.toNat / 256 % 16777216 := by
  simp [rsvROf, Nat.shiftRight_eq_div_pow]

theorem addrOf_toNat (w : Word) : (addrOf w).toNat = w.toNat / 256 % 128 := by
  simp [addrOf, Nat.shiftRight_eq_div_pow]

theorem rsv2Of_toNat (w : Word) : (rsv2Of w).toNat = w.toNat / 32768 % 2 := by
  simp [rsv2Of, Nat.shiftRight_eq_div_pow]

theorem wlenOf_toNat (w : Word) : (wlenOf w).toNat = w.toNat / 65536 % 65536 := by
  simp [wlenOf, Nat.shiftRight_eq_div_pow]

theorem rlenOf_toNat (w : Word) : (rlenOf w).toNat = w.toNat % 65536 := by simp [rlenOf]

theorem rsv3Of_toNat (w : Word) : (rsv3Of w).toNat = w.toNat / 65536 % 65536 := by
  simp [rsv3Of, Nat.shiftRight_eq_div_pow]

theorem instBit_instOf (w : Word) : (instBit (instOf w)).toNat = w.toNat / 16 % 2 := by
  have h : w.getLsbD 4 = decide (w.toNat / 16 % 2 = 1) := Nat.testBit_eq_decide_div_mod_eq
  rw [instOf, h]
  rcases Nat.mod_two_eq_zero_or_one (w.toNat / 16) with e | e <;> simp [e, instBit]

theorem instBit_injective {i j : Inst} (h : (instBit i).toNat = (instBit j).toNat) : i = j := by
  revert h
  cases i <;> cases j <;> decide

/-! ### The fields of the words the encoder writes -/

theorem opOf_configureWord (i : Inst) (scl sda : PinId) : opOf (configureWord i scl sda) = 1 := by
  apply BitVec.eq_of_toNat_eq
  rw [opOf_toNat, configureWord_toNat]
  change _ = 1
  omega

theorem rsv0Of_configureWord (i : Inst) (scl sda : PinId) : rsv0Of (configureWord i scl sda) = 0 := by
  have := instBit_lt i
  apply BitVec.eq_of_toNat_eq
  rw [rsv0Of_toNat, configureWord_toNat]
  change _ = 0
  omega

theorem rsv1Of_configureWord (i : Inst) (scl sda : PinId) : rsv1Of (configureWord i scl sda) = 0 := by
  have := instBit_lt i; have := scl.isLt; have := sda.isLt
  apply BitVec.eq_of_toNat_eq
  rw [rsv1Of_toNat, configureWord_toNat]
  change _ = 0
  omega

theorem instOf_configureWord (i : Inst) (scl sda : PinId) : instOf (configureWord i scl sda) = i := by
  have := instBit_lt i
  apply instBit_injective
  rw [instBit_instOf, configureWord_toNat]
  omega

theorem sclOf_configureWord (i : Inst) (scl sda : PinId) : sclOf (configureWord i scl sda) = scl := by
  have := instBit_lt i; have := scl.isLt
  apply BitVec.eq_of_toNat_eq
  rw [sclOf_toNat, configureWord_toNat]
  omega

theorem sdaOf_configureWord (i : Inst) (scl sda : PinId) : sdaOf (configureWord i scl sda) = sda := by
  have := instBit_lt i; have := scl.isLt; have := sda.isLt
  apply BitVec.eq_of_toNat_eq
  rw [sdaOf_toNat, configureWord_toNat]
  omega

theorem opOf_controlWord (op : BitVec 4) (i : Inst) : opOf (controlWord op i) = op := by
  have := op.isLt
  apply BitVec.eq_of_toNat_eq
  rw [opOf_toNat, controlWord_toNat]
  omega

theorem rsv0Of_controlWord (op : BitVec 4) (i : Inst) : rsv0Of (controlWord op i) = 0 := by
  have := instBit_lt i; have := op.isLt
  apply BitVec.eq_of_toNat_eq
  rw [rsv0Of_toNat, controlWord_toNat]
  change _ = 0
  omega

theorem rsvROf_controlWord (op : BitVec 4) (i : Inst) : rsvROf (controlWord op i) = 0 := by
  have := instBit_lt i; have := op.isLt
  apply BitVec.eq_of_toNat_eq
  rw [rsvROf_toNat, controlWord_toNat]
  change _ = 0
  omega

theorem instOf_controlWord (op : BitVec 4) (i : Inst) : instOf (controlWord op i) = i := by
  have := instBit_lt i; have := op.isLt
  apply instBit_injective
  rw [instBit_instOf, controlWord_toNat]
  omega

theorem rlenOf_lengthWord (n : BitVec 16) : rlenOf (lengthWord n) = n := by
  apply BitVec.eq_of_toNat_eq
  rw [rlenOf_toNat, lengthWord_toNat, Nat.mod_eq_of_lt n.isLt]

theorem rsv3Of_lengthWord (n : BitVec 16) : rsv3Of (lengthWord n) = 0 := by
  apply BitVec.eq_of_toNat_eq
  rw [rsv3Of_toNat, lengthWord_toNat, Nat.div_eq_of_lt n.isLt]
  rfl

/-! ### A word with its reserved fields clear is the encoder's word of its other fields -/

theorem configureWord_of_fields {f0 : Word} (h0 : rsv0Of f0 = 0) (hop : opOf f0 = 1) (h1 : rsv1Of f0 = 0) :
    configureWord (instOf f0) (sclOf f0) (sdaOf f0) = f0 := by
  have h0 : f0.toNat / 32 % 8 = 0 := rsv0Of_toNat f0 ▸ congrArg BitVec.toNat h0
  have hop : f0.toNat % 16 = 1 := opOf_toNat f0 ▸ congrArg BitVec.toNat hop
  have h1 : f0.toNat / 16777216 % 256 = 0 := rsv1Of_toNat f0 ▸ congrArg BitVec.toNat h1
  have := f0.isLt
  apply BitVec.eq_of_toNat_eq
  rw [configureWord_toNat, instBit_instOf, sclOf_toNat, sdaOf_toNat]
  omega

theorem controlWord_of_fields {f0 : Word} (hr : rsvROf f0 = 0) (h0 : rsv0Of f0 = 0) :
    controlWord (opOf f0) (instOf f0) = f0 := by
  have hr : f0.toNat / 256 % 16777216 = 0 := rsvROf_toNat f0 ▸ congrArg BitVec.toNat hr
  have h0 : f0.toNat / 32 % 8 = 0 := rsv0Of_toNat f0 ▸ congrArg BitVec.toNat h0
  have := f0.isLt
  apply BitVec.eq_of_toNat_eq
  rw [controlWord_toNat, instBit_instOf, opOf_toNat]
  omega

theorem transferWord_of_fields {f0 : Word} (h0 : rsv0Of f0 = 0) (h2 : rsv2Of f0 = 0) :
    transferWord (opOf f0) (instOf f0) (addrOf f0) (wlenOf f0) = f0 := by
  have h0 : f0.toNat / 32 % 8 = 0 := rsv0Of_toNat f0 ▸ congrArg BitVec.toNat h0
  have h2 : f0.toNat / 32768 % 2 = 0 := rsv2Of_toNat f0 ▸ congrArg BitVec.toNat h2
  have := f0.isLt
  apply BitVec.eq_of_toNat_eq
  rw [transferWord_toNat, instBit_instOf, opOf_toNat, addrOf_toNat, wlenOf_toNat]
  omega

theorem lengthWord_of_fields {f1 : Word} (h3 : rsv3Of f1 = 0) : lengthWord (rlenOf f1) = f1 := by
  have h3 : f1.toNat / 65536 % 65536 = 0 := rsv3Of_toNat f1 ▸ congrArg BitVec.toNat h3
  have := f1.isLt
  apply BitVec.eq_of_toNat_eq
  rw [lengthWord_toNat, rlenOf_toNat]
  omega

/-! ### The decoder reads back what the encoder writes -/

theorem ofNat16_toNat {n : Nat} (h : n ≤ maxLen) : (BitVec.ofNat 16 n).toNat = n :=
  BitVec.toNat_ofNat n 16 ▸ Nat.mod_eq_of_lt (Nat.lt_succ_of_le h)

theorem toNat_le_maxLen (n : BitVec 16) : n.toNat ≤ maxLen := Nat.le_of_lt_succ n.isLt

theorem wf_write {i : Inst} {a : BitVec 7} {wb : List Byte} :
    (Instr.write i a wb).wf = true ↔ wb.length ≤ maxLen := by
  simp [Instr.wf]

theorem wf_writeRead {i : Inst} {a : BitVec 7} {wb : List Byte} {m : Nat} :
    (Instr.writeRead i a wb m).wf = true ↔ wb.length ≤ maxLen ∧ m ≤ maxLen := by
  simp [Instr.wf]

/-- Decoding undoes encoding: each field of the words the encoder writes is the operand it was written from, and the
packed data bytes are read back. -/
theorem decode_encode_append {i : Instr} (h : i.wf = true) (rest : List Word) :
    decode (encode i ++ rest) = some (i, rest) := by
  cases i with
  | configure i scl sda freq clk =>
    simp [encode, decode, decodeConfigure, opOf_configureWord, rsv0Of_configureWord, rsv1Of_configureWord,
      instOf_configureWord, sclOf_configureWord, sdaOf_configureWord]
  | release i => simp [encode, decode, opOf_controlWord, rsv0Of_controlWord, rsvROf_controlWord, instOf_controlWord]
  | drop i => simp [encode, decode, opOf_controlWord, rsv0Of_controlWord, rsvROf_controlWord, instOf_controlWord]
  | write i a wb =>
    have hn := ofNat16_toNat (wf_write.1 h)
    simp [encode, decode, decodeWrite, opOf_transferWord, rsv0Of_transferWord, rsv2Of_transferWord,
      instOf_transferWord, addrOf_transferWord, wlenOf_transferWord, hn, dataBytes_packBytes, -BitVec.toNat_ofNat]
  | writeRead i a wb m =>
    have hn := ofNat16_toNat (wf_writeRead.1 h).1
    have hm := ofNat16_toNat (wf_writeRead.1 h).2
    simp [encode, decode, decodeWriteRead, opOf_transferWord, rsv0Of_transferWord, rsv2Of_transferWord,
      instOf_transferWord, addrOf_transferWord, wlenOf_transferWord, rlenOf_lengthWord, rsv3Of_lengthWord, hn, hm,
      dataBytes_packBytes, -BitVec.toNat_ofNat]

/-- Settles O1, by decode_encode_append. -/
theorem encodeDecodeRoundTrip : Obligations.EncodeDecodeRoundTrip :=
  fun _ rest h => decode_encode_append h rest

/-! ### What the decoder reads -/

/-- The format tables as the decoder applies them: with command word `f0` and the words `ws` after it, it reads the
command and leaves the rest (R54 to R61). RSV0 is common to every format and is not in it. -/
inductive Reads (f0 : Word) : List Word → Instr → List Word → Prop
  | configure {f1 f2 : Word} {rest : List Word} (hop : opOf f0 = 1) (h1 : rsv1Of f0 = 0) :
    Reads f0 (f1 :: f2 :: rest) (.configure (instOf f0) (sclOf f0) (sdaOf f0) f1 f2) rest
  | release {rest : List Word} (hop : opOf f0 = 2) (hr : rsvROf f0 = 0) : Reads f0 rest (.release (instOf f0)) rest
  | drop {rest : List Word} (hop : opOf f0 = 5) (hr : rsvROf f0 = 0) : Reads f0 rest (.drop (instOf f0)) rest
  | write {wb : List Byte} {rest : List Word} (hop : opOf f0 = 3) (h2 : rsv2Of f0 = 0)
    (hn : wb.length = (wlenOf f0).toNat) :
    Reads f0 (packBytes wb ++ rest) (.write (instOf f0) (addrOf f0) wb) rest
  | writeRead {f1 : Word} {wb : List Byte} {rest : List Word} (hop : opOf f0 = 4) (h2 : rsv2Of f0 = 0)
    (h3 : rsv3Of f1 = 0) (hn : wb.length = (wlenOf f0).toNat) :
    Reads f0 (f1 :: packBytes wb ++ rest) (.writeRead (instOf f0) (addrOf f0) wb (rlenOf f1).toNat) rest

theorem reads_of_decodeConfigure {f0 : Word} {ws rest : List Word} {i : Instr} (hop : opOf f0 = 1)
    (h : decodeConfigure f0 ws = some (i, rest)) : Reads f0 ws i rest := by
  match ws, h with
  | f1 :: f2 :: rest', h =>
    rw [decodeConfigure] at h
    split at h
    · next h1 => cases h; exact .configure hop h1
    · cases h

theorem reads_of_decodeWrite {f0 : Word} {ws rest : List Word} {i : Instr} (hop : opOf f0 = 3)
    (h : decodeWrite f0 ws = some (i, rest)) : Reads f0 ws i rest := by
  rw [decodeWrite] at h
  split at h
  · next h2 =>
    split at h
    · next hd =>
      cases h
      obtain ⟨hn, rfl⟩ := eq_packBytes_of_dataBytes hd
      exact .write hop h2 hn
    · cases h
  · cases h

theorem reads_of_decodeWriteRead {f0 : Word} {ws rest : List Word} {i : Instr} (hop : opOf f0 = 4)
    (h : decodeWriteRead f0 ws = some (i, rest)) : Reads f0 ws i rest := by
  match ws, h with
  | f1 :: ws', h =>
    rw [decodeWriteRead] at h
    split at h
    · next hr =>
      split at h
      · next hd =>
        cases h
        obtain ⟨hn, rfl⟩ := eq_packBytes_of_dataBytes hd
        exact .writeRead hop hr.1 hr.2 hn
      · cases h
    · cases h

/-- All the decoder can read from a command word and the words after it, format by format. -/
theorem reads_of_decode {f0 : Word} {ws rest : List Word} {i : Instr} (h : decode (f0 :: ws) = some (i, rest)) :
    rsv0Of f0 = 0 ∧ Reads f0 ws i rest := by
  rw [decode] at h
  split at h
  · next h0 =>
    refine ⟨h0, ?_⟩
    split at h
    · next hop => exact reads_of_decodeConfigure hop h
    split at h
    · next hop =>
      split at h
      · next hr => cases h; exact .release hop hr
      · cases h
    split at h
    · next hop => exact reads_of_decodeWrite hop h
    split at h
    · next hop => exact reads_of_decodeWriteRead hop h
    split at h
    · next hop =>
      split at h
      · next hr => cases h; exact .drop hop hr
      · cases h
    · cases h
  · cases h

/-- What is read is well-formed, and its frame is the words it was read from. -/
theorem Reads.wf_and_eq_encode {f0 : Word} {ws rest : List Word} {i : Instr} (h0 : rsv0Of f0 = 0)
    (h : Reads f0 ws i rest) : i.wf = true ∧ f0 :: ws = encode i ++ rest := by
  cases h with
  | configure hop h1 => exact ⟨rfl, by simp [encode, configureWord_of_fields h0 hop h1]⟩
  | release hop hr => exact ⟨rfl, by simp [encode, ← hop, controlWord_of_fields hr h0]⟩
  | drop hop hr => exact ⟨rfl, by simp [encode, ← hop, controlWord_of_fields hr h0]⟩
  | write hop h2 hn =>
    exact ⟨wf_write.2 (hn ▸ toNat_le_maxLen _), by simp [encode, hn, ← hop, transferWord_of_fields h0 h2]⟩
  | writeRead hop h2 h3 hn =>
    exact ⟨wf_writeRead.2 ⟨hn ▸ toNat_le_maxLen _, toNat_le_maxLen _⟩,
      by simp [encode, hn, ← hop, transferWord_of_fields h0 h2, lengthWord_of_fields h3]⟩

theorem eq_encode_append_of_decode {ws rest : List Word} {i : Instr} (h : decode ws = some (i, rest)) :
    i.wf = true ∧ ws = encode i ++ rest := by
  cases ws with
  | nil => cases h
  | cons f0 ws => exact (reads_of_decode h).2.wf_and_eq_encode (reads_of_decode h).1

/-- Settles O2: the formats the decoder applies are the encoder's. -/
theorem decodeReadsOnlyEncodings : Obligations.DecodeReadsOnlyEncodings :=
  fun _ _ _ => eq_encode_append_of_decode

/-! ### The length of a frame (R60) -/

theorem frameLength_eq (f0 : Word) : frameLength f0 =
    if (opOf f0).toNat = 1 then 3 else if (opOf f0).toNat = 3 then 1 + ((wlenOf f0).toNat + 3) / 4
    else if (opOf f0).toNat = 4 then 2 + ((wlenOf f0).toNat + 3) / 4 else 1 := by
  simp [frameLength, ← BitVec.toNat_inj]

/-- The words taken, the command word among them, are as many as the command word tells. -/
theorem Reads.length {f0 : Word} {ws rest : List Word} {i : Instr} (h : Reads f0 ws i rest) :
    ws.length + 1 = frameLength f0 + rest.length := by
  cases h <;> simp [frameLength, packBytes_length, *] <;> omega

/-- The frame lengths of R60, of the five opcodes there are. -/
theorem Reads.frameLength_cases {f0 : Word} {ws rest : List Word} {i : Instr} (h : Reads f0 ws i rest) :
    let op := (opOf f0).toNat
    let n := (wlenOf f0).toNat
    (op = 1 ∧ frameLength f0 = 3) ∨ ((op = 2 ∨ op = 5) ∧ frameLength f0 = 1) ∨
      (op = 3 ∧ frameLength f0 = 1 + (n + 3) / 4) ∨ (op = 4 ∧ frameLength f0 = 2 + (n + 3) / 4) := by
  cases h <;> simp [frameLength, *]

/-- Settles O4: what is read is an encoding, which is read the same whatever follows it. -/
theorem frameLengthFromFirstWord : Obligations.FrameLengthFromFirstWord := by
  intro f0 ws rest i h
  obtain ⟨hwf, he⟩ := eq_encode_append_of_decode h
  obtain ⟨-, hr⟩ := reads_of_decode h
  have hl : (encode i).length = frameLength f0 := by
    have := hr.length
    have := congrArg List.length he
    simp only [List.length_cons, List.length_append] at this
    omega
  refine ⟨encode i, he, ?_, decode_encode_append hwf⟩
  rw [hl]
  exact hr.frameLength_cases

/-! ### Operands (R61) -/

/-- The data words of a frame hold its bytes in order and zero after the last (R59, R61). -/
theorem packBytes_append_get {wb : List Byte} {w : Nat} (rest : List Word) (hw : 4 * w < wb.length) :
    ∃ d, (packBytes wb ++ rest)[w]? = some d ∧ ∀ j, j < 4 → byteOf d j = (wb[4 * w + j]?).getD 0 := by
  obtain ⟨d, hd, hb⟩ := packBytes_get wb w hw
  obtain ⟨hlt, -⟩ := List.getElem?_eq_some_iff.1 hd
  exact ⟨d, by rw [List.getElem?_append_left hlt, hd], hb⟩

theorem byte_of_dataWord {wb : List Byte} {k : Nat} (rest : List Word) (hk : k < wb.length) :
    ∃ d, (packBytes wb ++ rest)[k / 4]? = some d ∧ wb[k]? = some (byteOf d (k % 4)) := by
  obtain ⟨d, hd, hb⟩ := packBytes_append_get (wb := wb) (w := k / 4) rest (by omega)
  refine ⟨d, hd, ?_⟩
  rw [hb _ (by omega), Nat.div_add_mod, List.getElem?_eq_getElem hk, Option.getD_some]

theorem padding_eq_zero {wb : List Byte} {rest : List Word} {w k : Nat} {d : Word} (hw : 4 * w < wb.length)
    (hk : wb.length ≤ k) (hk' : k < 4 * (w + 1)) (hd : (packBytes wb ++ rest)[w]? = some d) :
    byteOf d (k % 4) = 0 := by
  obtain ⟨d', hd', hb⟩ := packBytes_append_get rest hw
  obtain rfl : d' = d := Option.some.inj (hd'.symm.trans hd)
  rw [hb _ (by omega), show 4 * w + k % 4 = k by omega, List.getElem?_eq_none hk, Option.getD_none]

theorem Reads.inst_eq {f0 : Word} {ws rest : List Word} {i : Instr} (h : Reads f0 ws i rest) :
    i.inst = instOf f0 := by
  cases h <;> rfl

/-- Settles O5, format by format: the operands are the fields by the format tables, the data bytes by the packing. -/
theorem operandsFromFields : Obligations.OperandsFromFields := by
  intro f0 ws rest i h
  obtain ⟨-, hr⟩ := reads_of_decode h
  refine ⟨?_, ?_⟩
  · rw [hr.inst_eq, instOf]
    cases f0.getLsbD 4 <;> rfl
  · cases hr with
    | configure => exact ⟨rfl, rfl, rfl, rfl⟩
    | release => trivial
    | drop => trivial
    | write _ _ hn => exact ⟨rfl, hn, fun k hk => byte_of_dataWord rest hk⟩
    | writeRead _ _ _ hn =>
      refine ⟨rfl, hn, ⟨_, rfl, rfl⟩, fun k hk => ?_⟩
      rw [Nat.add_comm 1, List.cons_append, List.getElem?_cons_succ]
      exact byte_of_dataWord rest hk

/-! ### What each format's row fixes (R63) -/

theorem Reads.op_range {f0 : Word} {ws rest : List Word} {i : Instr} (h : Reads f0 ws i rest) :
    1 ≤ (opOf f0).toNat ∧ (opOf f0).toNat ≤ 5 := by
  cases h <;> simp [*]

theorem Reads.rsv1 {f0 : Word} {ws rest : List Word} {i : Instr} (h : Reads f0 ws i rest)
    (hop : (opOf f0).toNat = 1) : rsv1Of f0 = 0 := by
  cases h with
  | configure _ h1 => exact h1
  | _ => simp_all

theorem Reads.rsvR {f0 : Word} {ws rest : List Word} {i : Instr} (h : Reads f0 ws i rest)
    (hop : (opOf f0).toNat = 2 ∨ (opOf f0).toNat = 5) : rsvROf f0 = 0 := by
  cases h with
  | release _ hr => exact hr
  | drop _ hr => exact hr
  | _ => simp_all

theorem Reads.rsv2 {f0 : Word} {ws rest : List Word} {i : Instr} (h : Reads f0 ws i rest)
    (hop : (opOf f0).toNat = 3 ∨ (opOf f0).toNat = 4) : rsv2Of f0 = 0 := by
  cases h with
  | write _ h2 => exact h2
  | writeRead _ h2 => exact h2
  | _ => simp_all

theorem Reads.rsv3 {f0 f1 : Word} {ws ws' rest : List Word} {i : Instr} (h : Reads f0 ws i rest)
    (hop : (opOf f0).toNat = 4) (hws : ws = f1 :: ws') : rsv3Of f1 = 0 := by
  cases h with
  | writeRead _ _ h3 => cases hws; exact h3
  | _ => simp_all

/-- The data words of format W begin at `F[1]`, those of format X at `F[2]`. -/
theorem Reads.padding {f0 d : Word} {ws rest : List Word} {i : Instr} {w k : Nat} (h : Reads f0 ws i rest)
    (hop : (opOf f0).toNat = 3 ∨ (opOf f0).toNat = 4) (hw : 4 * w < (wlenOf f0).toNat)
    (hk : (wlenOf f0).toNat ≤ k) (hk' : k < 4 * (w + 1))
    (hd : ws[(if (opOf f0).toNat = 3 then 0 else 1) + w]? = some d) : byteOf d (k % 4) = 0 := by
  cases h with
  | write hop' _ hn =>
    exact padding_eq_zero (hn ▸ hw) (hn ▸ hk) hk' (by simpa [hop'] using hd)
  | writeRead hop' _ _ hn =>
    exact padding_eq_zero (hn ▸ hw) (hn ▸ hk) hk' (by simpa [hop', Nat.add_comm 1] using hd)
  | _ => simp_all

/-! ### The opcode map (R65) -/

/-- The mask of format C keeps RSV1, RSV0 and OP. -/
theorem configureWord_and_mask (i : Inst) (scl sda : PinId) :
    configureWord i scl sda &&& 0xFF0000EF = 0x00000001 := by
  change ((0 : BitVec 8) ++ sda ++ scl ++ (0 : BitVec 3) ++ instBit i ++ (1 : BitVec 4)) &&&
    ((0xFF : BitVec 8) ++ (0 : BitVec 8) ++ (0 : BitVec 8) ++ (7 : BitVec 3) ++ (0 : BitVec 1) ++ (15 : BitVec 4)) = _
  simp only [BitVec.and_append]
  simp

/-- The mask of format R keeps all but INST. -/
theorem controlWord_and_mask (op : BitVec 4) (i : Inst) : controlWord op i &&& 0xFFFFFFEF = op.setWidth 32 := by
  cases i <;> revert op <;> decide

/-- The mask of formats W and X keeps RSV2, RSV0 and OP. -/
theorem transferWord_and_mask (op : BitVec 4) (i : Inst) (a : BitVec 7) (n : BitVec 16) :
    transferWord op i a n &&& 0x000080EF = op.setWidth 32 := by
  change (n ++ (0 : BitVec 1) ++ a ++ (0 : BitVec 3) ++ instBit i ++ op) &&&
    ((0 : BitVec 16) ++ (1 : BitVec 1) ++ (0 : BitVec 7) ++ (7 : BitVec 3) ++ (0 : BitVec 1) ++ (15 : BitVec 4)) = _
  have hop : ∀ op : BitVec 4, (0 : BitVec 28) ++ (op &&& 15) = op.setWidth 32 := by decide
  simp only [BitVec.and_append]
  simpa using hop op

/-- Settles O6: the command word is the encoder's word of its fields, whose mask keeps the opcode and the reserved
fields. -/
theorem opcodeMapHolds : Obligations.OpcodeMapHolds := by
  intro f0 ws rest i h
  obtain ⟨h0, hr⟩ := reads_of_decode h
  cases hr with
  | configure hop h1 => exact configureWord_of_fields h0 hop h1 ▸ configureWord_and_mask _ _ _
  | release hop hr => exact controlWord_of_fields hr h0 ▸ hop ▸ controlWord_and_mask _ _
  | drop hop hr => exact controlWord_of_fields hr h0 ▸ hop ▸ controlWord_and_mask _ _
  | write hop h2 => exact transferWord_of_fields h0 h2 ▸ hop ▸ transferWord_and_mask _ _ _ _
  | writeRead hop h2 => exact transferWord_of_fields h0 h2 ▸ hop ▸ transferWord_and_mask _ _ _ _

/-- Settles O7: the decoder is run on each frame. -/
theorem sampleFramesDecode : Obligations.SampleFramesDecode := by
  unfold Obligations.SampleFramesDecode
  decide

end Sys2Proof

namespace Sys2Proof.Machine

/-! ### What an idle step makes of a presentation -/

theorem refuse_refusedWith (s : State) (r : RefuseReason) : RefusedWith s (s.refuse r) r :=
  ⟨rfl, rfl, rfl, rfl, rfl, rfl, rfl, rfl, rfl, rfl, rfl, rfl⟩

/-- A presentation that spells a command: an idle step takes it from the port and runs the command. -/
theorem step_of_command_ok {s : State} {x : HostInput} {hs : List HostInput} {i : Instr} (h : Idle s)
    (hh : s.host = x :: hs) (hc : x.command = .ok i) : step s = exec i (s.took x hs) := by
  simp [step, show s.slot = none from h, takeInput, hh, hc]

/-- A presentation that spells none: an idle step takes it from the port and refuses it (R132). -/
theorem step_of_command_error {s : State} {x : HostInput} {hs : List HostInput} {r : RefuseReason} (h : Idle s)
    (hh : s.host = x :: hs) (hc : x.command = .error r) : step s = .next ((s.took x hs).refuse r) := by
  simp [step, show s.slot = none from h, takeInput, hh, hc]

theorem refused_of_command_error {s : State} {x : HostInput} {hs : List HostInput} {r : RefuseReason} (h : Idle s)
    (hh : s.host = x :: hs) (hc : x.command = .error r) :
    ∃ t, step s = .next t ∧ RefusedWith (s.took x hs) t r :=
  ⟨_, step_of_command_error h hh hc, refuse_refusedWith _ _⟩

/-! ### Frames that spell no command (R63) -/

theorem command_frame_of_decode_none {ws : List Word} (rb : List Byte) (h : decode ws = none) :
    (HostInput.frame ws rb).command = .error .badEncoding := by
  simp [HostInput.command, h]

theorem spellsNoCommand_of_decode {ws : List Word} (h : decode ws = none) : SpellsNoCommand ws :=
  ⟨h, fun _ rb _ hi hh => refused_of_command_error hi hh (command_frame_of_decode_none rb h)⟩

/-- A frame spells no command if no format's row applies to it. -/
theorem spellsNoCommand_of_not_reads {f0 : Word} {ws : List Word}
    (h : ∀ i rest, rsv0Of f0 = 0 → ¬ Reads f0 ws i rest) : SpellsNoCommand (f0 :: ws) := by
  apply spellsNoCommand_of_decode
  rw [Option.eq_none_iff_forall_ne_some]
  rintro ⟨i, rest⟩ hd
  exact h i rest (reads_of_decode hd).1 (reads_of_decode hd).2

/-- Settles O3, clause by clause: each clause is about a field that a format's row fixes. -/
theorem reservedFramesSpellNoCommand : Obligations.ReservedFramesSpellNoCommand := by
  intro f0 ws
  refine ⟨fun h => ?_, fun h => ?_, fun hop h => ?_, fun hop h => ?_, fun hop h => ?_, fun hop f1 ws' hws h => ?_,
    fun hop w k d hw hk hk' hd h => ?_, fun h => ?_, spellsNoCommand_of_decode rfl⟩ <;>
    refine spellsNoCommand_of_not_reads fun i rest h0 hr => ?_
  · obtain ⟨h1, h5⟩ := hr.op_range
    unfold opOf at h1 h5
    omega
  · exact h h0
  · exact h (hr.rsv1 hop)
  · exact h (hr.rsvR hop)
  · have hb : f0.getLsbD 15 = (rsv2Of f0).getLsbD 0 := by simp [rsv2Of]
    rw [hb, hr.rsv2 hop] at h
    cases h
  · exact h (hr.rsv3 hop hws)
  · exact h (hr.padding hop hw hk hk' hd)
  · have hl : ws.length + 1 < frameLength f0 := (frameLength_eq f0).symm ▸ h
    have := hr.length
    omega

/-! ### The front end (R62) -/

theorem transfer_of_wide {a : Nat} {cmd : BitVec 7 → Instr} (hwf : ∀ b, (cmd b).wf = true) (h : 0x80 ≤ a) :
    Call.transfer a cmd = .error .addrTooWide := by
  simp [Call.transfer, hwf, Nat.not_lt.2 h]

theorem transfer_of_narrow {a : Nat} {cmd : BitVec 7 → Instr} (hwf : ∀ b, (cmd b).wf = true) (h : a < 0x80) :
    Call.transfer a cmd = .ok (cmd (BitVec.ofNat 7 a)) := by
  simp [Call.transfer, hwf, h]

/-- Settles O43: the front end looks at the address before it makes 7 bits of it. -/
theorem frontEndRefusesWideAddress : Obligations.FrontEndRefusesWideAddress := by
  intro s a c rb hs cmd hi hh hc hwf
  have hcmd : (HostInput.call c rb).command = Call.transfer a cmd := by
    rcases hc with ⟨i, wb, rfl, rfl⟩ | ⟨i, wb, m, rfl, rfl⟩ <;> rfl
  refine ⟨fun h => ?_, fun h => ⟨BitVec.ofNat 7 a, ?_, ?_⟩⟩
  · exact refused_of_command_error hi hh (hcmd.trans (transfer_of_wide hwf h))
  · simpa using h
  · exact step_of_command_ok hi hh (hcmd.trans (transfer_of_narrow hwf h))

/-! ### The result word and the text form (R64, R66) -/

/-- Settles O9, result by result. -/
theorem resultWordCodes : Obligations.ResultWordCodes := by
  refine ⟨rfl, rfl, rfl, fun r => ?_⟩
  cases r <;> decide

/-- Settles O46: each line is read. -/
theorem assemblerReadsSamples : Obligations.AssemblerReadsSamples := by
  unfold Obligations.AssemblerReadsSamples
  decide

end Sys2Proof.Machine
end

section
/-! SUPPORT. The proofs of the statements about the parameters: no step changes one, and what the default capability
relation holds (R71 to R73). -/

namespace Sys2Proof.Machine

/-! ### The parameters along a step -/

theorem PortOp.cfg {i : Inst} {sl : Slot} {s t : State} (h : PortOp i sl s t) : t.cfg = s.cfg := by
  cases h <;> simp

/-- A micro-step of the command in flight changes no parameter. -/
theorem exec_inFlight_cfg {s t : State} {sl : Slot} (hs : s.slot = some sl) (he : exec sl.cmd s = .next t) :
    t.cfg = s.cfg := by
  obtain ⟨s₁, hop, ⟨sl', l, -, rfl⟩ | ⟨r, rfl⟩⟩ := exec_inFlight_shape hs he
  · simpa using hop.cfg
  · simpa using hop.cfg

/-- A command presented to an idle sequencer changes no parameter. -/
theorem exec_idle_cfg {s t : State} {i : Instr} (hs : s.slot = none) (he : exec i s = .next t) : t.cfg = s.cfg := by
  rcases exec_idle_cases hs he with ⟨r, rfl⟩ | ⟨j, scl, sda, f, c, -, -, rfl⟩ | ⟨j, c, -, -, rfl⟩ | ⟨j, c, -, -, rfl⟩ |
      ⟨j, a, wb, -, -, rfl⟩ | ⟨j, a, wb, m, -, -, rfl⟩ <;>
    simp [acceptConfigure, endController, acceptWriteRead]

/-- Settles O55, by what a step can do: a micro-step, nothing, a command presented, or a presentation refused. -/
theorem parametersNeverChange : Obligations.ParametersNeverChange := by
  intro s t hstep
  rcases step_cases hstep with ⟨sl, hs, he⟩ | ⟨-, -, rfl⟩ | ⟨x, xs, i, hs, -, -, he⟩ | ⟨x, xs, r, -, -, -, rfl⟩
  · exact exec_inFlight_cfg hs he
  · rfl
  · simpa using exec_idle_cfg (s := s.took x xs) (by simpa using hs) he
  · simp

/-! ### The default capability relation (R72) -/

/-- `CAP(p, i, r)` is that the fact is one of the listed ones. -/
theorem capHolds_iff_mem {c : Config} {p : PinId} {i : Inst} {r : Role} :
    c.capHolds p i r = true ↔ ⟨p, i, r⟩ ∈ c.cap := by
  simp [Config.capHolds]

/-- Settles O10: a fact is one of the six of the default list. -/
theorem defaultCapabilityIsSixFacts : Obligations.DefaultCapabilityIsSixFacts := by
  intro p i r
  rw [capHolds_iff_mem]
  simp [Config.default, defaultCap]

end Sys2Proof.Machine
end

section
/-! SUPPORT. The proofs of the statements about construction: what is gone stays gone, what acceptance of CONFIGURE
refuses and takes, its micro-steps and its whole run, and how RELEASE and DROP end a controller's life (R78 to R85). -/

namespace Sys2Proof.Machine
open Host

/-! ### What is gone stays gone (R85) -/

/-- Every instance and every pin that is GONE in `s` is GONE in `t`. -/
def GoneStays (s t : State) : Prop :=
  (∀ i, (s.inst i).periph = .gone → (t.inst i).periph = .gone) ∧
  (∀ p, s.pins.get p = .gone → t.pins.get p = .gone)

theorem GoneStays.of_same_owners {s t : State} (hi : ∀ j, (t.inst j).periph = (s.inst j).periph)
    (hp : t.pins = s.pins) : GoneStays s t :=
  ⟨fun j h => (hi j).trans h, fun _ h => hp ▸ h⟩

theorem GoneStays.trans {s t u : State} (h : GoneStays s t) (h' : GoneStays t u) : GoneStays s u :=
  ⟨fun i hi => h'.1 i (h.1 i hi), fun p hp => h'.2 p (h.2 p hp)⟩

/-- A move of ownership that takes neither an instance nor a pin that is GONE. -/
theorem GoneStays.transfer {s : State} {i : Inst} {p : Periph} {c : Option Controller} {q r : PinId} {o o' : PinOwner}
    (hwf : s.pins.wf = true) (hi : (s.inst i).periph ≠ .gone) (hq : s.pins.get q ≠ .gone)
    (hr : s.pins.get r ≠ .gone) : GoneStays s (s.transfer i p c ((s.pins.set q o).set r o')) := by
  refine ⟨fun j hj => ?_, fun x hx => ?_⟩
  · have hne : j ≠ i := by rintro rfl; exact hi hj
    simpa [State.transfer_inst_ne, hne] using hj
  · have hxq : x ≠ q := by rintro rfl; exact hq hx
    have hxr : x ≠ r := by rintro rfl; exact hr hx
    simpa [PinMap.get_set_set hwf, hxq, hxr] using hx

/-- A controller's end takes no pin that is GONE: the pins it takes are bound (R13). -/
theorem GoneStays.endController {s : State} {i : Inst} {c : Controller} {p : Periph} {o : PinOwner} (h : Inv s)
    (hc : liveController i s = some c) : GoneStays s (endController i c p o s) := by
  obtain ⟨hb, hctl⟩ := liveController_eq_some hc
  obtain ⟨-, hpin, -⟩ := h.ownership
  have hscl : s.pins.get c.scl = .bound i .scl := hpin i c hctl .scl
  have hsda : s.pins.get c.sda = .bound i .sda := hpin i c hctl .sda
  have hmove : GoneStays s (s.transfer i p none ((s.pins.set c.scl o).set c.sda o)) :=
    .transfer h.pinsWf (by simp [hb]) (by simp [hscl]) (by simp [hsda])
  exact hmove.trans (.of_same_owners (fun j => by simp [Machine.endController, State.transfer]) rfl)

/-- CONFIGURE takes no pin that is GONE: the pins it takes are the host's (R79). -/
theorem GoneStays.acceptConfigure {s : State} {i : Inst} {scl sda : PinId} {freq clk : Word} (h : Inv s)
    (hr : configureRefusal i scl sda s = none) : GoneStays s (acceptConfigure i scl sda freq clk s) := by
  obtain ⟨-, hi, hscl, hsda, -⟩ := configureRefusal_none.1 hr
  have hmove : GoneStays s (s.transfer i .bound (some ⟨scl, sda⟩)
      ((s.pins.set scl (.bound i .scl)).set sda (.bound i .sda))) :=
    .transfer h.pinsWf (by simp [hi]) (by simp [hscl]) (by simp [hsda])
  exact hmove.trans (.of_same_owners (fun j => by simp [Machine.acceptConfigure, State.transfer]) rfl)

theorem exec_idle_goneStays {s t : State} {i : Instr} (h : Inv s) (hs : s.slot = none) (he : exec i s = .next t) :
    GoneStays s t := by
  rcases exec_idle_cases hs he with ⟨r, rfl⟩ | ⟨j, scl, sda, f, c, -, hr, rfl⟩ | ⟨j, c, -, hc, rfl⟩ |
      ⟨j, c, -, hc, rfl⟩ | ⟨j, a, wb, -, -, rfl⟩ | ⟨j, a, wb, m, -, -, rfl⟩
  · exact .of_same_owners (by simp) rfl
  · exact .acceptConfigure h hr
  · exact .endController h hc
  · exact .endController h hc
  · exact .of_same_owners (by simp) rfl
  · exact .of_same_owners (by simp [acceptWriteRead]) rfl

theorem exec_inFlight_goneStays {s t : State} {sl : Slot} (hs : s.slot = some sl) (he : exec sl.cmd s = .next t) :
    GoneStays s t := by
  obtain ⟨s₁, hop, hend⟩ := exec_inFlight_shape hs he
  have hport : GoneStays s s₁ := .of_same_owners (fun j => (hop.owners j).2) hop.pins.1
  obtain ⟨sl', l, -, rfl⟩ | ⟨r, rfl⟩ := hend <;> exact hport.trans (.of_same_owners (by simp) rfl)

theorem step_goneStays {s t : State} (h : Inv s) (hstep : step s = .next t) : GoneStays s t := by
  rcases step_cases hstep with ⟨sl, hs, he⟩ | ⟨-, -, rfl⟩ | ⟨x, xs, i, hs, -, -, he⟩ | ⟨x, xs, r, -, -, -, rfl⟩
  · exact exec_inFlight_goneStays hs he
  · exact .of_same_owners (fun _ => rfl) rfl
  · have htook : GoneStays s (s.took x xs) := .of_same_owners (by simp) rfl
    exact htook.trans (exec_idle_goneStays h.took (by simpa using hs) he)
  · exact .of_same_owners (by simp) rfl

/-- Settles O56: no step takes an instance or a pin that is GONE, and under the invariant a GONE instance has no
controller. -/
theorem droppedStaysGone : Obligations.DroppedStaysGone := by
  intro s t h hstep
  obtain ⟨hinst, hpins⟩ := step_goneStays h hstep
  obtain ⟨hctl, -, -⟩ := (stepKeepsTheInvariant s t h hstep).ownership
  refine ⟨fun i hg => ⟨hinst i hg, ?_⟩, hpins⟩
  exact not_not.1 (mt (hctl i).1 (by simp [hinst i hg]))

/-! ### Acceptance of CONFIGURE (R79, R80) -/

theorem exec_configure_of_refusal {s : State} {i : Inst} {scl sda : PinId} {freq clk : Word} {r : RefuseReason}
    (h : Idle s) (hr : configureRefusal i scl sda s = some r) :
    exec (.configure i scl sda freq clk) s = .next (s.refuse r) := by
  simp [exec, execConfigure, show s.slot = none from h, hr]

theorem exec_configure_of_no_refusal {s : State} {i : Inst} {scl sda : PinId} {freq clk : Word}
    (h : Idle s) (hr : configureRefusal i scl sda s = none) :
    exec (.configure i scl sda freq clk) s = .next (acceptConfigure i scl sda freq clk s) := by
  simp [exec, execConfigure, show s.slot = none from h, hr]

/-- Settles O16, one clause for each of R79's checks, those before it met. -/
theorem configureRefusedByFirstFailingCheck : Obligations.ConfigureRefusedByFirstFailingCheck := by
  intro s i scl sda freq clk hidle ok1 ok2 ok3
  have refused {r : RefuseReason} (hr : configureRefusal i scl sda s = some r) :
      ∃ t, exec (.configure i scl sda freq clk) s = .next t ∧ RefusedWith s t r :=
    ⟨_, exec_configure_of_refusal hidle hr, refuse_refusedWith s r⟩
  have hcap : s.cfg.capOk i scl sda = true ↔ ok1 := by simp [Config.capOk, ok1, and_assoc]
  refine ⟨fun h1 => refused ?_, fun h1 h2 => refused ?_, fun h1 h2 h3 => refused ?_, fun h1 h2 h3 h4 => refused ?_⟩
  · have hno : s.cfg.capOk i scl sda = false := by simpa using mt hcap.1 h1
    simp [configureRefusal, hno]
  · change (s.inst i).periph ≠ .host at h2
    simp [configureRefusal, hcap.2 h1, h2]
  · have hpin : s.pins.get scl ≠ .host ∨ s.pins.get sda ≠ .host := not_and_or.1 h3
    change (s.inst i).periph = .host at h2
    simp [configureRefusal, hcap.2 h1, h2, hpin]
  · obtain ⟨hscl, hsda⟩ := h3
    change (s.inst i).periph = .host at h2
    have hmet := hcap.2 h1
    subst h4
    simp [configureRefusal, hmet, h2, hscl]

/-- Settles O17: the acceptance of R80, field by field. -/
theorem configureTakesOwnership : Obligations.ConfigureTakesOwnership := by
  intro s i scl sda freq clk hidle hwf hcap hi hscl hsda hne
  have hget (p : PinId) :=
    PinMap.get_set_set (p := scl) (q := sda) (r := p) (o := .bound i .scl) (o' := .bound i .sda) hwf
  refine ⟨_, exec_configure_of_no_refusal hidle (configureRefusal_none.2 ⟨hcap, hi, hscl, hsda, hne⟩), ?_⟩
  refine ⟨by simp [acceptConfigure], ?scl, ?sda, ?others, PinMap.wf_set (PinMap.wf_set hwf),
    ⟨_, rfl, rfl, rfl, rfl, rfl, rfl, rfl⟩, ?inst, ?frame⟩
  case scl => simp [acceptConfigure, hget, hne]
  case sda => simp [acceptConfigure, hget]
  case others => intro p hp hq; simp [acceptConfigure, hget, hp, hq]
  case inst => intro j hj; simp [acceptConfigure, State.setInst_inst_ne, hj]
  case frame => simp [acceptConfigure]

/-! ### The micro-steps of CONFIGURE (R80) -/

/-- A port operation touches its own instance only. -/
theorem PortOp.sameElsewhere {i : Inst} {sl : Slot} {s t : State} (h : PortOp i sl s t) : SameElsewhere i s t := by
  obtain ⟨hp, -, hm⟩ := h.pins
  exact ⟨fun j hj => h.inst_ne hj, hp, h.cfg, hm, by cases h <;> simp, by cases h <;> simp⟩

/-- A port operation that draws no byte, and then the next label, is a whole micro-step. -/
theorem PortOp.performs {s s₁ : State} {sl sl' : Slot} {l : Label} {es : List Event} {x : InstState}
    (h : PortOp sl.inst sl s s₁) (hd : sl.upc ≠ .rd .t3Fill) (he : exec sl.cmd s = .next (s₁.goto sl' l))
    (ht : s₁.trace = s.trace ++ es) (hx : s₁.inst sl.inst = x) : Performs s sl { sl' with upc := l } es x := by
  have hres : s₁.res = s.res := by cases h <;> simp
  have hdraws : s₁.draws = s.draws := by
    cases h with
    | draw hu => exact absurd hu hd
    | _ => simp
  exact performs_of he ht hx hres h.pins.2.1 hdraws h.sameElsewhere

/-- At a label of CONFIGURE a CONFIGURE is in flight, and it performs that label's micro-step. -/
theorem exec_conf_of_inFlight {s : State} {sl : Slot} {l : ConfLabel} (h : InFlight s sl) (hu : sl.upc = .conf l) :
    exec sl.cmd s = .next (confStep l sl s) := by
  obtain ⟨hs, -, hl⟩ := h
  cases hc : sl.cmd with
  | configure i scl sda freq clk => exact hc ▸ exec_conf hs hc hu
  | _ => simp [LabelOk, hc, hu] at hl

/-- Settles O18: each micro-step is one port operation and the next label. -/
theorem configureMicroSteps : Obligations.ConfigureMicroSteps := by
  intro s sl h x
  refine ⟨fun hu => ?_, fun hu => ?_, fun hu => ?_, fun hu => ?_⟩ <;> have he := exec_conf_of_inFlight h hu
  · exact (PortOp.en hu).performs (by simp [hu]) he (by simp) (by simp [x])
  · exact (PortOp.rstSet hu).performs (by simp [hu]) (by simpa [confStep] using he) (by simp) (by simp [x])
  · exact (PortOp.rstClear hu).performs (by simp [hu]) (by simpa [confStep] using he) (by simp) (by simp [x])
  · exact (PortOp.cr1 .pe true (.inl rfl) (by simp [hu]) (by simp [hu])).performs (by simp [hu]) he (by simp)
      (by simp [x, InstState.noteCr1])

/-! ### A whole CONFIGURE (R78, R80, R81) -/

/-- What the four micro-steps of CONFIGURE leave at the ports of instance `i`: a reset pulse, then PE. -/
def State.initialised (s : State) (i : Inst) : State :=
  ((((s.setInst i { s.inst i with sh := ⟨some true, none, none⟩, bracketOpen := false }).emit
    (.wrcc i .en true)).emit (.wrcc i .rst true)).emit (.wrcc i .rst false)).emit (.wcr1 i .pe true)

/-- Instance `i` configured with pins `scl` and `sda`: bound to its controller, initialised, the result given. -/
def State.configured (s : State) (i : Inst) (scl sda : PinId) : State :=
  ((s.transfer i .bound (some ⟨scl, sda⟩) ((s.pins.set scl (.bound i .scl)).set sda (.bound i .sda))).initialised
    i).finish .ok []

/-- States that agree at each instance and in every other field are one state. -/
theorem State.ext_inst {s t : State} (hinst : ∀ j, s.inst j = t.inst j) (hcfg : s.cfg = t.cfg)
    (hpins : s.pins = t.pins) (hslot : s.slot = t.slot) (hres : s.res = t.res) (hmark : s.mark = t.mark)
    (htrace : s.trace = t.trace) (hhost : s.host = t.host) (hlent : s.lent = t.lent)
    (hreplies : s.replies = t.replies) (hdraws : s.draws = t.draws) : s = t := by
  have ha : s.instA = t.instA := hinst .a
  have hb : s.instB = t.instB := hinst .b
  cases s; cases t
  simp_all

/-- The four micro-steps of R80, one after the other. -/
theorem confSteps_eq_initialised (sl : Slot) (s : State) :
    confStep .pe sl (confStep .rstc sl (confStep .rsts sl (confStep .en sl s))) =
      (s.initialised sl.inst).goto sl .done := by
  apply State.ext_inst
  case hinst =>
    intro j
    by_cases hj : j = sl.inst
    · subst hj; simp [confStep, State.initialised, InstState.noteCr1]
    · simp [confStep, State.initialised, State.setInst_inst_ne, State.writeCr1_inst_ne, hj]
  all_goals simp [confStep, State.initialised]

/-- A CONFIGURE in flight at a label performs that label's micro-step. -/
theorem step_conf {s : State} {sl : Slot} {i scl sda freq clk l} (hs : s.slot = some { sl with upc := .conf l })
    (hc : sl.cmd = .configure i scl sda freq clk) : step s = .next (confStep l sl s) := by
  have hsame : confStep l { sl with upc := .conf l } s = confStep l sl s := by cases l <;> rfl
  rw [step_inFlight hs, ← hsame]
  exact exec_conf hs hc rfl

/-- A command that has just moved on to DONE completes. -/
theorem step_goto_done {s : State} {sl : Slot} (hl : LabelOk { sl with upc := .done }) :
    step (s.goto sl .done) = .next (s.complete sl) :=
  (step_inFlight (State.goto_slot ..)).trans (exec_done (State.goto_slot ..) hl rfl)

/-- A CONFIGURE at its first label runs its four micro-steps and DONE. -/
theorem run_configure {s : State} {sl : Slot} {i scl sda freq clk} (hs : s.slot = some { sl with upc := .conf .en })
    (hc : sl.cmd = .configure i scl sda freq clk) :
    Core.run core 5 s = .next ((s.initialised sl.inst).complete sl) := by
  calc Core.run core 5 s
    _ = Core.run core 4 (confStep .en sl s) := run_succ (step_conf hs hc)
    _ = Core.run core 3 (confStep .rsts sl (confStep .en sl s)) := run_succ (step_conf rfl hc)
    _ = Core.run core 2 (confStep .rstc sl (confStep .rsts sl (confStep .en sl s))) := run_succ (step_conf rfl hc)
    _ = Core.run core 1 (confStep .pe sl (confStep .rstc sl (confStep .rsts sl (confStep .en sl s)))) :=
      run_succ (step_conf rfl hc)
    _ = Core.run core 1 ((s.initialised sl.inst).goto sl .done) :=
      congrArg (Core.run core 1) (confSteps_eq_initialised sl s)
    _ = .next ((s.initialised sl.inst).complete sl) := run_succ (step_goto_done (by simp [LabelOk, hc]))

/-- From its acceptance a CONFIGURE runs to an end in which its operands `freq` and `clk` have no part. -/
theorem run_acceptConfigure (s : State) (i : Inst) (scl sda : PinId) (freq clk : Word) :
    Core.run core 5 (acceptConfigure i scl sda freq clk s) = .next (s.configured i scl sda) := by
  refine (run_configure (sl := configureSlot i scl sda freq clk) rfl rfl).trans ?_
  cases i <;> rfl

/-- Settles O20: acceptance, and then the run whose end `State.configured` writes out. -/
theorem configureRunsToOk : Obligations.ConfigureRunsToOk := by
  intro s i scl sda freq clk hidle hcap hi hscl hsda hne
  refine ⟨_, s.configured i scl sda,
    exec_configure_of_no_refusal hidle (configureRefusal_none.2 ⟨hcap, hi, hscl, hsda, hne⟩),
    run_acceptConfigure s i scl sda freq clk, ?_⟩
  have hothers (j : Inst) (hj : j ≠ i) : (s.configured i scl sda).inst j = s.inst j := by
    simp [State.configured, State.initialised, State.setInst_inst_ne, State.transfer_inst_ne, hj]
  simpa [State.configured, State.initialised, State.transfer] using hothers

/-- Settles O21: both runs end in the one state that neither `freq` nor `clk` is part of. -/
theorem frequencyIsIgnored : Obligations.FrequencyIsIgnored := by
  intro s i scl sda freq clk freq' clk' hidle hcap hi hscl hsda hne
  have hok := configureRefusal_none.2 ⟨hcap, hi, hscl, hsda, hne⟩
  exact ⟨_, _, s.configured i scl sda, exec_configure_of_no_refusal hidle hok, exec_configure_of_no_refusal hidle hok,
    run_acceptConfigure s i scl sda freq clk, run_acceptConfigure s i scl sda freq' clk'⟩

/-! ### RELEASE and DROP (R83, R85) -/

/-- From `s` to `t` the controller `c` of instance `i` has ended: the instance has owner `p`, both pins have owner `o`,
the result is OK, and everything else is as it was (R83, R85). -/
def ControllerEnded (i : Inst) (c : Controller) (p : Periph) (o : PinOwner) (s t : State) : Prop :=
  t.inst i = { s.inst i with periph := p, ctl := none } ∧ t.pins.get c.scl = o ∧ t.pins.get c.sda = o ∧
    (∀ q, q ≠ c.scl → q ≠ c.sda → t.pins.get q = s.pins.get q) ∧ t.pins.wf = true ∧
    t.res = .ok ∧ t.replies = s.replies ++ [.completed .ok []] ∧ t.slot = none ∧ t.trace = s.trace ∧
    (∀ j, j ≠ i → t.inst j = s.inst j) ∧ t.mark = s.mark ∧ t.cfg = s.cfg ∧ t.host = s.host ∧ t.lent = s.lent ∧
    t.draws = s.draws

theorem endController_ended {s : State} {i : Inst} {c : Controller} {p : Periph} {o : PinOwner} (hs : Idle s)
    (hwf : s.pins.wf = true) : ControllerEnded i c p o s (endController i c p o s) := by
  have hget (q : PinId) := PinMap.get_set_set (p := c.scl) (q := c.sda) (r := q) (o := o) (o' := o) hwf
  refine ⟨by simp [endController], ?scl, ?sda, ?others, PinMap.wf_set (PinMap.wf_set hwf), rfl, ?replies, ?slot,
    ?trace, ?inst, ?frame⟩
  case scl => simp [endController, hget]
  case sda => simp [endController, hget]
  case others => intro q hq hr; simp [endController, hget, hq, hr]
  case inst => intro j hj; simp [endController, State.setInst_inst_ne, hj]
  case slot => simpa [endController, Idle] using hs
  all_goals simp [endController]

theorem liveController_of_bound {s : State} {i : Inst} {c : Controller} (hb : (s.inst i).periph = .bound)
    (hc : (s.inst i).ctl = some c) : liveController i s = some c := by
  simp [liveController, hb, hc]

theorem liveController_of_not_bound {s : State} {i : Inst} (hb : (s.inst i).periph ≠ .bound) :
    liveController i s = none := if_neg hb

theorem exec_release {s : State} {i : Inst} (h : Idle s) : exec (.release i) s =
    .next ((liveController i s).elim (s.refuse .noController) (endController i · .host .host s)) := by
  cases hc : liveController i s <;> simp [exec, execRelease, show s.slot = none from h, hc]

theorem exec_drop {s : State} {i : Inst} (h : Idle s) : exec (.drop i) s =
    .next ((liveController i s).elim (s.refuse .noController) (endController i · .gone .gone s)) := by
  cases hc : liveController i s <;> simp [exec, execDrop, show s.slot = none from h, hc]

/-- Settles O22: a controller's end with the host as the new owner, or, with no controller, the refusal. -/
theorem releaseReturnsHandleAndPins : Obligations.ReleaseReturnsHandleAndPins := by
  intro s i hidle hwf
  refine ⟨fun c hb hc => ⟨endController i c .host .host s, ?_, endController_ended hidle hwf⟩,
    fun hb => ⟨s.refuse .noController, ?_, refuse_refusedWith _ _⟩⟩
  · rw [exec_release hidle, liveController_of_bound hb hc, Option.elim_some]
  · rw [exec_release hidle, liveController_of_not_bound hb, Option.elim_none]

/-- Settles O23: a controller's end with no owner after it, or, with no controller, the refusal. -/
theorem dropLeavesHandleAndPinsGone : Obligations.DropLeavesHandleAndPinsGone := by
  intro s i hidle hwf
  refine ⟨fun c hb hc => ⟨endController i c .gone .gone s, ?_, endController_ended hidle hwf⟩,
    fun hb => ⟨s.refuse .noController, ?_, refuse_refusedWith _ _⟩⟩
  · rw [exec_drop hidle, liveController_of_bound hb hc, Option.elim_some]
  · rw [exec_drop hidle, liveController_of_not_bound hb, Option.elim_none]

/-- Settles O25: after RELEASE the instance is the host's, and every pin that was the host's still is; the rest is a
whole CONFIGURE. -/
theorem reconfigureAfterRelease : Obligations.ReconfigureAfterRelease := by
  intro s i c scl sda freq clk hidle hwf hb hc hcap hscl hsda hne
  obtain ⟨hrelease, -⟩ := releaseReturnsHandleAndPins s i hidle hwf
  obtain ⟨s₁, he, hinst, hpscl, hpsda, hpins, -, -, -, hslot, htrace, -, hmark, hcfg, -⟩ := hrelease c hb hc
  have hhost (p : PinId) (hp : s.pins.get p = .host) : s₁.pins.get p = .host := by
    by_cases h1 : p = c.scl
    · exact h1 ▸ hpscl
    by_cases h2 : p = c.sda
    · exact h2 ▸ hpsda
    exact (hpins p h1 h2).trans hp
  obtain ⟨s₂, t, haccept, hrun, ht, hbound, hfree, hok, -, -, hm, -⟩ :=
    configureRunsToOk s₁ i scl sda freq clk hslot (hcfg ▸ hcap) (by rw [hinst]) (hhost scl hscl) (hhost sda hsda) hne
  exact ⟨s₁, s₂, t, he, haccept, hrun, htrace ▸ ht, by rw [hbound], by rw [hbound], hfree, hok, hm.trans hmark⟩

end Sys2Proof.Machine
end

section
/-! SUPPORT. The proofs of the statements about the primitives: the address byte (R93), the poll and how long it may
wait (R94 to R96), completion (R18), and what every step does: it has a next state, it runs the command the host's
frame spells or the one in flight, and it adds at most one event to the trace (R86). -/

namespace Sys2Proof.Machine
open Host

/-! ### The address byte (R93) -/

/-- The address byte is the address with the direction bit appended below it. -/
theorem addrByte_toNat (a : BitVec 7) (read : Bool) : (addrByte a read).toNat = 2 * a.toNat + read.toNat := by
  change (BitVec.concat a read).toNat = _
  rw [BitVec.toNat_concat, Nat.mul_comm]

/-- Settles O11, for each value of the direction bit. -/
theorem addressByteIsShiftedAddress : Obligations.AddressByteIsShiftedAddress :=
  fun a => ⟨addrByte_toNat a false, addrByte_toNat a true⟩

/-! ### Completion (R18, R86) -/

/-- Settles O19: at DONE, `exec` is `State.complete`. -/
theorem doneYieldsOk : Obligations.DoneYieldsOk := by
  rintro s sl ⟨hs, -, hl⟩ hu
  exact ⟨s.complete sl, exec_done hs hl hu, by simp [SameElsewhere]⟩

/-! ### Which command a step runs (R15, R86, R140) -/

theorem command_frame_of_decode_some {ws rest : List Word} {i : Instr} (rb : List Byte)
    (h : decode ws = some (i, rest)) : (HostInput.frame ws rb).command = .ok i := by
  simp [HostInput.command, h]

/-- Settles O41: the frame is the command of its presentation, and a busy sequencer looks at no presentation. -/
theorem stepRunsTheDecodedCommand : Obligations.StepRunsTheDecodedCommand :=
  ⟨fun _ _ _ rb _ _ hidle hh hd => step_of_command_ok hidle hh (command_frame_of_decode_some rb hd),
    fun _ _ => step_inFlight⟩

/-! ### One poll read (R94, R95) -/

/-- A poll that raises nothing performs one SR1 read and leaves the command at the label it goes to. -/
theorem performs_of_poll {s : State} {sl : Slot} {f : Flag} {next l : Label} (h : InFlight s sl)
    (hp : pollAt sl = some (f, next)) (hl : s.poll sl f next = (s.readSr1 sl.inst .poll).goto sl l) :
    Performs s sl { sl with upc := l } [.rsr1 sl.inst (s.answer sl.inst) .poll] (s.inst sl.inst).answered := by
  have hfill : sl.upc ≠ .rd .t3Fill := by intro hu; simp [pollAt, hu] at hp
  exact (PortOp.sr1 .poll).performs hfill (hl ▸ exec_poll h hp) (by simp) (by simp)

/-- Settles O13: the flag leads to the successor, no flag to the same label. -/
theorem pollReadsOnceAndGoesOn : Obligations.PollReadsOnceAndGoesOn :=
  fun _ _ _ _ h hp => ⟨fun hv => performs_of_poll h hp (poll_of_satisfies hv),
    fun hv => performs_of_poll h hp (poll_of_pending hv)⟩

/-! ### A poll that waits (R96) -/

theorem goto_upc_self {s : State} {sl : Slot} (hs : s.slot = some sl) : s.goto sl sl.upc = s := by
  cases s; simpa [State.goto] using hs.symm

/-- A poll read that shows nothing is the whole step: the command in flight stays as it is. -/
theorem step_of_pending {s : State} {sl : Slot} {f : Flag} {next : Label} (h : InFlight s sl)
    (hp : pollAt sl = some (f, next)) (hv : Pending (s.layout sl.inst) f (s.answer sl.inst)) :
    step s = .next (s.readSr1 sl.inst .poll) := by
  rw [step_inFlight h.1, exec_poll h hp, poll_of_pending hv, goto_upc_self (by simpa using h.1)]

/-- `s` after as many poll reads of instance `i` as `vs` is long, which the oracle answered with `vs`. -/
def State.polled (s : State) (i : Inst) (vs : List Half) : State :=
  { s.setInst i { s.inst i with
      answers := (s.inst i).answers.drop vs.length, reads := (s.inst i).reads + vs.length } with
    trace := s.trace ++ vs.map fun v => .rsr1 i v .poll }

@[simp] theorem State.polled_inst_self (s : State) (i : Inst) (vs : List Half) : (s.polled i vs).inst i =
    { s.inst i with answers := (s.inst i).answers.drop vs.length, reads := (s.inst i).reads + vs.length } := by
  cases i <;> rfl

theorem State.polled_inst_ne {s : State} {i j : Inst} {vs : List Half} (h : j ≠ i) :
    (s.polled i vs).inst j = s.inst j := s.setInst_inst_ne i _ j h

theorem State.polled_sameElsewhere (s : State) (i : Inst) (vs : List Half) : SameElsewhere i s (s.polled i vs) :=
  ⟨fun _ => State.polled_inst_ne, s.setInst_pins .., s.setInst_cfg .., s.setInst_mark .., s.setInst_host ..,
    s.setInst_lent ..⟩

theorem State.polled_nil (s : State) (i : Inst) : s.polled i [] = s := by
  cases i <;> simp [State.polled, State.setInst, State.inst]

theorem State.polled_cons {s : State} {i : Inst} {v : Half} {vs rest : List Half}
    (h : (s.inst i).answers = v :: rest) : s.polled i (v :: vs) = (s.readSr1 i .poll).polled i vs := by
  have hread : s.answer i = v := s.answer_of_script i v rest h
  apply State.ext_inst
  case hinst =>
    intro j
    by_cases hj : j = i
    · subst hj; simp [h, InstState.answered]; omega
    · simp [State.polled_inst_ne, State.readSr1_inst_ne, hj]
  all_goals simp [State.polled, hread]

/-- While the oracle's answers show nothing, the run is the reads they answer. -/
theorem run_of_pending {s : State} {sl : Slot} {f : Flag} {next : Label} {vs rest : List Half} (h : InFlight s sl)
    (hp : pollAt sl = some (f, next)) (ha : (s.inst sl.inst).answers = vs ++ rest)
    (hv : ∀ v ∈ vs, Pending (s.layout sl.inst) f v) : Core.run core vs.length s = .next (s.polled sl.inst vs) := by
  induction vs generalizing s with
  | nil => rw [State.polled_nil]; rfl
  | cons v vs ih =>
    obtain ⟨hs, hreg, hlab⟩ := h
    obtain ⟨hv0, hvs⟩ := List.forall_mem_cons.1 hv
    have hread : s.answer sl.inst = v := s.answer_of_script sl.inst v _ ha
    have hstep := step_of_pending ⟨hs, hreg, hlab⟩ hp (hread ▸ hv0)
    rw [State.polled_cons ha, List.length_cons, run_succ hstep]
    exact ih ⟨by simpa using hs, hreg, hlab⟩ (by simp [ha]) (by simpa using hvs)

/-- Settles O15, from the state that the reads lead to. -/
theorem pollHasNoBound : Obligations.PollHasNoBound := by
  intro s sl f next vs rest h hp ha hv
  refine ⟨s.polled sl.inst vs, run_of_pending h hp ha hv, (s.setInst_slot ..).trans h.1, rfl, ?_, ?_, ?_, ?_, ?_, ?_,
    s.setInst_res .., s.setInst_replies .., s.setInst_draws .., s.polled_sameElsewhere ..⟩
  all_goals simp [ha]

/-! ### Every step has a next state (R86) -/

theorem receive_next {sl : Slot} {n : Nat} (k : BitVec 16) (L : Label) (s : State) (h : n < sl.rb.length) :
    ∃ t, receive sl n k L s = .next t := by
  simp [receive, storeRb, h]

theorem fillLast_next {sl : Slot} (s : State) (h : sl.rlen.toNat - 3 + 2 < sl.rb.length) :
    ∃ t, fillLast sl s = .next t := by
  simp [fillLast, storeRb, h]

/-- In the write phase the loop index W_DATA uses lies in `WB` (R102). -/
theorem wrStep_next {l : WrLabel} {sl : Slot} (s : State) (h : WrIndexOk l sl) : ∃ t, wrStep l sl s = .next t := by
  cases l with
  | data =>
    have hk : sl.k.toNat < sl.wb.length := h
    simp [wrStep, sendByte, hk]
  | _ => exact ⟨_, rfl⟩

/-- In the read phase every index into `RB` lies in it: the buffer is as long as the read, and a read long enough for
the label reaches it (R116 to R120). -/
theorem rdStep_next {l : RdLabel} {sl : Slot} (s : State) (h : RdLengthOk l sl)
    (hb : sl.rb.length = sl.rlen.toNat) : ∃ t, rdStep l sl s = .next t := by
  cases l with
  | dRd | t1Rd | t2Rd0 | t2Rd1 | t3Rd0 | t3Rd1 => exact receive_next _ _ _ (by simp only [RdLengthOk] at h; omega)
  | t3Fill => exact fillLast_next s (by simp only [RdLengthOk] at h; omega)
  | _ => exact ⟨_, rfl⟩

/-- A command in flight has a next state, whichever part of its program it has reached. -/
theorem exec_inFlight_next {s : State} {sl : Slot} (h : InFlight s sl) : ∃ t, exec sl.cmd s = .next t := by
  have ⟨hs, _, hl⟩ := h
  cases hu : sl.upc with
  | conf l => exact ⟨_, exec_conf_of_inFlight h hu⟩
  | wr l =>
    obtain ⟨hc, hk⟩ := inFlight_wr h hu
    exact exec_wr hs hc hu ▸ wrStep_next s hk
  | rd l =>
    obtain ⟨⟨i, a, wb, m, hc, hm, hb⟩, hlen⟩ := inFlight_rd h hu
    exact exec_rd hs hc hu ▸ rdStep_next s hlen (hb.trans hm.symm)
  | done => exact ⟨_, exec_done hs hl hu⟩

/-- An idle sequencer has a next state, whatever the host presents or does not. -/
theorem step_idle_next {s : State} (h : Idle s) : ∃ t, step s = .next t := by
  cases hh : s.host with
  | nil => exact ⟨s, by simp [step, show s.slot = none from h, takeInput, hh]⟩
  | cons x xs =>
    cases hc : x.command with
    | ok i => exact step_of_command_ok h hh hc ▸ exec_idle_next i h
    | error r => exact ⟨_, step_of_command_error h hh hc⟩

/-- Settles O49: the invariant says that a command in flight has its registers and its label as a run has them. -/
theorem stepsNeverFault : Obligations.StepsNeverFault := by
  intro s hI
  cases hs : s.slot with
  | none => exact step_idle_next hs
  | some sl =>
    obtain ⟨hreg, hlab, -⟩ := hI.slot sl hs
    exact step_inFlight hs ▸ exec_inFlight_next ⟨hs, hreg, hlab⟩

/-! ### Events of a step (R29, R86) -/

/-- Settles O51: a micro-step is one port operation, and every other step makes no port access. -/
theorem stepAppendsAtMostOneEvent : Obligations.StepAppendsAtMostOneEvent := by
  intro s t hstep
  rcases step_cases hstep with ⟨sl, hs, he⟩ | ⟨-, -, rfl⟩ | ⟨x, xs, i, hs, -, -, he⟩ | ⟨x, xs, r, -, -, -, rfl⟩
  · obtain ⟨s₁, hop, ht, -⟩ := exec_portOp hs he
    exact ht ▸ hop.trace_cases.imp_right fun ⟨e, h, _⟩ => ⟨e, h⟩
  · exact .inl rfl
  · exact .inl (exec_idle_trace (s := s.took x xs) hs he)
  · exact .inl rfl

end Sys2Proof.Machine
end

section
/-! SUPPORT. The proofs of the statements about WRITE: its acceptance, the micro-steps of the write phase, and the runs
they make up, the whole one and those that an error ends (R98 to R108). -/

namespace Sys2Proof.Machine
open Host

/-! ### Acceptance of WRITE (R98) -/

theorem exec_write_of_bound {s : State} {i : Inst} {a : BitVec 7} {wb : List Byte} (h : Idle s)
    (hl : wb.length ≤ 65535) (hb : Bound s i) :
    exec (.write i a wb) s = .next (s.load (writeSlot i a wb)) := by
  have hr : transferRefusal (.write i a wb) s = none := transferRefusal_none.2 ⟨wf_write.2 hl, hb⟩
  simp [exec, execWrite, show s.slot = none from h, hr]

/-- Settles O26: the accepted command is in the slot and nothing else is touched. -/
theorem writeLoadsTheSlot : Obligations.WriteLoadsTheSlot := by
  intro s i a wb hidle hl hb
  exact ⟨_, writeSlot i a wb, exec_write_of_bound hidle hl hb, rfl, rfl, rfl, rfl, toNat_ofNat_of_le_maxLen hl, rfl, rfl,
    rfl, rfl, rfl, rfl, rfl, rfl, rfl, rfl, rfl, rfl, rfl, rfl⟩

/-! ### The micro-steps of the write phase (R99 to R104) -/

theorem exec_wr_of_inFlight {s : State} {sl : Slot} {l : WrLabel} (h : InFlight s sl) (hu : sl.upc = .wr l) :
    exec sl.cmd s = wrStep l sl s :=
  exec_wr h.1 (inFlight_wr h hu).1 hu

/-- In the write phase `WLEN` is the number of bytes in `WB` (R16). -/
theorem wlen_toNat_of_inFlight {s : State} {sl : Slot} {l : WrLabel} (h : InFlight s sl) (hu : sl.upc = .wr l) :
    sl.wlen.toNat = sl.wb.length := by
  have hr : RegistersOk sl := h.2.1
  rcases (inFlight_wr h hu).1 with ⟨i, a, wb, hc⟩ | ⟨i, a, wb, m, hc⟩ <;> simp [RegistersOk, hc] at hr <;> simp [hr]

/-- The address byte of a write is the address shifted left (R93). -/
theorem addrByte_write (a : BitVec 7) : addrByte a false = BitVec.ofNat 8 (2 * a.toNat) :=
  BitVec.eq_of_toNat_eq (by simp [addrByte_toNat]; omega)

theorem performs_wr_start {s : State} {sl : Slot} (h : InFlight s sl) (hu : sl.upc = .wr .start) :
    Performs s sl { sl with upc := .wr .sb } [.wcr1 sl.inst .start true]
      { s.inst sl.inst with bracketOpen := true } :=
  (PortOp.cr1 .start true (.inl rfl) (by simp) (by simp [hu])).performs (by simp [hu]) (exec_wr_of_inFlight h hu)
    (by simp) (by simp [InstState.noteCr1])

theorem performs_wr_addr {s : State} {sl : Slot} (h : InFlight s sl) (hu : sl.upc = .wr .addr) :
    Performs s sl { sl with upc := .wr .addrp } [.wdr sl.inst (addrByte sl.addr7 false)] (s.inst sl.inst) :=
  (PortOp.dr _).performs (by simp [hu]) (exec_wr_of_inFlight h hu) (by simp) (by simp)

theorem performs_wr_sr2 {s : State} {sl : Slot} (h : InFlight s sl) (hu : sl.upc = .wr .sr2) :
    Performs s sl { sl with upc := if 0 < sl.wlen.toNat then .wr .txe else .wr .btf }
      [.rsr2 sl.inst (s.answer sl.inst)] (s.inst sl.inst).answered :=
  PortOp.sr2.performs (by simp [hu]) (exec_wr_of_inFlight h hu) (by simp) (by simp)

theorem performs_wr_data {s : State} {sl : Slot} {v : Byte} (h : InFlight s sl) (hu : sl.upc = .wr .data)
    (hv : sl.wb[sl.k.toNat]? = some v) :
    Performs s sl { sl with k := sl.k + 1, upc := if sl.k.toNat + 1 < sl.wlen.toNat then .wr .txe else .wr .btf }
      [.wdr sl.inst v] (s.inst sl.inst) := by
  have hk : sl.k.toNat < sl.wb.length := (inFlight_wr h hu).2
  have hnext := succ_toNat_of_lt (wlen_toNat_of_inFlight h hu ▸ hk)
  have he : exec sl.cmd s = .next ((s.writeDr sl.inst v).goto { sl with k := sl.k + 1 }
      (if sl.k.toNat + 1 < sl.wlen.toNat then .wr .txe else .wr .btf)) := by
    rw [exec_wr_of_inFlight h hu]
    simp only [wrStep, sendByte, hv, BitVec.lt_def, hnext]
  exact (PortOp.dr v).performs (by simp [hu]) he (by simp) (by simp)

theorem performs_wr_stop {s : State} {sl : Slot} (h : InFlight s sl) (hu : sl.upc = .wr .stop) :
    Performs s sl { sl with upc := afterStop sl.cmd } [.wcr1 sl.inst .stop true]
      { s.inst sl.inst with bracketOpen := false } :=
  (PortOp.cr1 .stop true (.inl rfl) (by simp) (by simp [hu])).performs (by simp [hu]) (exec_wr_of_inFlight h hu)
    (by simp) (by simp [InstState.noteCr1])

/-- Settles O27, label by label; at W_DATA the loop index lies in `WB`. -/
theorem writePhaseMicroSteps : Obligations.WritePhaseMicroSteps := by
  intro s sl h x
  refine ⟨performs_wr_start h, fun hu => ?addr, performs_wr_sr2 h, fun hu => ?data, fun hu => ?stop⟩
  case addr => exact addrByte_write sl.addr7 ▸ performs_wr_addr h hu
  case data =>
    have hk : sl.k.toNat < sl.wb.length := (inFlight_wr h hu).2
    exact ⟨_, List.getElem?_eq_getElem hk, performs_wr_data h hu (List.getElem?_eq_getElem hk)⟩
  case stop =>
    have hstop := performs_wr_stop h hu
    rcases (inFlight_wr h hu).1 with ⟨i, a, wb, hc⟩ | ⟨i, a, wb, m, hc⟩ <;> simpa [hc, afterStop] using hstop

/-! ### Micro-steps one after another -/

/-- From `s`, `n` steps lead to `t`, where the registers are `sl`: they have made the events `es` on instance `i`, and
have touched nothing but the slot, the trace and that instance. -/
structure Reaches (i : Inst) (n : Nat) (es : List Event) (s t : State) (sl : Slot) : Prop where
  run       : Core.run core n s = .next t
  inFlight  : InFlight t sl
  inst      : sl.inst = i
  trace     : t.trace = s.trace ++ es
  res       : t.res = s.res
  replies   : t.replies = s.replies
  draws     : t.draws = s.draws
  elsewhere : SameElsewhere i s t

theorem SameElsewhere.refl (i : Inst) (s : State) : SameElsewhere i s s :=
  ⟨fun _ _ => rfl, rfl, rfl, rfl, rfl, rfl⟩

theorem SameElsewhere.trans {i : Inst} {s t u : State} (h : SameElsewhere i s t) (h' : SameElsewhere i t u) :
    SameElsewhere i s u := by
  obtain ⟨hi, hp, hc, hm, hh, hl⟩ := h
  obtain ⟨hi', hp', hc', hm', hh', hl'⟩ := h'
  exact ⟨fun j hj => (hi' j hj).trans (hi j hj), hp'.trans hp, hc'.trans hc, hm'.trans hm, hh'.trans hh, hl'.trans hl⟩

namespace Reaches

theorem refl {s : State} {sl : Slot} (h : InFlight s sl) : Reaches sl.inst 0 [] s s sl :=
  ⟨rfl, h, rfl, by simp, rfl, rfl, rfl, .refl _ _⟩

variable {i : Inst} {n : Nat} {es : List Event} {s t : State} {sl : Slot}

theorem layout (r : Reaches i n es s t sl) : t.layout i = s.layout i := by
  obtain ⟨-, -, hcfg, -⟩ := r.elsewhere
  simp [State.layout, hcfg]

/-- One micro-step more. -/
theorem step (r : Reaches i n es s t sl) {sl' : Slot} {es' : List Event} {x : InstState}
    (h : Performs t sl sl' es' x) : ∃ u, Reaches i (n + 1) (es ++ es') s u sl' ∧ u.inst i = x := by
  obtain ⟨run, hf, rfl, trace, res, replies, draws, elsewhere⟩ := r
  obtain ⟨u, he, hslot, htrace, hx, hres, hreplies, hdraws, helse⟩ := h
  obtain ⟨hs, hreg, hlab⟩ := hf
  have hsame := exec_sameRegisters hs he hslot
  obtain ⟨hlab', -⟩ := exec_keepsPlace hs hreg hlab he sl' hslot
  have hstep : Core.run core 1 t = .next u := run_succ ((step_inFlight hs).trans he)
  exact ⟨u, ⟨(run_add run).trans hstep, ⟨hslot, hreg.same hsame, hlab'⟩, hsame.2.1, by simp [htrace, trace],
    hres.trans res, hreplies.trans replies, hdraws.trans draws, elsewhere.trans helse⟩, hx⟩

/-- One poll more, satisfied by the oracle's next answer. -/
theorem poll (r : Reaches i n es s t sl) {f : Flag} {L : Label} {v : Half} {rest : List Half}
    (hp : pollAt sl = some (f, L)) (hv : Satisfies (s.layout i) f v) (ha : (t.inst i).answers = v :: rest) :
    ∃ u, Reaches i (n + 1) (es ++ [.rsr1 i v .poll]) s u { sl with upc := L } ∧ u.inst i = (t.inst i).answered := by
  have hread := t.answer_of_script i v rest ha
  obtain rfl := r.inst
  obtain ⟨hseen, -⟩ := pollReadsOnceAndGoesOn t sl f L r.inFlight hp
  exact hread ▸ r.step (hseen (by rwa [r.layout, hread]))

end Reaches

/-! ### The write phase as a run (R99 to R108) -/

/-- `sl` when the first `k` bytes of `WB` have been sent: at the TxE poll for the next one, or at the BTF poll after
the last (R101, R102). -/
def Slot.sent (sl : Slot) (k : Nat) : Slot :=
  { sl with k := BitVec.ofNat 16 k, upc := if k < sl.wb.length then .wr .txe else .wr .btf }

theorem Slot.sent_wr (sl : Slot) (k : Nat) : ∃ l, (sl.sent k).upc = .wr l := by
  by_cases hk : k < sl.wb.length <;> simp [Slot.sent, hk]

theorem pollAt_sent {sl : Slot} {k : Nat} (hk : k < sl.wb.length) : pollAt (sl.sent k) = some (.txe, .wr .data) := by
  simp [pollAt, Slot.sent, hk]

theorem pollAt_sent_all (sl : Slot) : pollAt (sl.sent sl.wb.length) = some (.btf, .wr .stop) := by
  simp [pollAt, Slot.sent]

/-- Between two bytes, and after the last, the write phase polls. -/
theorem exists_pollAt_sent {sl : Slot} {k : Nat} (hk : k ≤ sl.wb.length) : ∃ f L, pollAt (sl.sent k) = some (f, L) := by
  obtain hlt | rfl := hk.lt_or_eq
  · exact ⟨_, _, pollAt_sent hlt⟩
  · exact ⟨_, _, pollAt_sent_all sl⟩

/-- The trace of the bytes sent depends on as many bytes as there are polls. -/
theorem sentTrace_take (i : Inst) (vs : List Half) (bs : List Byte) :
    sentTrace i vs (bs.take vs.length) = sentTrace i vs bs := by
  induction vs generalizing bs with
  | nil => rfl
  | cons v vs ih => cases bs <;> simp [sentTrace, ih]

theorem sentTrace_length {i : Inst} :
    ∀ {vs : List Half} {bs : List Byte}, vs.length = bs.length → (sentTrace i vs bs).length = 2 * bs.length
  | [], [], _ => rfl
  | [], _ :: _, h => nomatch h
  | _ :: _, [], h => nomatch h
  | _ :: _, _ :: _, h => by simp [sentTrace, sentTrace_length (Nat.succ.inj h), Nat.mul_succ]

theorem writeTrace_length {i : Inst} {a : BitVec 7} {wb : List Byte} {w : WriteAnswers}
    (h : w.txe.length = wb.length) : (writeTrace i a wb w).length = (4 + wb.length) + (3 + wb.length) := by
  simp only [writeTrace, openingTrace, List.length_append, sentTrace_length h, List.length_cons, List.length_nil]
  omega

theorem controlTrace_append (tr tr' : List Event) : controlTrace (tr ++ tr') = controlTrace tr ++ controlTrace tr' :=
  List.filter_append ..

/-- The control trace of the bytes sent is their data writes (R30). -/
theorem controlTrace_sentTrace {i : Inst} :
    ∀ {vs : List Half} {bs : List Byte}, vs.length = bs.length → controlTrace (sentTrace i vs bs) = bs.map (.wdr i)
  | [], [], _ => rfl
  | [], _ :: _, h => nomatch h
  | _ :: _, [], h => nomatch h
  | _ :: _, b :: _, h => congrArg (Event.wdr i b :: ·) (controlTrace_sentTrace (Nat.succ.inj h))

/-- The control trace of a write phase: START, address, SR2 read, the data writes, STOP (R30, R108). -/
theorem controlTrace_writeTrace {i : Inst} {a : BitVec 7} {wb : List Byte} {w : WriteAnswers}
    (h : w.txe.length = wb.length) : controlTrace (writeTrace i a wb w) =
      [.wcr1 i .start true, .wdr i (addrByte a false), .rsr2 i w.sr2] ++ wb.map (.wdr i) ++ [.wcr1 i .stop true] := by
  rw [writeTrace, controlTrace_append, controlTrace_append, controlTrace_sentTrace h]
  rfl

namespace Reaches

variable {i : Inst} {n : Nat} {es : List Event} {s t : State} {sl : Slot} {rest : List Half}

/-- W_START to W_SR2 (R99 to R101). -/
theorem opening (r : Reaches i n es s t sl) (hu : sl.upc = .wr .start) {vsb vaddr vsr2 : Half}
    (hsb : Satisfies (s.layout i) .sb vsb) (haddr : Satisfies (s.layout i) .addr vaddr)
    (ha : (t.inst i).answers = vsb :: vaddr :: vsr2 :: rest) :
    ∃ u, Reaches i (n + 5) (es ++ openingTrace i sl.addr7 vsb vaddr vsr2) s u (sl.sent 0) ∧
      u.inst i = { t.inst i with bracketOpen := true, answers := rest, reads := (t.inst i).reads + 3 } := by
  obtain rfl := r.inst
  have hlen := wlen_toNat_of_inFlight r.inFlight hu
  have hk : sl.k = 0 := (inFlight_wr r.inFlight hu).2
  obtain ⟨t₁, r₁, h₁⟩ := r.step (performs_wr_start r.inFlight hu)
  obtain ⟨t₂, r₂, h₂⟩ := r₁.poll rfl hsb (by rw [h₁]; exact ha)
  obtain ⟨t₃, r₃, h₃⟩ := r₂.step (performs_wr_addr r₂.inFlight rfl)
  obtain ⟨t₄, r₄, h₄⟩ := r₃.poll (rest := vsr2 :: rest) rfl haddr (by simp [h₃, h₂, h₁, ha])
  obtain ⟨t₅, r₅, h₅⟩ := r₄.step (performs_wr_sr2 r₄.inFlight rfl)
  have hread : t₄.answer sl.inst = vsr2 := t₄.answer_of_script _ _ rest (by simp [h₄, h₃, h₂, h₁, ha])
  have hslot : { sl with upc := if 0 < sl.wlen.toNat then .wr .txe else .wr .btf } = sl.sent 0 := by
    simp [Slot.sent, hlen, hk]
  refine ⟨t₅, ?_, ?_⟩
  · simpa [openingTrace, hread, hslot, addrByte] using r₅
  · simp [h₅, h₄, h₃, h₂, h₁, ha, InstState.answered]

/-- One satisfied TxE poll and W_DATA (R102). -/
theorem sendByte {k : Nat} (r : Reaches i n es s t (sl.sent k)) {b : Byte} (hb : sl.wb[k]? = some b) {v : Half}
    (hv : Satisfies (s.layout i) .txe v) (ha : (t.inst i).answers = v :: rest) :
    ∃ u, Reaches i (n + 2) (es ++ [.rsr1 i v .poll, .wdr i b]) s u (sl.sent (k + 1)) ∧
      u.inst i = (t.inst i).answered := by
  obtain ⟨hk, -⟩ := List.getElem?_eq_some_iff.1 hb
  obtain ⟨l, hl⟩ := sl.sent_wr k
  have hlen : sl.wlen.toNat = sl.wb.length := wlen_toNat_of_inFlight (sl := sl.sent k) r.inFlight hl
  have hk16 : (BitVec.ofNat 16 k).toNat = k := toNat_ofNat_of_le_maxLen (by have := toNat_le_maxLen sl.wlen; omega)
  obtain rfl : sl.inst = i := r.inst
  obtain ⟨t₁, r₁, h₁⟩ := r.poll (pollAt_sent hk) hv ha
  obtain ⟨t₂, r₂, h₂⟩ := r₁.step (performs_wr_data (v := b) r₁.inFlight rfl (by simpa [Slot.sent, hk16] using hb))
  refine ⟨t₂, ?_, h₂.trans h₁⟩
  simpa [Slot.sent, hlen, hk16, BitVec.ofNat_add] using r₂

/-- A satisfied TxE poll and W_DATA for each of some bytes (R102). -/
theorem sendBytes {vs : List Half} {k : Nat} (r : Reaches i n es s t (sl.sent k)) (hk : k + vs.length ≤ sl.wb.length)
    (hv : ∀ v ∈ vs, Satisfies (s.layout i) .txe v) (ha : (t.inst i).answers = vs ++ rest) :
    ∃ u, Reaches i (n + 2 * vs.length) (es ++ sentTrace i vs (sl.wb.drop k)) s u (sl.sent (k + vs.length)) ∧
      u.inst i = { t.inst i with answers := rest, reads := (t.inst i).reads + vs.length } := by
  induction vs generalizing n es t k with
  | nil => exact ⟨t, by simpa [sentTrace] using r, by simp [← show (t.inst i).answers = rest from ha]⟩
  | cons v vs ih =>
    obtain ⟨hv0, hvs⟩ := List.forall_mem_cons.1 hv
    rw [List.length_cons] at hk ⊢
    have hk0 : k < sl.wb.length := by omega
    obtain ⟨t₁, r₁, h₁⟩ := r.sendByte (List.getElem?_eq_getElem hk0) hv0 ha
    obtain ⟨u, ru, hu⟩ := ih r₁ (by omega) hvs (by simp [h₁, ha])
    refine ⟨u, ?_, by simp [hu, h₁, InstState.answered]; omega⟩
    rw [List.drop_eq_getElem_cons hk0, sentTrace]
    simpa [Nat.mul_add, Nat.add_assoc, Nat.add_comm, Nat.add_left_comm] using ru

/-- The whole write phase, of WRITE and of WRITE_READ (R99 to R104). -/
theorem writePhase (r : Reaches i n es s t sl) (hu : sl.upc = .wr .start) {w : WriteAnswers}
    (hw : w.Good (s.layout i) sl.wb.length) (ha : (t.inst i).answers = w.list ++ rest) :
    ∃ u, Reaches i (n + (7 + 2 * sl.wb.length)) (es ++ writeTrace i sl.addr7 sl.wb w) s u
        { sl with k := BitVec.ofNat 16 sl.wb.length, upc := afterStop sl.cmd } ∧
      u.inst i = { t.inst i with
        bracketOpen := false, answers := rest, reads := (t.inst i).reads + (4 + sl.wb.length) } := by
  obtain ⟨hsb, haddr, hlen, htxe, hbtf⟩ := hw
  obtain ⟨t₁, r₁, h₁⟩ := r.opening hu hsb haddr ha
  obtain ⟨t₂, r₂, h₂⟩ := r₁.sendBytes (vs := w.txe) (rest := w.btf :: rest) (by omega) htxe (by simp [h₁])
  rw [hlen, Nat.zero_add] at r₂
  obtain ⟨t₃, r₃, h₃⟩ := r₂.poll (pollAt_sent_all sl) hbtf (by rw [h₂])
  obtain ⟨t₄, r₄, h₄⟩ := r₃.step (performs_wr_stop r₃.inFlight rfl)
  obtain rfl : sl.inst = i := r.inst
  refine ⟨t₄, ?_, ?_⟩
  · have hn : n + (7 + 2 * sl.wb.length) = n + 5 + 2 * sl.wb.length + 1 + 1 := by omega
    rw [hn]
    simpa [writeTrace, Slot.sent] using r₄
  · simp [h₄, h₃, h₂, h₁, hlen, Slot.sent, InstState.answered]; omega

end Reaches

/-! ### How a run ends -/

/-- From `s` the command in flight on instance `i` has ended at `t` with result `r` and buffer `rb`: it has made the
events `es`, and has touched nothing but the slot, the trace, that instance and the result (R18, R86). -/
structure Ends (i : Inst) (es : List Event) (r : Res) (rb : List Byte) (s t : State) : Prop where
  slot      : t.slot = none
  trace     : t.trace = s.trace ++ es
  res       : t.res = r
  replies   : t.replies = s.replies ++ [.completed r rb]
  draws     : t.draws = s.draws
  elsewhere : SameElsewhere i s t

/-- At DONE the command ends with OK (R86). -/
theorem Reaches.complete {i : Inst} {n : Nat} {es : List Event} {s t : State} {sl : Slot}
    (r : Reaches i n es s t sl) (hu : sl.upc = .done) :
    ∃ u, Core.run core (n + 1) s = .next u ∧ Ends i es .ok sl.rb s u ∧ u.inst i = t.inst i := by
  obtain ⟨hs, -, hl⟩ := r.inFlight
  have hstep : Core.run core 1 t = .next (t.complete sl) := run_succ ((step_inFlight hs).trans (exec_done hs hl hu))
  exact ⟨t.complete sl, (run_add r.run).trans hstep, ⟨rfl, r.trace, rfl, by simp [r.replies], r.draws,
    r.elsewhere.trans (by simp [SameElsewhere])⟩, by simp⟩

/-- A poll that reads an error ends the command with it (R129). -/
theorem Reaches.abort {i : Inst} {n : Nat} {es : List Event} {s t : State} {sl : Slot}
    (r : Reaches i n es s t sl) {f : Flag} {L : Label} {v : Half} {rest : List Half} {e : Res}
    (hp : pollAt sl = some (f, L)) (hv : errorOf (s.layout i) v = some e) (ha : (t.inst i).answers = v :: rest) :
    ∃ u, Core.run core (n + 1) s = .next u ∧ Ends i (es ++ [.rsr1 i v .poll]) e sl.rb s u ∧
      u.inst i = (t.inst i).answered := by
  have hread := t.answer_of_script i v rest ha
  obtain rfl := r.inst
  have hstep : Core.run core 1 t = .next ((t.readSr1 sl.inst .poll).abort sl e) := run_succ
    ((step_inFlight r.inFlight.1).trans ((exec_poll r.inFlight hp).trans
      (congrArg _ (poll_of_error (by rwa [r.layout, hread])))))
  have helse : SameElsewhere sl.inst t ((t.readSr1 sl.inst .poll).abort sl e) := by
    simpa [SameElsewhere] using (PortOp.sr1 (sl := sl) .poll).sameElsewhere (s := t)
  exact ⟨_, (run_add r.run).trans hstep, ⟨rfl, by simp [r.trace, hread], rfl, by simp [r.replies],
    by simp [r.draws], r.elsewhere.trans helse⟩, by simp⟩

/-! ### Runs of WRITE (R105 to R108) -/

/-- After its acceptance WRITE is in flight at W_START. -/
theorem reaches_write {s : State} {i : Inst} {a : BitVec 7} {wb : List Byte} (hl : wb.length ≤ 65535) :
    Reaches i 0 [] (s.load (writeSlot i a wb)) (s.load (writeSlot i a wb)) (writeSlot i a wb) :=
  .refl ⟨rfl, registersOk_writeSlot (wf_write.2 hl), rfl⟩

/-- Loading the slot touches nothing else, so what a run has done since is what it has done since the presentation. -/
theorem Ends.of_load {i : Inst} {es : List Event} {r : Res} {rb : List Byte} {s t : State} {sl : Slot}
    (h : Ends i es r rb (s.load sl) t) : Ends i es r rb s t := by
  obtain ⟨slot, trace, res, replies, draws, elsewhere⟩ := h
  exact ⟨slot, trace, res, replies, draws, by simpa [SameElsewhere] using elsewhere⟩

/-- Settles O28: the write phase, then DONE. -/
theorem writeRunMatchesTrace : Obligations.WriteRunMatchesTrace := by
  intro s i a wb w rest hidle hl hb hw ha
  have ⟨_, _, htxe, _⟩ := hw
  obtain ⟨t, rt, ht⟩ := (reaches_write hl).writePhase rfl (by simpa [writeSlot] using hw) (by simpa using ha)
  obtain ⟨u, hrun, hend, hu⟩ := rt.complete rfl
  have hn : 8 + 2 * wb.length = 0 + (7 + 2 * wb.length) + 1 := by omega
  have hx : u.inst i = { s.inst i with
      bracketOpen := false, answers := rest, reads := (s.inst i).reads + (4 + wb.length) } := by
    simpa [writeSlot] using hu.trans ht
  obtain ⟨slot, trace, res, replies, draws, elsewhere⟩ := hend.of_load
  refine ⟨_, u, exec_write_of_bound hidle hl hb, hn ▸ hrun, trace, ?ctrl, writeTrace_length htxe, slot, res, replies,
    by rw [hx], by rw [hx], by rw [hx], ?bound, by rw [hx], draws, elsewhere⟩
  case ctrl => simp [controlTrace_writeTrace htxe]; omega
  case bound => rw [hx]; exact hb

/-- Settles O29: the run of O28 with no byte to send. -/
theorem emptyWriteControlTrace : Obligations.EmptyWriteControlTrace := by
  intro s i a vsb vaddr vsr2 vbtf rest hidle hb hsb haddr hbtf ha
  obtain ⟨s₁, t, he, hrun, htrace, -, hlen, hslot, hres, -⟩ :=
    writeRunMatchesTrace s i a [] ⟨vsb, vaddr, vsr2, [], vbtf⟩ rest hidle (Nat.zero_le _) hb
      ⟨hsb, haddr, rfl, by simp, hbtf⟩ ha
  exact ⟨s₁, t, _, he, hrun, htrace, addrByte_write a ▸ controlTrace_writeTrace rfl, hlen, hslot, hres⟩

/-- Settles O30: the opening, the bytes sent, and the poll that fails. -/
theorem writeErrorLeavesBytesSent : Obligations.WriteErrorLeavesBytesSent := by
  intro s i a wb vsb vaddr vsr2 verr vs rest r hidle hl hb hvs hsb haddr htxe herr ha
  obtain ⟨t₁, r₁, h₁⟩ := (reaches_write hl).opening rfl (by simpa using hsb) (by simpa using haddr) (by simpa using ha)
  obtain ⟨t₂, r₂, h₂⟩ := r₁.sendBytes (rest := verr :: rest) ((Nat.zero_add _).trans_le hvs) (by simpa using htxe)
    (by rw [h₁])
  obtain ⟨f, L, hp⟩ := exists_pollAt_sent (sl := writeSlot i a wb) ((Nat.zero_add _).trans_le hvs)
  obtain ⟨u, hrun, hend, hu⟩ := r₂.abort hp (by simpa using herr) (by rw [h₂])
  have hn : 6 + 2 * vs.length = 0 + 5 + 2 * vs.length + 1 := by omega
  have hx : u.inst i = { s.inst i with
      bracketOpen := true, answers := rest, reads := (s.inst i).reads + 3 + vs.length + 1 } := by
    simp [hu, h₂, h₁, InstState.answered]
  obtain ⟨slot, trace, res, replies, -, elsewhere⟩ := hend.of_load
  refine ⟨_, u, exec_write_of_bound hidle hl hb, hn ▸ hrun, ?trace, res, slot, replies, by rw [hx], by rw [hx], ?bound,
    by rw [hx], elsewhere⟩
  case trace => simpa [sentTrace_take, writeSlot] using trace
  case bound => rw [hx]; exact hb

/-- Settles O31: the failing poll follows W_START, and after it the sequencer is as idle, and the instance as bound, as
before. -/
theorem firstPollErrorWritesNoData : Obligations.FirstPollErrorWritesNoData := by
  intro s i a wb verr rest r hidle hl hb herr ha
  have r₀ := reaches_write (s := s) (a := a) (i := i) hl
  obtain ⟨t₁, r₁, h₁⟩ := r₀.step (performs_wr_start r₀.inFlight rfl)
  obtain ⟨t, hrun, hend, ht⟩ := r₁.abort rfl (by simpa using herr) (by rw [h₁]; exact ha)
  have hbound : Bound t i := by simpa [Bound, ht, h₁, writeSlot] using hb
  exact ⟨_, t, _, writeSlot i a wb, exec_write_of_bound hidle hl hb, hrun, hend.trace, hend.res, hend.slot,
    exec_write_of_bound hend.slot hl hbound, rfl, rfl, rfl⟩

end Sys2Proof.Machine
end

section
/-! SUPPORT. The proofs of the statements about WRITE_READ: its acceptance, the micro-steps of its read phase, and the
runs they make up, one for each way to receive, and the one that an error in the drain ends (R109 to R124). -/

namespace Sys2Proof.Machine
open Host

/-! ### Acceptance of WRITE_READ (R109) -/

theorem exec_writeRead_of_bound {s : State} {i : Inst} {a : BitVec 7} {wb : List Byte} {m : Nat} (h : Idle s)
    (hl : wb.length ≤ 65535) (hm : m ≤ 65535) (hb : Bound s i) :
    exec (.writeRead i a wb m) s = .next (acceptWriteRead i a wb m s) := by
  have hr : transferRefusal (.writeRead i a wb m) s = none := transferRefusal_none.2 ⟨wf_writeRead.2 ⟨hl, hm⟩, hb⟩
  simp [exec, execWriteRead, show s.slot = none from h, hr]

/-- Settles O32: the accepted command and the lent buffer are in the slot, and nothing else is touched but the count of
bytes drawn. -/
theorem writeReadLoadsTheSlot : Obligations.WriteReadLoadsTheSlot := by
  intro s i a wb m hidle hl hm hb
  exact ⟨_, writeReadSlot i a wb m (lentBuffer m s.lent s.draws), exec_writeRead_of_bound hidle hl hm hb, rfl, rfl, rfl,
    rfl, toNat_ofNat_of_le_maxLen hl, rfl, toNat_ofNat_of_le_maxLen hm, rfl, rfl, lentBuffer_length ..,
    fun _ hk hlent => lentBuffer_getElem? hk hlent, rfl, rfl, rfl, rfl, rfl, rfl, rfl, rfl, rfl, rfl⟩

@[simp] theorem acceptWriteRead_layout (i : Inst) (a : BitVec 7) (wb : List Byte) (m : Nat) (s : State) (j : Inst) :
    (acceptWriteRead i a wb m s).layout j = s.layout j := by simp [acceptWriteRead]

@[simp] theorem acceptWriteRead_inst (i : Inst) (a : BitVec 7) (wb : List Byte) (m : Nat) (s : State) (j : Inst) :
    (acceptWriteRead i a wb m s).inst j = s.inst j := by simp [acceptWriteRead]

/-- A lent buffer of the length asked for is what the host lent (R17). -/
theorem lentBuffer_of_length_eq {l : List Byte} {d m : Nat} (h : l.length = m) : lentBuffer m l d = l := by
  subst h
  induction l generalizing d with
  | nil => rfl
  | cons b l ih => exact congrArg (b :: ·) ih

/-! ### The micro-steps of the read phase (R111 to R115) -/

theorem exec_rd_of_inFlight {s : State} {sl : Slot} {l : RdLabel} (h : InFlight s sl) (hu : sl.upc = .rd l) :
    exec sl.cmd s = rdStep l sl s := by
  obtain ⟨⟨i, a, wb, m, hc, -, -⟩, -⟩ := inFlight_rd h hu
  exact exec_rd h.1 hc hu

/-- In the read phase `RB` has `RLEN` bytes (R17). -/
theorem rb_length_of_inFlight {s : State} {sl : Slot} {l : RdLabel} (h : InFlight s sl) (hu : sl.upc = .rd l) :
    sl.rb.length = sl.rlen.toNat := by
  obtain ⟨⟨i, a, wb, m, -, hm, hb⟩, -⟩ := inFlight_rd h hu
  exact hb.trans hm.symm

/-- The address byte of a read is the address shifted left, with bit 0 set (R93). -/
theorem addrByte_read (a : BitVec 7) : addrByte a true = BitVec.ofNat 8 (2 * a.toNat + 1) :=
  BitVec.eq_of_toNat_eq (by simp [addrByte_toNat]; omega)

/-- The value of a DR read is the low byte of the answer (R36). -/
theorem State.drValue_eq_lowByte (s : State) (i : Inst) : s.drValue i = lowByte (s.answer i) :=
  BitVec.eq_of_toNat_eq (by simp [State.drValue, lowByte])

/-- A CR1 write in the read phase. -/
theorem performs_rd_cr1 {s : State} {sl : Slot} {l : RdLabel} {f : Cr1Field} {b : Bool} {L : Label} {x : InstState}
    (h : InFlight s sl) (hu : sl.upc = .rd l) (hstep : rdStep l sl s = .next ((s.writeCr1 sl.inst f b).goto sl L))
    (hfill : l ≠ .t3Fill) (hval : b = true ∨ f = .ack) (hx : (s.inst sl.inst).noteCr1 f b = x) :
    Performs s sl { sl with upc := L } [.wcr1 sl.inst f b] x :=
  (PortOp.cr1 f b hval (by simp [hu]) (by simp [hu])).performs (by simpa [hu] using hfill)
    ((exec_rd_of_inFlight h hu).trans hstep) (by simp) (by simpa using hx)

theorem performs_rd_ack1 {s : State} {sl : Slot} (h : InFlight s sl) (hu : sl.upc = .rd .ack1) :
    Performs s sl { sl with upc := .rd .start } [.wcr1 sl.inst .ack true]
      { s.inst sl.inst with sh := { (s.inst sl.inst).sh with ack := some true } } :=
  performs_rd_cr1 h hu rfl (by decide) (.inl rfl) rfl

theorem performs_rd_start {s : State} {sl : Slot} (h : InFlight s sl) (hu : sl.upc = .rd .start) :
    Performs s sl { sl with upc := .rd .sb } [.wcr1 sl.inst .start true]
      { s.inst sl.inst with bracketOpen := true } :=
  performs_rd_cr1 h hu rfl (by decide) (.inl rfl) (by simp [InstState.noteCr1])

theorem performs_rd_addr {s : State} {sl : Slot} (h : InFlight s sl) (hu : sl.upc = .rd .addr) :
    Performs s sl { sl with upc := .rd .addrp } [.wdr sl.inst (addrByte sl.addr7 true)] (s.inst sl.inst) :=
  (PortOp.dr _).performs (by simp [hu]) (exec_rd_of_inFlight h hu) (by simp) (by simp)

theorem performs_rd_nack0 {s : State} {sl : Slot} (h : InFlight s sl) (hu : sl.upc = .rd .nack0) :
    Performs s sl { sl with upc := if sl.rlen.toNat = 2 then .rd .pos else .rd .sr1 } [.wcr1 sl.inst .ack false]
      { s.inst sl.inst with sh := { (s.inst sl.inst).sh with ack := some false } } :=
  performs_rd_cr1 h hu rfl (by decide) (.inr rfl) rfl

theorem performs_rd_pos {s : State} {sl : Slot} (h : InFlight s sl) (hu : sl.upc = .rd .pos) :
    Performs s sl { sl with upc := .rd .sr1 } [.wcr1 sl.inst .pos true]
      { s.inst sl.inst with sh := { (s.inst sl.inst).sh with pos := some true } } :=
  performs_rd_cr1 h hu rfl (by decide) (.inl rfl) rfl

theorem performs_rd_sr1 {s : State} {sl : Slot} (h : InFlight s sl) (hu : sl.upc = .rd .sr1) :
    Performs s sl { sl with upc := .rd .sr2 } [.rsr1 sl.inst (s.answer sl.inst) .dummy] (s.inst sl.inst).answered :=
  (PortOp.sr1 .dummy).performs (by simp [hu]) (exec_rd_of_inFlight h hu) (by simp) (by simp)

theorem performs_rd_sr2 {s : State} {sl : Slot} (h : InFlight s sl) (hu : sl.upc = .rd .sr2) :
    Performs s sl { sl with k := 0, upc := receptionLabel sl.rlen.toNat } [.rsr2 sl.inst (s.answer sl.inst)]
      (s.inst sl.inst).answered :=
  PortOp.sr2.performs (by simp [hu]) (exec_rd_of_inFlight h hu) (by simp) (by simp)

/-- Settles O33, label by label. -/
theorem readPhaseMicroSteps : Obligations.ReadPhaseMicroSteps := fun _ sl h =>
  ⟨performs_rd_ack1 h, performs_rd_start h, fun hu => addrByte_read sl.addr7 ▸ performs_rd_addr h hu,
    performs_rd_nack0 h, performs_rd_pos h, performs_rd_sr1 h, performs_rd_sr2 h⟩

/-! ### The micro-steps of the reception (R117 to R120) -/

/-- The next micro-step reads DR once, stores the byte in `RB[n]`, which exists, and goes on to `L` with the loop index
at `k` (R117 to R120). -/
def Receives (s : State) (sl : Slot) (n : Nat) (k : BitVec 16) (L : Label) : Prop :=
  n < sl.rb.length ∧
    Performs s sl { sl with rb := sl.rb.set n (lowByte (s.answer sl.inst)), k := k, upc := L }
      [.rdr sl.inst (lowByte (s.answer sl.inst))] (s.inst sl.inst).answered

theorem receives_of_receive {s : State} {sl : Slot} {l : RdLabel} {n : Nat} {k : BitVec 16} {L : Label}
    (h : InFlight s sl) (hu : sl.upc = .rd l) (hstep : rdStep l sl s = receive sl n k L s) (hfill : l ≠ .t3Fill)
    (hn : n < sl.rlen.toNat) : Receives s sl n k L := by
  have hb : n < sl.rb.length := (rb_length_of_inFlight h hu).symm ▸ hn
  have hreceive : receive sl n k L s =
      .next ((s.readDr sl.inst).goto { sl with rb := sl.rb.set n (lowByte (s.answer sl.inst)), k := k } L) := by
    simp [receive, storeRb, hb, State.drValue_eq_lowByte]
  exact ⟨hb, PortOp.rd.performs (by simpa [hu] using hfill)
    ((exec_rd_of_inFlight h hu).trans (hstep.trans hreceive)) (by simp [State.drValue_eq_lowByte]) (by simp)⟩

/-- The STOP of a tail closes the bracket (R118 to R120). -/
theorem performs_rd_stop {s : State} {sl : Slot} {l : RdLabel} {L : Label} (h : InFlight s sl) (hu : sl.upc = .rd l)
    (hstep : rdStep l sl s = .next ((s.writeCr1 sl.inst .stop true).goto sl L)) (hfill : l ≠ .t3Fill) :
    Performs s sl { sl with upc := L } [.wcr1 sl.inst .stop true] { s.inst sl.inst with bracketOpen := false } :=
  performs_rd_cr1 h hu hstep hfill (.inl rfl) (by simp [InstState.noteCr1])

theorem performs_rd_t3Nack {s : State} {sl : Slot} (h : InFlight s sl) (hu : sl.upc = .rd .t3Nack) :
    Performs s sl { sl with upc := .rd .t3Rxne2 } [.wcr1 sl.inst .ack false]
      { s.inst sl.inst with sh := { (s.inst sl.inst).sh with ack := some false } } :=
  performs_rd_cr1 h hu rfl (by decide) (.inr rfl) rfl

/-- The drain goes round while a byte before the last three is left (R117). -/
theorem receives_dRd {s : State} {sl : Slot} (h : InFlight s sl) (hu : sl.upc = .rd .dRd) :
    Receives s sl sl.k.toNat (sl.k + 1)
      (if sl.k.toNat + 1 < sl.rlen.toNat - 3 then .rd .dRxne else .rd .t3Rxne1) := by
  have hk : sl.k.toNat < sl.rlen.toNat - 3 := (inFlight_rd h hu).2
  have hnext : (sl.k + 1).toNat = sl.k.toNat + 1 := succ_toNat_of_lt (n := sl.rlen) (by omega)
  exact hnext ▸ receives_of_receive h hu rfl (by decide) (by omega)

theorem receives_t1Rd {s : State} {sl : Slot} (h : InFlight s sl) (hu : sl.upc = .rd .t1Rd) :
    Receives s sl 0 sl.k .done := by
  have hm : sl.rlen.toNat = 1 := (inFlight_rd h hu).2
  exact receives_of_receive h hu rfl (by decide) (by omega)

theorem receives_t2Rd0 {s : State} {sl : Slot} (h : InFlight s sl) (hu : sl.upc = .rd .t2Rd0) :
    Receives s sl 0 sl.k (.rd .t2Rd1) := by
  have hm : sl.rlen.toNat = 2 := (inFlight_rd h hu).2
  exact receives_of_receive h hu rfl (by decide) (by omega)

theorem receives_t2Rd1 {s : State} {sl : Slot} (h : InFlight s sl) (hu : sl.upc = .rd .t2Rd1) :
    Receives s sl 1 sl.k .done := by
  have hm : sl.rlen.toNat = 2 := (inFlight_rd h hu).2
  exact receives_of_receive h hu rfl (by decide) (by omega)

theorem receives_t3Rd0 {s : State} {sl : Slot} (h : InFlight s sl) (hu : sl.upc = .rd .t3Rd0) :
    Receives s sl (sl.rlen.toNat - 3) sl.k (.rd .t3Rd1) := by
  have hm : 3 ≤ sl.rlen.toNat := (inFlight_rd h hu).2
  exact receives_of_receive h hu rfl (by decide) (by omega)

theorem receives_t3Rd1 {s : State} {sl : Slot} (h : InFlight s sl) (hu : sl.upc = .rd .t3Rd1) :
    Receives s sl (sl.rlen.toNat - 2) sl.k (.rd .t3Fill) := by
  have hm : 3 ≤ sl.rlen.toNat := (inFlight_rd h hu).2
  have hn : sl.rlen.toNat - 3 + 1 = sl.rlen.toNat - 2 := by omega
  exact hn ▸ receives_of_receive h hu rfl (by decide) (by omega)

/-- Settles O34, label by label. -/
theorem receptionMicroSteps : Obligations.ReceptionMicroSteps := fun _ _ h =>
  ⟨receives_dRd h, fun hu => performs_rd_stop h hu rfl (by decide), receives_t1Rd h,
    fun hu => performs_rd_stop h hu rfl (by decide), receives_t2Rd0 h, receives_t2Rd1 h, performs_rd_t3Nack h,
    fun hu => performs_rd_stop h hu rfl (by decide), receives_t3Rd0 h, receives_t3Rd1 h⟩

/-- T3_FILL draws a byte for the last element (R120). -/
theorem exec_t3Fill {s : State} {sl : Slot} (h : InFlight s sl) (hu : sl.upc = .rd .t3Fill) :
    exec sl.cmd s =
      .next ((s.drew 1).goto { sl with rb := sl.rb.set (sl.rlen.toNat - 1) s.drawn } .done) := by
  have hm : 3 ≤ sl.rlen.toNat := (inFlight_rd h hu).2
  have hb := rb_length_of_inFlight h hu
  have hn : sl.rlen.toNat - 3 + 2 = sl.rlen.toNat - 1 := by omega
  have hlt : sl.rlen.toNat - 1 < sl.rb.length := by omega
  rw [exec_rd_of_inFlight h hu]
  simp [rdStep, fillLast, storeRb, hn, hlt]

/-- Settles O35: drawing a byte touches no port, no instance and nothing of the host's. -/
theorem fillDrawsTheLastElement : Obligations.FillDrawsTheLastElement := by
  intro s sl h hu
  exact ⟨_, s.drawn, exec_t3Fill h hu, by simp [SameElsewhere]⟩

/-! ### The read phase as a run (R111 to R115) -/

/-- The shadow after the staging micro-steps of a read of `m` bytes (R114). -/
def Shadow.staged (sh : Shadow) (m : Nat) : Shadow :=
  if m = 1 then { sh with ack := some false }
  else if m = 2 then { sh with ack := some false, pos := some true }
  else sh

namespace Reaches

variable {i : Inst} {n : Nat} {es : List Event} {s t : State} {sl : Slot} {rest : List Half}

/-- R_ACK1 to R_ADDRP (R111 to R113). -/
theorem readAddressed (r : Reaches i n es s t sl) (hu : sl.upc = .rd .ack1) {vsb vaddr : Half}
    (hsb : Satisfies (s.layout i) .sb vsb) (haddr : Satisfies (s.layout i) .addr vaddr)
    (ha : (t.inst i).answers = vsb :: vaddr :: rest) :
    ∃ u, Reaches i (n + 5)
        (es ++ [.wcr1 i .ack true, .wcr1 i .start true, .rsr1 i vsb .poll, .wdr i (addrByte sl.addr7 true),
          .rsr1 i vaddr .poll]) s u
        { sl with upc := if sl.rlen = 1 ∨ sl.rlen = 2 then .rd .nack0 else .rd .sr1 } ∧
      u.inst i = { t.inst i with
        sh := { (t.inst i).sh with ack := some true }, bracketOpen := true, answers := rest,
        reads := (t.inst i).reads + 2 } := by
  obtain rfl := r.inst
  obtain ⟨t₁, r₁, h₁⟩ := r.step (performs_rd_ack1 r.inFlight hu)
  obtain ⟨t₂, r₂, h₂⟩ := r₁.step (performs_rd_start r₁.inFlight rfl)
  obtain ⟨t₃, r₃, h₃⟩ := r₂.poll rfl hsb (by rw [h₂, h₁]; exact ha)
  obtain ⟨t₄, r₄, h₄⟩ := r₃.step (performs_rd_addr r₃.inFlight rfl)
  obtain ⟨t₅, r₅, h₅⟩ := r₄.poll (rest := rest) rfl haddr (by simp [h₄, h₃, h₂, h₁, ha])
  exact ⟨t₅, by simpa using r₅, by simp [h₅, h₄, h₃, h₂, h₁, ha, InstState.answered]⟩

/-- The staging micro-steps: none, R_NACK0, or R_NACK0 and R_POS (R114). -/
theorem staging
    (r : Reaches i n es s t { sl with upc := if sl.rlen = 1 ∨ sl.rlen = 2 then .rd .nack0 else .rd .sr1 }) :
    ∃ u, Reaches i (n + (stagingTrace i sl.rlen.toNat).length) (es ++ stagingTrace i sl.rlen.toNat) s u
        { sl with upc := .rd .sr1 } ∧
      u.inst i = { t.inst i with sh := (t.inst i).sh.staged sl.rlen.toNat } := by
  obtain rfl : sl.inst = i := r.inst
  by_cases h1 : sl.rlen = 1
  · obtain ⟨t₁, r₁, e₁⟩ := r.step (performs_rd_nack0 r.inFlight (by simp [h1]))
    exact ⟨t₁, by simpa [h1, stagingTrace] using r₁, by simp [e₁, h1, Shadow.staged]⟩
  by_cases h2 : sl.rlen = 2
  · obtain ⟨t₁, r₁, e₁⟩ := r.step (performs_rd_nack0 r.inFlight (by simp [h2]))
    obtain ⟨t₂, r₂, e₂⟩ := r₁.step (performs_rd_pos r₁.inFlight (by simp [h2]))
    exact ⟨t₂, by simpa [h2, stagingTrace] using r₂, by simp [e₂, e₁, h2, Shadow.staged]⟩
  · have h1' : sl.rlen.toNat ≠ 1 := by simpa [← BitVec.toNat_inj] using h1
    have h2' : sl.rlen.toNat ≠ 2 := by simpa [← BitVec.toNat_inj] using h2
    rw [if_neg (not_or.2 ⟨h1, h2⟩)] at r
    exact ⟨t, by simpa [h1', h2', stagingTrace] using r, by simp [h1', h2', Shadow.staged]⟩

/-- R_SR1 and R_SR2 clear ADDR (R115). -/
theorem dummyReads (r : Reaches i n es s t sl) (hu : sl.upc = .rd .sr1) {vsr1 vsr2 : Half}
    (ha : (t.inst i).answers = vsr1 :: vsr2 :: rest) :
    ∃ u, Reaches i (n + 2) (es ++ [.rsr1 i vsr1 .dummy, .rsr2 i vsr2]) s u
        { sl with k := 0, upc := receptionLabel sl.rlen.toNat } ∧
      u.inst i = { t.inst i with answers := rest, reads := (t.inst i).reads + 2 } := by
  obtain rfl := r.inst
  obtain ⟨t₁, r₁, h₁⟩ := r.step (performs_rd_sr1 r.inFlight hu)
  obtain ⟨t₂, r₂, h₂⟩ := r₁.step (performs_rd_sr2 r₁.inFlight rfl)
  have hsr1 : t.answer sl.inst = vsr1 := t.answer_of_script _ _ _ ha
  have hsr2 : t₁.answer sl.inst = vsr2 := t₁.answer_of_script _ _ rest (by simp [h₁, ha])
  exact ⟨t₂, by simpa [hsr1, hsr2] using r₂, by simp [h₂, h₁, ha, InstState.answered]⟩

/-- R_ACK1 to R_SR2 (R111 to R115). -/
theorem readOpening (r : Reaches i n es s t sl) (hu : sl.upc = .rd .ack1) {ra : ReadAnswers}
    (hr : ra.Good (s.layout i)) (ha : (t.inst i).answers = ra.list ++ rest) :
    ∃ u, Reaches i (n + (7 + (stagingTrace i sl.rlen.toNat).length))
        (es ++ readOpeningTrace i sl.addr7 sl.rlen.toNat ra) s u
        { sl with k := 0, upc := receptionLabel sl.rlen.toNat } ∧
      u.inst i = { t.inst i with
        sh := Shadow.staged { (t.inst i).sh with ack := some true } sl.rlen.toNat, bracketOpen := true,
        answers := rest, reads := (t.inst i).reads + 4 } := by
  obtain ⟨hsb, haddr⟩ := hr
  obtain ⟨t₁, r₁, h₁⟩ := r.readAddressed hu hsb haddr ha
  obtain ⟨t₂, r₂, h₂⟩ := r₁.staging
  obtain ⟨t₃, r₃, h₃⟩ := r₂.dummyReads rfl (rest := rest) (by rw [h₂, h₁]; rfl)
  refine ⟨t₃, ?_, by simp [h₃, h₂, h₁]⟩
  have hn : n + (7 + (stagingTrace i sl.rlen.toNat).length) =
      n + 5 + (stagingTrace i sl.rlen.toNat).length + 2 := by omega
  rw [hn]
  simpa [readOpeningTrace, addrByte] using r₃

/-- One DR read more, answered by the oracle's next answer. -/
theorem receive (r : Reaches i n es s t sl) {m : Nat} {k : BitVec 16} {L : Label} {v : Half}
    (h : Receives t sl m k L) (ha : (t.inst i).answers = v :: rest) :
    ∃ u, Reaches i (n + 1) (es ++ [.rdr i (lowByte v)]) s u
        { sl with rb := sl.rb.set m (lowByte v), k := k, upc := L } ∧
      u.inst i = (t.inst i).answered := by
  have hread := t.answer_of_script i v rest ha
  obtain rfl := r.inst
  obtain ⟨-, hperf⟩ := h
  exact hread ▸ r.step hperf

/-- The tail of a one-byte read (R118). -/
theorem oneByteTail (r : Reaches i n es s t sl) (hu : sl.upc = .rd .t1Rxne) {vrx d0 : Half}
    (hrx : Satisfies (s.layout i) .rxne vrx) (ha : (t.inst i).answers = vrx :: d0 :: rest) :
    ∃ u, Reaches i (n + 3) (es ++ [.rsr1 i vrx .poll, .wcr1 i .stop true, .rdr i (lowByte d0)]) s u
        { sl with rb := sl.rb.set 0 (lowByte d0), upc := .done } ∧
      u.inst i = { t.inst i with bracketOpen := false, answers := rest, reads := (t.inst i).reads + 2 } := by
  obtain rfl := r.inst
  obtain ⟨t₁, r₁, h₁⟩ := r.poll (L := .rd .t1Stop) (by simp [pollAt, hu]) hrx ha
  obtain ⟨t₂, r₂, h₂⟩ := r₁.step (performs_rd_stop r₁.inFlight rfl rfl (by decide))
  obtain ⟨t₃, r₃, h₃⟩ := r₂.receive (v := d0) (rest := rest) (receives_t1Rd r₂.inFlight rfl) (by simp [h₂, h₁, ha])
  exact ⟨t₃, by simpa using r₃, by simp [h₃, h₂, h₁, ha, InstState.answered]⟩

/-- The tail of a two-byte read (R119). -/
theorem twoByteTail (r : Reaches i n es s t sl) (hu : sl.upc = .rd .t2Rxne) {vrx vbtf d0 d1 : Half}
    (hrx : Satisfies (s.layout i) .rxne vrx) (hbtf : Satisfies (s.layout i) .btf vbtf)
    (ha : (t.inst i).answers = vrx :: vbtf :: d0 :: d1 :: rest) :
    ∃ u, Reaches i (n + 5)
        (es ++ [.rsr1 i vrx .poll, .rsr1 i vbtf .poll, .wcr1 i .stop true, .rdr i (lowByte d0),
          .rdr i (lowByte d1)]) s u
        { sl with rb := (sl.rb.set 0 (lowByte d0)).set 1 (lowByte d1), upc := .done } ∧
      u.inst i = { t.inst i with bracketOpen := false, answers := rest, reads := (t.inst i).reads + 4 } := by
  obtain rfl := r.inst
  obtain ⟨t₁, r₁, h₁⟩ := r.poll (L := .rd .t2Btf) (by simp [pollAt, hu]) hrx ha
  obtain ⟨t₂, r₂, h₂⟩ := r₁.poll (rest := d0 :: d1 :: rest) rfl hbtf (by simp [h₁, ha])
  obtain ⟨t₃, r₃, h₃⟩ := r₂.step (performs_rd_stop r₂.inFlight rfl rfl (by decide))
  obtain ⟨t₄, r₄, h₄⟩ := r₃.receive (v := d0) (rest := d1 :: rest) (receives_t2Rd0 r₃.inFlight rfl)
    (by simp [h₃, h₂, h₁, ha])
  obtain ⟨t₅, r₅, h₅⟩ := r₄.receive (v := d1) (rest := rest) (receives_t2Rd1 r₄.inFlight rfl)
    (by simp [h₄, h₃, h₂, h₁, ha])
  exact ⟨t₅, by simpa using r₅, by simp [h₅, h₄, h₃, h₂, h₁, ha, InstState.answered]⟩

/-- The three-byte tail up to T3_FILL (R120). -/
theorem threeByteTail (r : Reaches i n es s t sl) (hu : sl.upc = .rd .t3Rxne1) {tl : TailAnswers}
    (hgood : tl.Good (s.layout i)) (ha : (t.inst i).answers = tl.list ++ rest) :
    ∃ u, Reaches i (n + 8) (es ++ tailTrace i tl) s u
        { sl with
          rb := (sl.rb.set (sl.rlen.toNat - 3) (lowByte tl.d0)).set (sl.rlen.toNat - 2) (lowByte tl.d1),
          upc := .rd .t3Fill } ∧
      u.inst i = { t.inst i with
        sh := { (t.inst i).sh with ack := some false }, bracketOpen := false, answers := rest,
        reads := (t.inst i).reads + 6 } := by
  obtain ⟨hrx1, hbtf1, hrx2, hbtf2⟩ := hgood
  obtain rfl := r.inst
  have ha' : (t.inst sl.inst).answers = tl.rxne1 :: tl.btf1 :: tl.rxne2 :: tl.btf2 :: tl.d0 :: tl.d1 :: rest := ha
  obtain ⟨t₁, r₁, h₁⟩ := r.poll (L := .rd .t3Btf1) (by simp [pollAt, hu]) hrx1 ha
  obtain ⟨t₂, r₂, h₂⟩ := r₁.poll (rest := tl.rxne2 :: tl.btf2 :: tl.d0 :: tl.d1 :: rest) rfl hbtf1
    (by simp [h₁, ha'])
  obtain ⟨t₃, r₃, h₃⟩ := r₂.step (performs_rd_t3Nack r₂.inFlight rfl)
  obtain ⟨t₄, r₄, h₄⟩ := r₃.poll (rest := tl.btf2 :: tl.d0 :: tl.d1 :: rest) rfl hrx2 (by simp [h₃, h₂, h₁, ha'])
  obtain ⟨t₅, r₅, h₅⟩ := r₄.poll (rest := tl.d0 :: tl.d1 :: rest) rfl hbtf2 (by simp [h₄, h₃, h₂, h₁, ha'])
  obtain ⟨t₆, r₆, h₆⟩ := r₅.step (performs_rd_stop r₅.inFlight rfl rfl (by decide))
  obtain ⟨t₇, r₇, h₇⟩ := r₆.receive (v := tl.d0) (rest := tl.d1 :: rest) (receives_t3Rd0 r₆.inFlight rfl)
    (by simp [h₆, h₅, h₄, h₃, h₂, h₁, ha'])
  obtain ⟨t₈, r₈, h₈⟩ := r₇.receive (v := tl.d1) (rest := rest) (receives_t3Rd1 r₇.inFlight rfl)
    (by simp [h₇, h₆, h₅, h₄, h₃, h₂, h₁, ha'])
  exact ⟨t₈, by simpa [tailTrace] using r₈, by simp [h₈, h₇, h₆, h₅, h₄, h₃, h₂, h₁, ha', InstState.answered]⟩

end Reaches

/-! ### The drain as a run (R117) -/

/-- The element that follows `k` elements already received is the next one to be overwritten. -/
theorem set_zero_drop {α : Type} {l : List α} {k : Nat} (b : α) (h : k < l.length) :
    (l.drop k).set 0 b = b :: l.drop (k + 1) := by
  rw [List.drop_eq_getElem_cons h, List.set_cons_zero]

/-- `sl` when the drain has received `bs`: at the RxNE poll for the next byte, or at the tail for the last three
(R117). -/
def Slot.drained (sl : Slot) (bs : List Byte) : Slot :=
  { sl with
    k := BitVec.ofNat 16 bs.length,
    rb := bs ++ sl.rb.drop bs.length,
    upc := if bs.length < sl.rlen.toNat - 3 then .rd .dRxne else .rd .t3Rxne1 }

theorem pollAt_drained {sl : Slot} {bs : List Byte} (h : bs.length < sl.rlen.toNat - 3) :
    pollAt (sl.drained bs) = some (.rxne, .rd .dRd) := by
  simp [pollAt, Slot.drained, h]

/-- A read of three bytes or more begins with its drain (R116). -/
theorem drained_nil {sl : Slot} (hk : sl.k = 0) (h : 3 ≤ sl.rlen.toNat) :
    sl.drained [] = { sl with upc := receptionLabel sl.rlen.toNat } := by
  have hl : receptionLabel sl.rlen.toNat = if 0 < sl.rlen.toNat - 3 then .rd .dRxne else .rd .t3Rxne1 := by
    obtain h3 | h3 := h.eq_or_lt
    · simp [receptionLabel, ← h3]
    · simp [receptionLabel, h3]
  simp [Slot.drained, hl, hk]

namespace Reaches

variable {i : Inst} {n : Nat} {es : List Event} {s t : State} {sl : Slot} {rest : List Half}

/-- One satisfied RxNE poll and D_RD (R117). -/
theorem drainByte {bs : List Byte} (r : Reaches i n es s t (sl.drained bs)) (hb : sl.rb.length = sl.rlen.toNat)
    (hk : bs.length < sl.rlen.toNat - 3) {v d : Half} (hv : Satisfies (s.layout i) .rxne v)
    (ha : (t.inst i).answers = v :: d :: rest) :
    ∃ u, Reaches i (n + 2) (es ++ [.rsr1 i v .poll, .rdr i (lowByte d)]) s u (sl.drained (bs ++ [lowByte d])) ∧
      u.inst i = (t.inst i).answered.answered := by
  have hk16 : (BitVec.ofNat 16 bs.length).toNat = bs.length :=
    toNat_ofNat_of_le_maxLen (by have := toNat_le_maxLen sl.rlen; omega)
  have hset := set_zero_drop (l := sl.rb) (k := bs.length) (lowByte d) (by omega)
  obtain ⟨t₁, r₁, h₁⟩ := r.poll (pollAt_drained hk) hv ha
  obtain ⟨t₂, r₂, h₂⟩ := r₁.receive (v := d) (rest := rest) (receives_dRd r₁.inFlight rfl) (by simp [h₁, ha])
  refine ⟨t₂, ?_, by rw [h₂, h₁]⟩
  simpa [Slot.drained, hk16, BitVec.ofNat_add, hset] using r₂

/-- The drain of some bytes (R117). -/
theorem drain {ds : DrainAnswers} {bs : List Byte} (r : Reaches i n es s t (sl.drained bs))
    (hb : sl.rb.length = sl.rlen.toNat) (hk : bs.length + ds.length ≤ sl.rlen.toNat - 3)
    (hd : DrainGood (s.layout i) ds) (ha : (t.inst i).answers = drainList ds ++ rest) :
    ∃ u, Reaches i (n + 2 * ds.length) (es ++ drainTrace i ds) s u
        (sl.drained (bs ++ ds.map fun e => lowByte e.2)) ∧
      u.inst i = { t.inst i with answers := rest, reads := (t.inst i).reads + 2 * ds.length } := by
  induction ds generalizing n es t bs with
  | nil => exact ⟨t, by simpa [drainTrace] using r, by simp [← show (t.inst i).answers = rest from ha]⟩
  | cons e ds ih =>
    obtain ⟨he, hds⟩ := List.forall_mem_cons.1 hd
    rw [List.length_cons] at hk
    obtain ⟨t₁, r₁, h₁⟩ := r.drainByte hb (by omega) he ha
    obtain ⟨u, ru, hu⟩ := ih r₁ (by simp; omega) hds (by simp [h₁, ha, drainList])
    refine ⟨u, ?_, by simp [hu, h₁, InstState.answered]; omega⟩
    simpa [drainTrace, Nat.mul_add, Nat.add_assoc, Nat.add_comm, Nat.add_left_comm] using ru

end Reaches

/-! ### How a WRITE_READ ends -/

/-- What `Ends` says of a run, but for the count of bytes drawn: the events `es` have been made, and the command has
ended with result `r` and buffer `rb`. -/
def Yields (i : Inst) (es : List Event) (r : Res) (rb : List Byte) (s t : State) : Prop :=
  t.trace = s.trace ++ es ∧ t.slot = none ∧ t.res = r ∧ t.replies = s.replies ++ [.completed r rb] ∧
    SameElsewhere i s t

theorem Ends.yields {i : Inst} {es : List Event} {r : Res} {rb : List Byte} {s t : State} (h : Ends i es r rb s t) :
    Yields i es r rb s t :=
  ⟨h.trace, h.slot, h.res, h.replies, h.elsewhere⟩

/-- Acceptance touches nothing but the slot and the count of bytes drawn. -/
theorem Yields.of_accept {i j : Inst} {a : BitVec 7} {wb : List Byte} {m : Nat} {es : List Event} {r : Res}
    {rb : List Byte} {s t : State} (h : Yields i es r rb (acceptWriteRead j a wb m s) t) : Yields i es r rb s t := by
  simpa [Yields, SameElsewhere, acceptWriteRead] using h

/-- What the host sees of a run that has ended so, if the run has left the instance's owner and controller alone. -/
theorem Yields.observed {i : Inst} {es : List Event} {r : Res} {rb : List Byte} {s t : State} {sh : Shadow} {o : Bool}
    {rest : List Half} {c : Nat} (h : Yields i es r rb s t) (hb : Bound s i)
    (hx : t.inst i = { s.inst i with sh := sh, bracketOpen := o, answers := rest, reads := c }) :
    t.trace = s.trace ++ es ∧ t.slot = none ∧ t.res = r ∧ t.replies = s.replies ++ [.completed r rb] ∧
      (t.inst i).bracketOpen = o ∧ (t.inst i).sh = sh ∧ (t.inst i).answers = rest ∧ (t.inst i).periph = .bound ∧
      (t.inst i).ctl = (s.inst i).ctl ∧ SameElsewhere i s t := by
  obtain ⟨htrace, hslot, hres, hreplies, helse⟩ := h
  rw [hx]
  exact ⟨htrace, hslot, hres, hreplies, rfl, rfl, rfl, hb, rfl, helse⟩

/-- T3_FILL and DONE (R120, R86). -/
theorem Reaches.fillAndComplete {i : Inst} {n : Nat} {es : List Event} {s t : State} {sl : Slot}
    (r : Reaches i n es s t sl) (hu : sl.upc = .rd .t3Fill) :
    ∃ u d, Core.run core (n + 2) s = .next u ∧ Yields i es .ok (sl.rb.set (sl.rlen.toNat - 1) d) s u ∧
      u.inst i = t.inst i := by
  have hfill := exec_t3Fill r.inFlight hu
  obtain ⟨hs, hreg, hlab⟩ := r.inFlight
  obtain ⟨hdone, -⟩ := exec_keepsPlace hs hreg hlab hfill _ rfl
  have hrun : Core.run core 2 t = .next ((t.drew 1).complete { sl with rb := sl.rb.set (sl.rlen.toNat - 1) t.drawn }) :=
    (run_succ ((step_inFlight hs).trans hfill)).trans (run_succ (step_goto_done hdone))
  exact ⟨_, t.drawn, (run_add r.run).trans hrun, ⟨by simp [r.trace], rfl, rfl, by simp [r.replies],
    r.elsewhere.trans (by simp [SameElsewhere])⟩, by simp⟩

/-! ### Runs of WRITE_READ (R109 to R124) -/

section Reception

variable {s : State} {i : Inst} {a : BitVec 7} {wb : List Byte} {m : Nat} {w : WriteAnswers} {ra : ReadAnswers}
  {rest : List Half}

/-- After its acceptance WRITE_READ is in flight at W_START. -/
theorem reaches_writeRead (hl : wb.length ≤ 65535) (hm : m ≤ 65535) :
    Reaches i 0 [] (acceptWriteRead i a wb m s) (acceptWriteRead i a wb m s)
      (writeReadSlot i a wb m (lentBuffer m s.lent s.draws)) :=
  .refl ⟨rfl, registersOk_writeReadSlot (wf_writeRead.2 ⟨hl, hm⟩) (lentBuffer_length ..), rfl⟩

/-- From its acceptance WRITE_READ runs to the label that begins the reception, the lent buffer as it was lent. -/
theorem reaches_reception (hl : wb.length ≤ 65535) (hm : m ≤ 65535) (hw : w.Good (s.layout i) wb.length)
    (hr : ra.Good (s.layout i)) (ha : (s.inst i).answers = w.list ++ (ra.list ++ rest)) :
    ∃ u, Reaches i (14 + 2 * wb.length + (stagingTrace i m).length) (writeTrace i a wb w ++ readOpeningTrace i a m ra)
        (acceptWriteRead i a wb m s) u
        { writeReadSlot i a wb m (lentBuffer m s.lent s.draws) with upc := receptionLabel m } ∧
      u.inst i = { s.inst i with
        sh := Shadow.staged { (s.inst i).sh with ack := some true } m, bracketOpen := true, answers := rest,
        reads := (s.inst i).reads + (8 + wb.length) } := by
  have hm16 : (BitVec.ofNat 16 m).toNat = m := toNat_ofNat_of_le_maxLen hm
  obtain ⟨t₁, r₁, h₁⟩ := (reaches_writeRead hl hm).writePhase rfl (by simpa [writeReadSlot] using hw)
    (by simpa using ha)
  obtain ⟨t₂, r₂, h₂⟩ := r₁.readOpening rfl (by simpa using hr) (by rw [h₁])
  have hn : 14 + 2 * wb.length + (stagingTrace i m).length =
    0 + (7 + 2 * wb.length) + (7 + (stagingTrace i m).length) := by omega
  refine ⟨t₂, ?_, ?_⟩
  · rw [hn]; simpa [writeReadSlot, hm16] using r₂
  · simp [h₂, h₁, writeReadSlot, hm16]; omega

/-- From its acceptance a WRITE_READ of three bytes or more runs through as much of its drain as the oracle answers,
the bytes received in the buffer and the rest of it as it was lent (R117, R123). -/
theorem reaches_drained {ds : DrainAnswers} (hl : wb.length ≤ 65535) (hm : m ≤ 65535) (hds : ds.length + 3 ≤ m)
    (hw : w.Good (s.layout i) wb.length) (hr : ra.Good (s.layout i)) (hd : DrainGood (s.layout i) ds)
    (ha : (s.inst i).answers = w.list ++ (ra.list ++ (drainList ds ++ rest))) :
    ∃ u, Reaches i (14 + 2 * wb.length + 2 * ds.length)
        (writeTrace i a wb w ++ readOpeningTrace i a m ra ++ drainTrace i ds) (acceptWriteRead i a wb m s) u
        ((writeReadSlot i a wb m (lentBuffer m s.lent s.draws)).drained (ds.map fun e => lowByte e.2)) ∧
      u.inst i = { s.inst i with
        sh := { (s.inst i).sh with ack := some true }, bracketOpen := true, answers := rest,
        reads := (s.inst i).reads + (8 + wb.length) + 2 * ds.length } := by
  have h1 : m ≠ 1 := by omega
  have h2 : m ≠ 2 := by omega
  have hm16 : (writeReadSlot i a wb m (lentBuffer m s.lent s.draws)).rlen.toNat = m := toNat_ofNat_of_le_maxLen hm
  have hbegin := drained_nil (sl := writeReadSlot i a wb m (lentBuffer m s.lent s.draws)) rfl (by omega)
  rw [hm16] at hbegin
  obtain ⟨t, rt, ht⟩ := reaches_reception (m := m) (a := a) hl hm hw hr ha
  rw [← hbegin] at rt
  obtain ⟨u, ru, hu⟩ := rt.drain (ds := ds) (rest := rest) ((lentBuffer_length ..).trans hm16.symm)
    (by rw [hm16, List.length_nil]; omega) (by simpa using hd) (by rw [ht])
  refine ⟨u, ?_, by simp [hu, ht, Shadow.staged, h1, h2]⟩
  simpa [stagingTrace, h1, h2] using ru

end Reception

/-- Settles O36: with nothing to receive the run goes from R_SR2 to DONE. -/
theorem writeReadZeroRun : Obligations.WriteReadZeroRun := by
  intro s i a wb w r rest hidle hl hb hw hr ha
  obtain ⟨t, rt, ht⟩ := reaches_reception (m := 0) (a := a) hl (by decide) hw hr ha
  obtain ⟨u, hrun, hend, hu⟩ := rt.complete rfl
  have hn : 15 + 2 * wb.length = 14 + 2 * wb.length + (stagingTrace i 0).length + 1 := by simp [stagingTrace]; omega
  exact ⟨_, u, exec_writeRead_of_bound hidle hl (by decide) hb, hn ▸ hrun,
    hend.yields.of_accept.observed hb (hu.trans ht)⟩

/-- Settles O37: the one-byte tail, then DONE. -/
theorem writeReadOneRun : Obligations.WriteReadOneRun := by
  intro s i a wb w r vrx d0 rest hidle hl hb hw hr hrx ha
  obtain ⟨t, rt, ht⟩ := reaches_reception (m := 1) (a := a) hl (by decide) hw hr ha
  obtain ⟨t₁, r₁, h₁⟩ := rt.oneByteTail rfl (by simpa using hrx) (by rw [ht])
  obtain ⟨u, hrun, hend, hu⟩ := r₁.complete rfl
  have hn : 19 + 2 * wb.length = 14 + 2 * wb.length + (stagingTrace i 1).length + 3 + 1 := by simp [stagingTrace]; omega
  have hrb : (lentBuffer 1 s.lent s.draws).set 0 (lowByte d0) = [lowByte d0] := by
    obtain ⟨x, hx⟩ := List.length_eq_one_iff.1 (lentBuffer_length 1 s.lent s.draws)
    simp [hx]
  rw [ht] at h₁
  exact ⟨_, u, exec_writeRead_of_bound hidle hl (by decide) hb, hn ▸ hrun,
    hrb ▸ hend.yields.of_accept.observed hb (hu.trans h₁)⟩

/-- Settles O38: the two-byte tail, then DONE. -/
theorem writeReadTwoRun : Obligations.WriteReadTwoRun := by
  intro s i a wb w r vrx vbtf d0 d1 rest hidle hl hb hw hr hrx hbtf ha
  obtain ⟨t, rt, ht⟩ := reaches_reception (m := 2) (a := a) hl (by decide) hw hr ha
  obtain ⟨t₁, r₁, h₁⟩ := rt.twoByteTail rfl (by simpa using hrx)
    (by simpa using hbtf) (by rw [ht])
  obtain ⟨u, hrun, hend, hu⟩ := r₁.complete rfl
  have hn : 22 + 2 * wb.length = 14 + 2 * wb.length + (stagingTrace i 2).length + 5 + 1 := by simp [stagingTrace]; omega
  have hrb : ((lentBuffer 2 s.lent s.draws).set 0 (lowByte d0)).set 1 (lowByte d1) = [lowByte d0, lowByte d1] := by
    obtain ⟨x, y, hxy⟩ := List.length_eq_two.1 (lentBuffer_length 2 s.lent s.draws)
    simp [hxy]
  rw [ht] at h₁
  exact ⟨_, u, exec_writeRead_of_bound hidle hl (by decide) hb, hn ▸ hrun,
    hrb ▸ hend.yields.of_accept.observed hb (hu.trans h₁)⟩

/-- Settles O39: the drain, the three-byte tail, T3_FILL and DONE. -/
theorem writeReadLongRun : Obligations.WriteReadLongRun := by
  intro s i a wb w r ds tl rest hidle hl hm hb hw hr hd htl ha
  obtain ⟨t, rt, ht⟩ := reaches_drained (a := a) hl hm (Nat.le_refl _) hw hr hd ha
  have hm16 : (BitVec.ofNat 16 (ds.length + 3)).toNat = ds.length + 3 := toNat_ofNat_of_le_maxLen hm
  obtain ⟨t₁, r₁, h₁⟩ := rt.threeByteTail (by simp [Slot.drained, writeReadSlot, hm16])
    (by simpa using htl) (by rw [ht])
  obtain ⟨u, d, hrun, hend, hu⟩ := r₁.fillAndComplete rfl
  have hn : 24 + 2 * wb.length + 2 * ds.length = 14 + 2 * wb.length + 2 * ds.length + 8 + 2 := by omega
  have hrb : ((((lentBuffer (ds.length + 3) s.lent s.draws).drop ds.length).set 0 (lowByte tl.d0)).set 1
      (lowByte tl.d1)).set 2 d = [lowByte tl.d0, lowByte tl.d1, d] := by
    have hlen : ((lentBuffer (ds.length + 3) s.lent s.draws).drop ds.length).length = 3 := by simp [lentBuffer_length]
    obtain ⟨x, y, z, hxyz⟩ := List.length_eq_three.1 hlen
    simp [hxyz]
  rw [ht] at h₁
  exact ⟨_, u, d, exec_writeRead_of_bound hidle hl hm hb, hn ▸ hrun, by
    simpa [Slot.drained, writeReadSlot, hm16, hrb] using hend.of_accept.observed hb (hu.trans h₁)⟩

/-- Settles O40: the poll that fails is that of the drain for the next byte. -/
theorem drainErrorLeavesPartialBuffer : Obligations.DrainErrorLeavesPartialBuffer := by
  intro s i a wb m w r ds verr rest e hidle hl hm hds hlent hb hw hr hd herr ha
  obtain ⟨t, rt, ht⟩ := reaches_drained (a := a) hl hm (by omega) hw hr hd ha
  have hm16 : (BitVec.ofNat 16 m).toNat = m := toNat_ofNat_of_le_maxLen hm
  obtain ⟨u, hrun, hend, hu⟩ := rt.abort (pollAt_drained (by simpa [writeReadSlot, hm16] using hds))
    (by simpa using herr) (by rw [ht])
  have hn : 15 + 2 * wb.length + 2 * ds.length = 14 + 2 * wb.length + 2 * ds.length + 1 := by omega
  have hx := hu.trans (congrArg InstState.answered ht)
  obtain ⟨htrace, hslot, hres, hreplies, hopen, -, hrest, hbound, hctl, helse⟩ :=
    hend.yields.of_accept.observed hb hx
  exact ⟨_, u, exec_writeRead_of_bound hidle hl hm hb, hn ▸ hrun, htrace, hslot, hres,
    by simpa [Slot.drained, writeReadSlot, lentBuffer_of_length_eq hlent] using hreplies,
    hopen, hbound, hctl, hrest, helse⟩

end Sys2Proof.Machine
end

section
/-! SUPPORT. The proofs of the statements about exceptions: the abort on an error (R129), the refusal of a command with
no controller and of a frame that spells none (R132), the idle step with nothing presented (R141, R142), and what the
host never loses: the refusal mark and its replies. -/

namespace Sys2Proof.Machine

/-! ### The abort on an error (R129) -/

/-- A poll read that shows an error is the whole step: one SR1 read, then the abort. -/
theorem exec_of_error {s : State} {sl : Slot} {f : Flag} {next : Label} {r : Res} (h : InFlight s sl)
    (hp : pollAt sl = some (f, next)) (hv : errorOf (s.layout sl.inst) (s.answer sl.inst) = some r) :
    exec sl.cmd s = .next ((s.readSr1 sl.inst .poll).abort sl r) := by
  rw [exec_poll h hp, poll_of_error hv]

theorem abort_sameElsewhere {i : Inst} {s t : State} {sl : Slot} {r : Res} (h : SameElsewhere i s t) :
    SameElsewhere i s (t.abort sl r) := by
  simpa [SameElsewhere] using h

/-- Settles O14: the step is one SR1 read and the abort, and each leaves the rest alone. -/
theorem errorAbortsAtOnce : Obligations.ErrorAbortsAtOnce := by
  intro s sl f next r h hp hv
  have hread : SameElsewhere sl.inst s (s.readSr1 sl.inst .poll) := (PortOp.sr1 (sl := sl) .poll).sameElsewhere
  refine ⟨_, exec_of_error h hp hv, rfl, rfl, ?replies, ?trace, ?inst, ?draws, abort_sameElsewhere hread⟩
  all_goals simp

/-! ### The mark and the replies (R132, R141) -/

/-- From `s` to `t` the host loses nothing: a set refusal mark stays set, and every reply stays where it is. -/
def HostKeeps (s t : State) : Prop := (s.mark = true → t.mark = true) ∧ ∃ new, t.replies = s.replies ++ new

theorem HostKeeps.of_eq {s t : State} (hm : t.mark = s.mark) (hr : t.replies = s.replies) : HostKeeps s t :=
  ⟨fun h => hm.trans h, [], by simp [hr]⟩

theorem HostKeeps.of_append {s t : State} {r : Reply} (hm : t.mark = s.mark) (hr : t.replies = s.replies ++ [r]) :
    HostKeeps s t :=
  ⟨fun h => hm.trans h, [r], hr⟩

theorem HostKeeps.refuse (s : State) (r : RefuseReason) : HostKeeps s (s.refuse r) :=
  ⟨fun _ => rfl, [.refused r], rfl⟩

theorem HostKeeps.endController {i : Inst} {c : Controller} {p : Periph} {o : PinOwner} (s : State) :
    HostKeeps s (endController i c p o s) :=
  .of_append (r := .completed .ok []) (by simp [Machine.endController]) (by simp [Machine.endController])

/-- A micro-step gives a reply only where it ends the command. -/
theorem exec_inFlight_hostKeeps {s t : State} {sl : Slot} (hs : s.slot = some sl) (he : exec sl.cmd s = .next t) :
    HostKeeps s t := by
  obtain ⟨s₁, hop, ht⟩ := exec_inFlight_shape hs he
  obtain ⟨-, hr, hm⟩ := hop.pins
  rcases ht with ⟨sl', l, -, rfl⟩ | ⟨r, rfl⟩
  · exact .of_eq hm hr
  · exact .of_append (r := .completed r sl.rb) hm (by simp [hr])

/-- A command presented to an idle sequencer is refused, or taken into the slot without a reply, or answered at
once. -/
theorem exec_idle_hostKeeps {s t : State} {i : Instr} (hs : s.slot = none) (he : exec i s = .next t) :
    HostKeeps s t := by
  rcases exec_idle_cases hs he with ⟨r, rfl⟩ | ⟨j, scl, sda, f, c, -, -, rfl⟩ | ⟨j, c, -, -, rfl⟩ | ⟨j, c, -, -, rfl⟩ |
      ⟨j, a, wb, -, -, rfl⟩ | ⟨j, a, wb, m, -, -, rfl⟩
  · exact .refuse s r
  · exact .of_eq (by simp [acceptConfigure]) (by simp [acceptConfigure])
  · exact .endController s
  · exact .endController s
  · exact .of_eq rfl rfl
  · exact .of_eq rfl rfl

/-- Settles O54: a step runs a micro-step, waits, runs a presented command, or refuses a presentation. -/
theorem markAndRepliesStay : Obligations.MarkAndRepliesStay := by
  intro s t hstep
  change HostKeeps s t
  rcases step_cases hstep with ⟨sl, hs, he⟩ | ⟨-, -, rfl⟩ | ⟨x, xs, i, hs, -, -, he⟩ | ⟨x, xs, r, -, -, -, rfl⟩
  · exact exec_inFlight_hostKeeps hs he
  · exact .of_eq rfl rfl
  · exact exec_idle_hostKeeps (s := s.took x xs) hs he
  · exact .refuse (s.took x xs) r

/-! ### Refusals (R132) -/

theorem transferRefusal_of_not_bound {c : Instr} {s : State} (hwf : c.wf = true)
    (hb : (s.inst c.inst).periph ≠ .bound) : transferRefusal c s = some .noController := by
  simp [transferRefusal, hwf, hb]

theorem exec_of_transferRefusal {s : State} {c : Instr} {r : RefuseReason} (h : Idle s) (hc : IsTransfer c)
    (hr : transferRefusal c s = some r) : exec c s = .next (s.refuse r) := by
  rcases hc with ⟨i, a, wb, rfl⟩ | ⟨i, a, wb, m, rfl⟩
  · simp [exec, execWrite, show s.slot = none from h, hr]
  · simp [exec, execWriteRead, show s.slot = none from h, hr]

/-- Settles O24: RELEASE and DROP find no live controller, and a well-formed transfer passes the check before. -/
theorem noControllerRefused : Obligations.NoControllerRefused := by
  intro s i cmd hidle hb hcmd
  suffices he : exec cmd s = .next (s.refuse .noController) from ⟨_, he, refuse_refusedWith _ _⟩
  rcases hcmd with rfl | rfl | ⟨a, wb, rfl, hwf⟩ | ⟨a, wb, m, rfl, hwf⟩
  · rw [exec_release hidle, liveController_of_not_bound hb, Option.elim_none]
  · rw [exec_drop hidle, liveController_of_not_bound hb, Option.elim_none]
  · exact exec_of_transferRefusal hidle (.inl ⟨i, a, wb, rfl⟩) (transferRefusal_of_not_bound hwf hb)
  · exact exec_of_transferRefusal hidle (.inr ⟨i, a, wb, m, rfl⟩) (transferRefusal_of_not_bound hwf hb)

/-- Settles O42: the frame's presentation comes to BadEncoding, and the step takes it from the port and refuses it. -/
theorem badFrameRefused : Obligations.BadFrameRefused :=
  fun _ _ rb _ hidle hh hd => refused_of_command_error hidle hh (command_frame_of_decode_none rb hd)

/-! ### Nothing presented (R141, R142) -/

theorem takeInput_of_no_input {s : State} (hh : s.host = []) : takeInput s = none := by
  simp [takeInput, hh]

/-- Settles O44: the idle step finds the port empty. -/
theorem idleStepWaits : Obligations.IdleStepWaits := by
  intro s hidle hh
  have hslot : s.slot = none := hidle
  simp [step, hslot, takeInput_of_no_input hh]

end Sys2Proof.Machine
end

section
/-! SUPPORT. The proof of the statement about hazards: which steps change a write shadow, and how (R27, R149). -/

namespace Sys2Proof.Machine

/-! ### The shadow along a port operation (R88) -/

/-- A CR1 write of 1, or to ACK, leaves a POS of 1 as it is. -/
theorem noteCr1_pos {x : InstState} {f : Cr1Field} {b : Bool} (hval : b = true ∨ f = .ack)
    (hpos : x.sh.pos = some true) : (x.noteCr1 f b).sh.pos = some true := by
  cases f with
  | pos =>
    obtain rfl : b = true := by simpa using hval
    rfl
  | _ => exact hpos

/-- START and STOP are no fields of the shadow (R27). -/
theorem noteCr1_sh_of_start_or_stop {x : InstState} {f : Cr1Field} {b : Bool} (hf : f = .start ∨ f = .stop) :
    (x.noteCr1 f b).sh = x.sh := by
  rcases hf with rfl | rfl <;> rfl

/-- A port operation leaves a POS of 1 as it is, but for the setting of RST. -/
theorem PortOp.keeps_pos {i j : Inst} {sl : Slot} {s t : State} (h : PortOp i sl s t)
    (hpos : (s.inst j).sh.pos = some true) : (t.inst j).sh.pos = some true ∨ sl.upc = .conf .rsts ∧ i = j := by
  by_cases hj : j = i
  · subst hj
    cases h with
    | cr1 f b hval => exact .inl (by simpa using noteCr1_pos hval hpos)
    | rstSet hu => exact .inr ⟨hu, rfl⟩
    | _ => exact .inl (by simpa using hpos)
  · exact .inl (h.inst_ne hj ▸ hpos)

/-- In the write phase, and at its end, a port operation leaves every shadow as it is. -/
theorem PortOp.sh_of_wr_or_done {i : Inst} {sl : Slot} {s t : State} (h : PortOp i sl s t)
    (hu : (∃ l, sl.upc = .wr l) ∨ sl.upc = .done) (j : Inst) : (t.inst j).sh = (s.inst j).sh := by
  by_cases hj : j = i
  · subst hj
    cases h with
    | cr1 f b _ hwr hdone => simpa using noteCr1_sh_of_start_or_stop (hwr (hu.resolve_right hdone))
    | rstSet hr => simp [hr] at hu
    | _ => simp
  · rw [h.inst_ne hj]

/-! ### The shadow along a step -/

theorem State.setInst_sh_of_eq {s : State} {i : Inst} {x : InstState} (h : x.sh = (s.inst i).sh) (j : Inst) :
    ((s.setInst i x).inst j).sh = (s.inst j).sh := by
  by_cases hj : j = i
  · subst hj; simpa using h
  · rw [State.setInst_inst_ne _ _ _ _ hj]

/-- A presented command touches no shadow: acceptance and a controller's end change owners only. -/
theorem exec_idle_sh {s t : State} {i : Instr} (hs : s.slot = none) (he : exec i s = .next t) (j : Inst) :
    (t.inst j).sh = (s.inst j).sh := by
  rcases exec_idle_cases hs he with ⟨r, rfl⟩ | ⟨k, scl, sda, f, c, -, -, rfl⟩ | ⟨k, c, -, -, rfl⟩ |
      ⟨k, c, -, -, rfl⟩ | ⟨k, a, wb, -, -, rfl⟩ | ⟨k, a, wb, m, -, -, rfl⟩
  · simp
  · simp [acceptConfigure, State.setInst_sh_of_eq]
  · simp [endController, State.setInst_sh_of_eq]
  · simp [endController, State.setInst_sh_of_eq]
  · simp
  · simp [acceptWriteRead]

/-- A step with the slot empty touches no shadow. -/
theorem step_idle_sh {s t : State} (hs : s.slot = none) (h : step s = .next t) (j : Inst) :
    (t.inst j).sh = (s.inst j).sh := by
  rcases step_cases h with ⟨sl, hsl, -⟩ | ⟨-, -, rfl⟩ | ⟨x, xs, i, -, -, -, he⟩ | ⟨x, xs, r, -, -, -, rfl⟩
  · simp [hs] at hsl
  · rfl
  · simpa using exec_idle_sh (s := s.took x xs) hs he j
  · simp

/-- A step with a command in flight does to every instance what one port operation does. -/
theorem portOp_of_step {s t : State} {sl : Slot} (hs : s.slot = some sl) (h : step s = .next t) :
    ∃ s₁, PortOp sl.inst sl s s₁ ∧ ∀ j, t.inst j = s₁.inst j := by
  obtain ⟨s₁, hop, -, hin⟩ := exec_portOp hs (step_inFlight hs ▸ h)
  exact ⟨s₁, hop, hin⟩

/-- A WRITE that has a next state is in the write phase or at its end. -/
theorem wr_or_done_of_write {s t : State} {sl : Slot} {i : Inst} {a : BitVec 7} {wb : List Byte}
    (hs : s.slot = some sl) (hc : sl.cmd = .write i a wb) (h : step s = .next t) :
    (∃ l, sl.upc = .wr l) ∨ sl.upc = .done := by
  rcases exec_inFlight_cases hs (step_inFlight hs ▸ h) with ⟨_, _, _, _, _, _, -, hc', -⟩ | ⟨l, hu, -⟩ |
      ⟨_, _, _, _, _, -, hc', -⟩ | ⟨hu, -⟩
  · simp [hc] at hc'
  · exact .inl ⟨l, hu⟩
  · simp [hc] at hc'
  · exact .inr hu

/-- No step but that of a reset pulse's beginning takes a POS of 1 away. -/
theorem step_keeps_pos {s t : State} {i : Inst} (h : step s = .next t) (hpos : (s.inst i).sh.pos = some true) :
    (t.inst i).sh.pos = some true ∨ ∃ sl, s.slot = some sl ∧ sl.upc = .conf .rsts ∧ sl.inst = i := by
  cases hs : s.slot with
  | none => exact .inl (step_idle_sh hs h i ▸ hpos)
  | some sl =>
    obtain ⟨s₁, hop, hin⟩ := portOp_of_step hs h
    rw [hin i]
    exact (hop.keeps_pos hpos).imp_right fun hr => ⟨sl, rfl, hr⟩

/-- A step of a WRITE touches no shadow of any instance. -/
theorem step_write_sh {s t : State} {sl : Slot} {i : Inst} {a : BitVec 7} {wb : List Byte} (hs : s.slot = some sl)
    (hc : sl.cmd = .write i a wb) (h : step s = .next t) (j : Inst) : (t.inst j).sh = (s.inst j).sh := by
  obtain ⟨s₁, hop, hin⟩ := portOp_of_step hs h
  rw [hin j]
  exact hop.sh_of_wr_or_done (wr_or_done_of_write hs hc h) j

/-- Settles O58: no CR1 write but ACK's writes 0, and those of a WRITE are of START and STOP. -/
theorem positionIsSticky : Obligations.PositionIsSticky :=
  fun _ _ i h => ⟨step_keeps_pos h, fun _ _ _ _ hs hc => congrArg Shadow.ack (step_write_sh hs hc h i)⟩

end Sys2Proof.Machine
end
